-- ==== Sys2Proof/Word.lean ====
section
/-! DEFINITION. The words of the EEPROM protocol engine (00_scope.md rule R12) and its two-valued direction mode
(10_state.md rule R26). Every value is an unsigned bit vector of a stated width. -/

namespace Sys2Proof

/-- `u8`: a byte of data, a stage of a shift register (rule R8, `DATA_W`, `SR_W`). -/
abbrev Byte := BitVec 8

/-- `u15`: an address of the device (rule R8, `ADDR_W`; rule R61). -/
abbrev Addr := BitVec 15

/-- The 32-bit command word (rule R103). -/
abbrev CmdWord := BitVec 32

/-- The 16-bit response word (rule R104). -/
abbrev RspWord := BitVec 16

/-- DataDirection: who drives the shared data lines (rules R26, R160). -/
inductive Direction where
  | hostDrives
  | deviceDrives
deriving DecidableEq, Repr

end Sys2Proof
end

