-- ==== Sys2Proof/Config.lean ====
section
/-! DEFINITION. What is fixed for the machine (00_scope.md rule R8), the build parameters (rule R9), the open timing parameters
(rule R10), and the FREE VALUES: opaque constants without a body, about which nothing can be proved. -/

namespace Sys2Proof

/-- Build parameters (rule R9): constants of an instance, which no operation writes (10_state.md rule R31). -/
structure Build where
  /-- `SAFETY_BUILD`: a data-bus access in the wrong direction raises `BusContentionRisk`. -/
  safetyBuild : Bool
  /-- `POLL_LIMIT`: `none`, or the count of mismatching polls after which WAIT raises `UnexpectedToggleBit`. -/
  pollLimit : Option Nat
  /-- `DEADLINE_EN`: the input `deadline_expired` is consulted by WAIT, SDPD and SDPE. -/
  deadlineEn : Bool
deriving DecidableEq, Repr

/-- The base design (rule R9, column "base value"). -/
def Build.base : Build := { safetyBuild := false, pollLimit := none, deadlineEn := false }

namespace Config

/-- `MEM_SIZE` (rule R8): 32768 bytes, addresses `0x0000` to `0x7FFF`. -/
def memSize : Nat := 32768

/-- `DUMP_LEN` (rule R8). -/
def dumpLen : Nat := 256

/-- `DUMP_ROW` (rule R8). -/
def dumpRow : Nat := 16

/-- What a cell of the device that the memory list does not name reads as.
DESIGN CHOICE (log 6, unsafe for runs from `State.reset` only): rule R11 leaves `MEM_INIT` open. -/
def unlistedByte : Byte := 0x00#8

/-! Open timing parameters (rule R10). No result depends on them: `Delay` changes no state (rule R14). -/

/-- Width of the write-enable low pulse. -/
opaque tWp : Nat
/-- Delay between two polls in WAIT. -/
opaque tPoll : Nat
/-- Time per shifted bit. -/
opaque tSck : Nat
/-- Greatest admissible duration of one SDP sequence. -/
opaque tSeqMax : Nat
/-- The device's page-write timing window. -/
opaque tWindow : Nat
/-- Duration of the device's internal write. -/
opaque tWc : Nat
/-- The timeout behind `deadline_expired`. -/
opaque tDeadline : Nat

/-! Free values: what the spec leaves open. Each is applied to a plain counter of `State` (`draws` for bytes, `tick` for the
environment's choices), so that every use is a fresh value. -/

/-- Bits 6 to 0 of a read while the device is busy: "any value, chosen afresh at every read" (rule R76, U6; log 12). -/
opaque busyBits : Nat → BitVec 7
/-- The answer of a dead or miswired device: any byte at every read (rules R66, R85, U18; log 14). -/
opaque oracleByte : Nat → Byte
/-- The data lines when neither side drives them, or both do (rule R37, D32, U5; log 11). -/
opaque floatingByte : Nat → Byte
/-- How many slots pass before a live device's next `WindowElapse`, once for each, in slots that the environment has not listed:
finitely many, and nothing more is known (weak fairness, rule R85; log 3). -/
opaque windowGap : Nat → Nat
/-- The same for `ProgramDone` (weak fairness, rule R85; log 3). -/
opaque programGap : Nat → Nat
/-- Whether `WindowElapse` comes in a slot that the environment has not listed, before a dead device: "no fairness holds" (rule R85;
log 3, 14). -/
opaque windowElapses : Nat → Bool
/-- The same for `ProgramDone` (rule R85; log 3, 14). -/
opaque programEnds : Nat → Bool
/-- Whether `deadline_expired` becomes 1 in a slot that the environment has not listed (rule R232; log 3, 10). -/
opaque deadlineComes : Nat → Bool
/-- `last_high` after a reset of a running block (rules R50, R260; log 8). -/
opaque resetLastHigh : Nat → Byte
/-- `dout` after a reset of a running block (rules R50, R260; log 8). -/
opaque resetDout : Nat → Byte
/-- `poll_bit` after a reset of a running block (rules R50, R260, U3; log 8). -/
opaque resetPollBit : Nat → Bool

end Config

end Sys2Proof
end

