-- ==== Sys2Proof/Syntax.lean ====
section
/-! DEFINITION. The nine operations (30_encoding.md rule R100), one constructor per row of spec/opcode_table.json. -/

namespace Sys2Proof

/-- A command of the block, operands at their natural widths (rule R106). -/
inductive Instr where
  /-- `SETA addr`: present an address (40_addressbus.md rule R144). -/
  | seta (addr : Addr)
  /-- `SETD mode`: turn the data bus (41_databus.md rule R161). -/
  | setd (mode : Direction)
  /-- `DWR data`: drive a byte (41_databus.md rule R165). -/
  | dwr (data : Byte)
  /-- `DRD`: sample the lines (41_databus.md rule R168). -/
  | drd
  /-- `WRB addr, data`: one write cycle (42_cyclecontroller.md rule R182). -/
  | wrb (addr : Addr) (data : Byte)
  /-- `RDB addr`: one read cycle (42_cyclecontroller.md rule R185). -/
  | rdb (addr : Addr)
  /-- `WAIT`: poll for completion (42_cyclecontroller.md rule R188). -/
  | wait
  /-- `SDPD`: the disable sequence (43_protectionsequencer.md rule R202). -/
  | sdpd
  /-- `SDPE`: the enable sequence (43_protectionsequencer.md rule R203). -/
  | sdpe
deriving DecidableEq, Repr

end Sys2Proof
end

