-- ==== Sys2Proof/WellFormed.lean ====
section
/-! DEFINITION. What may be written down as a command. An `Instr` carries its operands at their widths, so every `Instr` is
well-formed (log 34); the check is on the source form, whose operands are numbers as a programmer writes them: "The assembler
refuses an `addr` operand above `0x7FFF` and a `data` operand above `0xFF`; it never truncates" (30_encoding.md rule R123). -/

namespace Sys2Proof

/-- One line of a program: a command (rule R120) or a pseudo-instruction (rule R124), operands as written. -/
inductive Source where
  | seta (addr : Nat)
  | setd (mode : Direction)
  | dwr (data : Nat)
  | drd
  | wrb (addr data : Nat)
  | rdb (addr : Nat)
  | wait
  | sdpd
  | sdpe
  /-- `WRITE addr, data` (44_host_commands_and_diagnostics.md rule R216). -/
  | write (addr data : Nat)
  /-- `READ addr` (rule R217). -/
  | read (addr : Nat)
  /-- `UNLOCK` (rule R218). -/
  | unlock
  /-- `LOCK` (rule R218). -/
  | lock
  /-- `DUMP addr` (rule R219). -/
  | dump (addr : Nat)
deriving DecidableEq, Repr

/-- An address operand names a cell of the device (rule R123). -/
def addrFits (n : Nat) : Bool := decide (n ≤ 0x7FFF)

/-- A data operand is one byte (rule R123). -/
def dataFits (n : Nat) : Bool := decide (n ≤ 0xFF)

/-- The assembler's check of a line's operands (rule R123). -/
def Source.wellFormed : Source → Bool
  | .seta a => addrFits a
  | .setd _ => true
  | .dwr d => dataFits d
  | .drd => true
  | .wrb a d => addrFits a && dataFits d
  | .rdb a => addrFits a
  | .wait => true
  | .sdpd => true
  | .sdpe => true
  | .write a d => addrFits a && dataFits d
  | .read a => addrFits a
  | .unlock => true
  | .lock => true
  | .dump a => addrFits a

end Sys2Proof
end

