-- ==== Sys2Proof/Decode.lean ====
section
/-! DEFINITION. The command word (30_encoding.md rules R103, R106, R107, R115 to R117): its fields, the decoder, total on every
32-bit word and rejecting by name, and after it the encoder. -/

namespace Sys2Proof

/-! ## Fields (rule R103) -/

/-- `op = cmd_word[31:28]`. -/
def opField (w : CmdWord) : BitVec 4 := w.extractLsb' 28 4

/-- `zero = cmd_word[27:23]`. -/
def zeroField (w : CmdWord) : BitVec 5 := w.extractLsb' 23 5

/-- `addr = cmd_word[22:8]` (rule R106: unsigned, not scaled, not extended). -/
def addrField (w : CmdWord) : Addr := w.extractLsb' 8 15

/-- `data = cmd_word[7:0]` (rule R106). -/
def dataField (w : CmdWord) : Byte := w.extractLsb' 0 8

/-- `data[7:1]`, which must be 0 in SETD (rule R103). -/
def dataHighField (w : CmdWord) : BitVec 7 := w.extractLsb' 1 7

/-- `mode = HostDrives if cmd_word[0] == 0 else DeviceDrives` (rule R106). -/
def modeField (w : CmdWord) : Direction := if w.getLsbD 0 then .deviceDrives else .hostDrives

/-- Why a word selects no row of the opcode map (rule R115). -/
inductive IllegalWord where
  /-- `op` is `0x0` or `0xA` to `0xF`. -/
  | unusedOp
  /-- `zero != 0`. -/
  | zeroNotZero
  /-- A field that must be 0 in that operation is not 0. -/
  | operandNotZero
deriving DecidableEq, Repr

/-- The instruction, provided the fields it does not use are 0 (rules R103, R115). -/
def whenUnusedZero (unusedZero : Bool) (i : Instr) : Except IllegalWord Instr :=
  if unusedZero then .ok i else .error .operandNotZero

/-- The rows of rule R107, by `op`. -/
def decodeOp (w : CmdWord) : Except IllegalWord Instr :=
  if opField w = 0x1#4 then whenUnusedZero (dataField w == 0#8) (.seta (addrField w))
  else if opField w = 0x2#4 then
    whenUnusedZero (addrField w == 0#15 && dataHighField w == 0#7) (.setd (modeField w))
  else if opField w = 0x3#4 then whenUnusedZero (addrField w == 0#15) (.dwr (dataField w))
  else if opField w = 0x4#4 then whenUnusedZero (addrField w == 0#15 && dataField w == 0#8) .drd
  else if opField w = 0x5#4 then .ok (.wrb (addrField w) (dataField w))
  else if opField w = 0x6#4 then whenUnusedZero (dataField w == 0#8) (.rdb (addrField w))
  else if opField w = 0x7#4 then whenUnusedZero (addrField w == 0#15 && dataField w == 0#8) .wait
  else if opField w = 0x8#4 then whenUnusedZero (addrField w == 0#15 && dataField w == 0#8) .sdpd
  else if opField w = 0x9#4 then whenUnusedZero (addrField w == 0#15 && dataField w == 0#8) .sdpe
  else .error .unusedOp

/-- The decoder: every command is one 32-bit word of format `CMD` (rule R117). -/
def decode (w : CmdWord) : Except IllegalWord Instr :=
  if zeroField w = 0#5 then decodeOp w else .error .zeroNotZero

/-- The instruction the decoder reads from a table word: 32 bits, those from `nbits` up being 0. -/
def decodeTableWord (nbits w : Nat) : Option Instr :=
  match decode (BitVec.ofNat 32 (w % 2 ^ nbits)) with
  | .ok i => some i
  | .error _ => none

/-! ## The encoder -/

/-- `{op, zero, addr, data}` (rule R103). -/
def packWord (op : BitVec 4) (addr : Addr) (data : Byte) : CmdWord := op ++ 0#5 ++ addr ++ data

/-- `mode` as an operand byte: `HostDrives` is 0, `DeviceDrives` is 1 (rules R103, R121). -/
def modeByte : Direction → Byte
  | .hostDrives => 0#8
  | .deviceDrives => 1#8

/-- The `op` value of an operation (rule R107). -/
def Instr.op : Instr → BitVec 4
  | .seta _ => 0x1#4
  | .setd _ => 0x2#4
  | .dwr _ => 0x3#4
  | .drd => 0x4#4
  | .wrb _ _ => 0x5#4
  | .rdb _ => 0x6#4
  | .wait => 0x7#4
  | .sdpd => 0x8#4
  | .sdpe => 0x9#4

/-- The address operand, 0 in operations without one (rule R103). -/
def Instr.addrOperand : Instr → Addr
  | .seta a => a
  | .setd _ => 0#15
  | .dwr _ => 0#15
  | .drd => 0#15
  | .wrb a _ => a
  | .rdb a => a
  | .wait => 0#15
  | .sdpd => 0#15
  | .sdpe => 0#15

/-- The data operand, 0 in operations without one (rule R103). -/
def Instr.dataOperand : Instr → Byte
  | .seta _ => 0#8
  | .setd m => modeByte m
  | .dwr d => d
  | .drd => 0#8
  | .wrb _ d => d
  | .rdb _ => 0#8
  | .wait => 0#8
  | .sdpd => 0#8
  | .sdpe => 0#8

/-- The command word of an instruction. -/
def encode (i : Instr) : CmdWord := packWord i.op i.addrOperand i.dataOperand

/-! ## The opcode map as the spec prints it -/

/-- A row of rule R107: the `op` value, and the bits a word must have under the mask. -/
structure OpcodeRow where
  op : BitVec 4
  wanted : CmdWord
  mask : CmdWord
deriving DecidableEq, Repr

/-- The nine rows of rule R107. -/
def opcodeTable : List OpcodeRow :=
  [ ⟨0x1#4, 0x10000000#32, 0xFF8000FF#32⟩,
    ⟨0x2#4, 0x20000000#32, 0xFFFFFFFE#32⟩,
    ⟨0x3#4, 0x30000000#32, 0xFFFFFF00#32⟩,
    ⟨0x4#4, 0x40000000#32, 0xFFFFFFFF#32⟩,
    ⟨0x5#4, 0x50000000#32, 0xFF800000#32⟩,
    ⟨0x6#4, 0x60000000#32, 0xFF8000FF#32⟩,
    ⟨0x7#4, 0x70000000#32, 0xFFFFFFFF#32⟩,
    ⟨0x8#4, 0x80000000#32, 0xFFFFFFFF#32⟩,
    ⟨0x9#4, 0x90000000#32, 0xFFFFFFFF#32⟩ ]

/-- "A word `w` selects the row for which `(w & mask) == match`" (rule R107). -/
def OpcodeRow.selectedBy (r : OpcodeRow) (w : CmdWord) : Bool := (w &&& r.mask) == r.wanted

end Sys2Proof
end

