-- ==== Sys2Proof/Machine/State.lean ====
section
/-! DEFINITION. The state of the block, of the device behind its pins and of the outside world's inputs (10_state.md rules R20 to
R52, 20_memory.md rules R70, R71), as plain data; the reasons to stop; the state right after reset. -/

namespace Sys2Proof.Machine

/-- `ddir`: the direction of all eight data pins together (rule R30). -/
inductive PinDir where
  | inputs
  | outputs
deriving DecidableEq, Repr

/-- The pin events (rule R38). A level is `true` for 1. -/
inductive PinEvent where
  | ser (level : Bool)
  | sck (level : Bool)
  | rckL (level : Bool)
  | rckH (level : Bool)
  | oe (level : Bool)
  | we (level : Bool)
  | ddir (mode : PinDir)
  | dout (value : Byte)
  | sample (value : Byte)
deriving DecidableEq, Repr

/-- The device's bytes: (address, byte) pairs, addresses strictly rising, none equal to what an unlisted address reads as. -/
abbrev Memory := List Host.Cell

/-- `phase` of the device (20_memory.md rule R70). -/
inductive Phase where
  | idle
  | loading
  | programming
deriving DecidableEq, Repr

/-- What answers on the other side of the pins: the reference device of 20_memory.md section 4, or the unconstrained oracle that
stands for a dead or miswired device (rules R66, R85; log 14). -/
inductive DeviceKind where
  | reference
  | oracle
deriving DecidableEq, Repr

/-- The device's state (rule R70). -/
structure Device where
  /-- The stored bytes. -/
  mem : Memory
  /-- The protection latch; true: ordinary writes are blocked. -/
  sdp : Bool
  /-- The command-byte counter. -/
  cmd : Fin 6
  phase : Phase
  /-- At least one byte was stored since the device was last Idle. -/
  pending : Bool
  /-- Bit 7 of the last byte stored. -/
  last7 : Bool
  /-- Constant of a run: no step writes it. -/
  kind : DeviceKind
deriving DecidableEq, Repr

/-- What the outside world does in one slot between two pin events: the device's own steps (rule R84), the input
`deadline_expired` becoming 1 (rule R232), and the input `rst` (rule R260). -/
structure EnvSlot where
  windowElapse : Bool
  programDone : Bool
  deadline : Bool
  rst : Bool
deriving DecidableEq, Repr

/-- The whole machine. -/
structure State where
  /-- Shift stage of the low register (rule R20). -/
  sl : Byte
  /-- Shift stage of the high register (rules R20, R35). -/
  sh : Byte
  /-- Storage stage of the low register: address lines 0 to 7 (rule R20). -/
  ql : Byte
  /-- Storage stage of the high register: its bits 0 to 6 are address lines 8 to 14 (rule R20). -/
  qh : Byte
  /-- The sentinel: false while no high byte has been latched since reset (rule R25). -/
  lastHighValid : Bool
  /-- The cached high byte (rule R28). -/
  lastHigh : Byte
  /-- The cached DataDirection (rule R26). -/
  dir : Direction
  /-- Bit 7 of the last byte written (rule R27). -/
  pollBit : Bool
  /-- The data output register (rule R29). -/
  dout : Byte
  /-- Serial data into the chain (rule R30). -/
  ser : Bool
  /-- Serial shift clock (rule R30). -/
  sck : Bool
  /-- Latch line of the low register (rule R30). -/
  rckL : Bool
  /-- Latch line of the high register (rule R30). -/
  rckH : Bool
  /-- Output-enable of the device, active low (rule R30). -/
  oeN : Bool
  /-- Write-enable of the device, active low (rule R30). -/
  weN : Bool
  /-- Direction of the data pins (rule R30). -/
  ddir : PinDir
  /-- A command is in progress (rule R24). Between steps that command is a WAIT (log 1, 19). -/
  busy : Bool
  /-- In SDPD and SDPE: how many writes of the sequence are complete (rules R24, R201). -/
  sq : Fin 7
  /-- In WAIT: how many polls have mismatched (rules R24, R243). -/
  polls : Nat
  /-- `v` of WAIT's pseudocode: the last byte sampled, 0x00 before the first sample (rule R188). -/
  pollByte : Byte
  /-- The words the commander presents, in order; the head is on the command port (rules R101, R223; log 2). -/
  commander : List CmdWord
  /-- `rsp_valid` (rules R36, R102; log 9). -/
  rspValid : Bool
  /-- `rsp_word` (rules R36, R104). -/
  rspWord : RspWord
  /-- The input `deadline_expired` (rules R36, R232; log 10). -/
  deadlineExpired : Bool
  /-- The output trace, oldest event first (rules R14, R38). -/
  trace : List PinEvent
  /-- The device behind the pins (rule R70). -/
  dev : Device
  /-- The build parameters (rule R9); constant of a run: no step writes it (rule R31). -/
  build : Build
  /-- The environment slots already chosen, next one first (model's own; log 3). -/
  env : List EnvSlot
  /-- How many slots have been taken (model's own; log 32). -/
  tick : Nat
  /-- How many bytes have been drawn from the lines (model's own; log 32). -/
  draws : Nat
deriving DecidableEq, Repr

/-- Why the machine stops with a fault. The spec's own faults are responses (60_exceptions.md rule R236), not stops. -/
inductive Fault where
  /-- Raised by DRD, RDB and WAIT when they would sample the data lines while host and device both drive them
  (`ddir == Out`, `oe_n == 0`: "contention: both sides drive ... never reached", rule R37). Safe: the model stops (log 11). -/
  | busContention
deriving DecidableEq, Repr

/-- Why the machine gives an instruction no meaning. -/
inductive Refusal where
  /-- Raised by an arm of `exec` for an instruction without a meaning. Safe: the model stops. -/
  | notModelled (mnemonic : String)
  /-- Raised by DWR with `dir != HostDrives` in a build without `SAFETY_BUILD`: "The behaviour is unspecified and a model refuses
  it" (41_databus.md rule R166, U1). Safe: the model stops (log 15). -/
  | dwrWrongDirection
  /-- Raised by DRD with `dir != DeviceDrives` in a build without `SAFETY_BUILD`: "unspecified and a model refuses it"
  (41_databus.md rule R169, U2). Safe: the model stops (log 15). -/
  | drdWrongDirection
deriving DecidableEq, Repr

/-- A device at power-up (rule R71) with `SDP_INIT` and `MEM_INIT` as given (rule R11). -/
def Device.powerOn (sdpInit : Bool) (memInit : Memory) : Device :=
  { mem := memInit, sdp := sdpInit, cmd := 0, phase := .idle, pending := false,
    last7 := false, kind := .reference }

/-- The block right after reset (rules R46 to R51, R260) of a given build, before a given device. The registers that rules R49
and R50 leave unspecified are 0 (DESIGN CHOICE, log 4). -/
def State.powerOn (build : Build) (dev : Device) : State :=
  { sl := 0x00#8, sh := 0x00#8, ql := 0x00#8, qh := 0x00#8,
    lastHighValid := false, lastHigh := 0x00#8, dir := .deviceDrives, pollBit := false, dout := 0x00#8,
    ser := false, sck := false, rckL := false, rckH := false, oeN := false, weN := true, ddir := .inputs,
    busy := false, sq := 0, polls := 0, pollByte := 0x00#8,
    commander := [], rspValid := false, rspWord := 0x0000#16, deadlineExpired := false,
    trace := [], dev := dev, build := build, env := [], tick := 0, draws := 0 }

/-- The machine right after reset: the base design (log 7) before an unprotected device with nothing listed (log 5, 6). -/
def State.reset : State := State.powerOn Build.base (Device.powerOn false [])

end Sys2Proof.Machine
end

