-- ==== Sys2Proof/Machine/Memory.lean ====
section
/-! DEFINITION. The device's array of bytes (20_memory.md rule R60) as a list in one canonical form, and its read and write. -/

namespace Sys2Proof.Machine

/-- The canonical form from address `lo` up: addresses strictly rising and inside the device, no entry equal to what an unlisted
cell reads as. -/
def Memory.wfFrom : Nat → Memory → Bool
  | _, [] => true
  | lo, (a, v) :: rest =>
    decide (lo ≤ a) && decide (a < Config.memSize) && (v != Config.unlistedByte)
      && Memory.wfFrom (a + 1) rest

/-- The canonical form. -/
def Memory.wf (m : Memory) : Bool := Memory.wfFrom 0 m

/-- The byte stored at an address. -/
def Memory.read : Memory → Nat → Byte
  | [], _ => Config.unlistedByte
  | (b, v) :: rest, a => if b = a then v else Memory.read rest a

/-- The list with an entry for the address. -/
def Memory.put : Memory → Nat → Byte → Memory
  | [], a, v => [(a, v)]
  | (b, w) :: rest, a, v =>
    if a < b then (a, v) :: (b, w) :: rest
    else if a = b then (a, v) :: rest
    else (b, w) :: Memory.put rest a v

/-- The list without an entry for the address. -/
def Memory.erase : Memory → Nat → Memory
  | [], _ => []
  | (b, w) :: rest, a => if b = a then rest else (b, w) :: Memory.erase rest a

/-- Stores one byte, keeping the canonical form. -/
def Memory.write (m : Memory) (a : Nat) (v : Byte) : Memory :=
  if v = Config.unlistedByte then Memory.erase m a else Memory.put m a v

end Sys2Proof.Machine
end

