-- ==== Sys2Proof/Machine/Operands.lean ====
section
/-! DEFINITION. Operand forms and bit fields: the high and low parts of an address (00_scope.md rule R13), the address lines
(10_state.md rule R22), one shift of a stage (rule R38), the order of bits on the serial line (30_encoding.md rule R110), the
response word (rule R104). -/

namespace Sys2Proof.Machine

/-- `high(a) = zext_8(a[14:8])` (rule R13). -/
def highByte (a : Addr) : Byte := (a.extractLsb' 8 7).setWidth 8

/-- `low(a) = a[7:0]` (rule R13). -/
def lowByte (a : Addr) : Byte := a.extractLsb' 0 8

/-- `{QH[6:0], QL[7:0]}` (rule R22): `QH[7]` is connected to nothing. -/
def joinLines (qh ql : Byte) : Addr := qh.extractLsb' 0 7 ++ ql

/-- `{stage[6:0], bit}`: one place up, the new bit entering at bit 0 (rule R38). -/
def shiftIn (stage : Byte) (bit : Bool) : Byte := stage.extractLsb' 0 7 ++ BitVec.ofBool bit

/-- The bits of a byte "most-significant bit first" (rules R63, R142). -/
def msbFirst (v : Byte) : List Bool :=
  [v.getLsbD 7, v.getLsbD 6, v.getLsbD 5, v.getLsbD 4, v.getLsbD 3, v.getLsbD 2, v.getLsbD 1, v.getLsbD 0]

/-- The address lines the device sees (rule R22). -/
def State.addressLines (s : State) : Addr := joinLines s.qh s.ql

/-- `cmd_valid`: the commander presents a word (rule R36). -/
def State.cmdValid (s : State) : Bool := !s.commander.isEmpty

/-- `cmd_word`: the word presented, meaningful while `cmd_valid` (rule R36). -/
def State.cmdWord (s : State) : CmdWord := s.commander.headD 0#32

/-- `cmd_ready`: "equals `not busy`" (rule R36). -/
def State.cmdReady (s : State) : Bool := !s.busy

/-- The status of a response (60_exceptions.md rule R231). -/
inductive Status where
  | ok
  | timingViolation
  | busContentionRisk
  | unexpectedToggleBit
  | illegalCommand
deriving DecidableEq, Repr

/-- The codes of rule R231. -/
def statusCode : Status → BitVec 4
  | .ok => 0#4
  | .timingViolation => 1#4
  | .busContentionRisk => 2#4
  | .unexpectedToggleBit => 3#4
  | .illegalCommand => 4#4

/-- `{zero, status, data}` (rule R104). -/
def responseWord (st : Status) (data : Byte) : RspWord := 0#4 ++ statusCode st ++ data

end Sys2Proof.Machine
end

