-- ==== Sys2Proof/Machine/Device.lean ====
section
/-! DEFINITION. The device behind the pins: the reference device model of 20_memory.md section 4 (rules R70 to R76, R84), which is
the spec's own decision D24 (log 13). -/

namespace Sys2Proof.Machine

/-- One row of the command recogniser (rule R74): in counter state `before`, the pair `(addr, data)` leads to `after` and, where
it completes a sequence, sets the protection latch to `latch`. -/
structure RecogniserRow where
  before : Fin 6
  addr : Addr
  data : Byte
  after : Fin 6
  latch : Option Bool
deriving DecidableEq, Repr

/-- The first seven rows of rule R74's table. -/
def recogniserTable : List RecogniserRow :=
  [ ⟨0, 0x5555#15, 0xAA#8, 1, none⟩,
    ⟨1, 0x2AAA#15, 0x55#8, 2, none⟩,
    ⟨2, 0x5555#15, 0xA0#8, 0, some true⟩,
    ⟨2, 0x5555#15, 0x80#8, 3, none⟩,
    ⟨3, 0x5555#15, 0xAA#8, 4, none⟩,
    ⟨4, 0x2AAA#15, 0x55#8, 5, none⟩,
    ⟨5, 0x5555#15, 0x20#8, 0, some false⟩ ]

/-- Whether a row is the one for the counter and the pair. -/
def RecogniserRow.fits (r : RecogniserRow) (cmd : Fin 6) (a : Addr) (d : Byte) : Bool :=
  r.before == cmd && r.addr == a && r.data == d

/-- The counter after any other pair: "`cmd <- 1` if `(a, d) == (0x5555, 0xAA)`, else `cmd <- 0`" (rule R74, last row). -/
def otherPair (a : Addr) (d : Byte) : Fin 6 := if a == 0x5555#15 && d == 0xAA#8 then 1 else 0

/-- The command recogniser (rule R74). -/
def Device.recognise (dev : Device) (a : Addr) (d : Byte) : Device :=
  match recogniserTable.find? (fun r => r.fits dev.cmd a d) with
  | some r => { dev with cmd := r.after, sdp := r.latch.getD dev.sdp }
  | none => { dev with cmd := otherPair a d }

/-- The store rule (rule R73): the byte is stored exactly when the latch is off before the pulse. -/
def Device.store (dev : Device) (a : Addr) (d : Byte) : Device :=
  if dev.sdp then dev
  else { dev with mem := Memory.write dev.mem a.toNat d, pending := true, last7 := d.getLsbD 7 }

/-- `DevWritePulse()` (rules R67, R72 to R75): ignored while Programming; otherwise store (judged by the latch as it was),
recognise, and restart the window. -/
def Device.writePulse (dev : Device) (a : Addr) (d : Byte) : Device :=
  if dev.phase == .programming then dev
  else { (dev.store a d).recognise a d with phase := .loading }

/-- The read rule of the reference device (rule R76); `draw` numbers the free bits. -/
def Device.readReference (dev : Device) (a : Addr) (draw : Nat) : Byte :=
  if dev.pending && dev.phase != .idle then BitVec.ofBool (!dev.last7) ++ Config.busyBits draw
  else Memory.read dev.mem a.toNat

/-- `DevRead()` (rule R66): the byte the device drives on the data lines. -/
def Device.read (dev : Device) (a : Addr) (draw : Nat) : Byte :=
  match dev.kind with
  | .reference => dev.readReference a draw
  | .oracle => Config.oracleByte draw

/-- Effect of `WindowElapse` (rule R84). -/
def Device.windowElapse (dev : Device) : Device :=
  { dev with cmd := 0, phase := if dev.pending then .programming else .idle }

/-- Effect of `ProgramDone` (rule R84). -/
def Device.programDone (dev : Device) : Device := { dev with phase := .idle, pending := false }

/-- The device's own steps in one slot, each if chosen and enabled (rule R84). Between two pin events no other order matters:
nothing but a write pulse enables `WindowElapse`. -/
def Device.environment (dev : Device) (x : EnvSlot) : Device :=
  let elapsed := if dev.phase == .loading && x.windowElapse then dev.windowElapse else dev
  if elapsed.phase == .programming && x.programDone then elapsed.programDone else elapsed

end Sys2Proof.Machine
end

