-- ==== Sys2Proof/Machine/Flags.lean ====
section
/-! DEFINITION. The tests of the block (00_scope.md rule R13, 42_cyclecontroller.md rule R193): the skip test of SETA, the poll
compare and the poll limit of WAIT, and the poll bit a byte leaves. -/

namespace Sys2Proof.Machine

/-- The skip test: "compares the whole 8-bit `high` with the whole 8-bit `last_high`, and only when `last_high_valid == 1`"
(40_addressbus.md rule R145). -/
def skipsHigh (s : State) (a : Addr) : Bool := s.lastHighValid && s.lastHigh == highByte a

/-- `data[7]`, the bit `poll_bit` takes (41_databus.md rule R165). -/
def pollBitOf (data : Byte) : Bool := data.getLsbD 7

/-- `v[7] == poll_bit`: "Only bit 7 of the sample is compared" (42_cyclecontroller.md rule R188). -/
def pollMatches (v : Byte) (pollBit : Bool) : Bool := v.getLsbD 7 == pollBit

/-- `POLL_LIMIT == some L and polls >= L` (rule R188). -/
def pollLimitReached (limit : Option Nat) (polls : Nat) : Bool :=
  match limit with
  | none => false
  | some l => decide (l ≤ polls)

end Sys2Proof.Machine
end

