-- ==== Sys2Proof/Machine/Ops.lean ====
section
/-! DEFINITION. The shared operations: environment slots, pin events (10_state.md rule R38), reset (70_reset_and_hazards.md rules
R260, R262), responses and faults (60_exceptions.md rule R236), and the sequencing of an operation's pin events. -/

namespace Sys2Proof.Machine

/-! ## The outside world between two pin events -/

/-- Which gap slot `n` lies in, and how many slots of it are still to pass, where every gap ends with one chosen slot. -/
def countdown (gap : Nat → Nat) : Nat → Nat × Nat
  | 0 => (0, gap 0)
  | n + 1 =>
    match countdown gap n with
    | (i, 0) => (i + 1, gap (i + 1))
    | (i, k + 1) => (i, k)

/-- Slot `n` is a chosen one. Whatever the gaps, another chosen slot always follows; and every set of slots of which that is true is
the chosen ones of some gaps. -/
def comesAt (gap : Nat → Nat) (n : Nat) : Bool := (countdown gap n).2 == 0

/-- A slot the environment has not listed: its choices are free values. For a live device they are weakly fair, for a dead one they
are not (rule R85); a reset comes only where it is listed (log 3). -/
def freeSlot (kind : DeviceKind) (n : Nat) : EnvSlot :=
  { windowElapse := match kind with
      | .reference => comesAt Config.windowGap n
      | .oracle => Config.windowElapses n
    programDone := match kind with
      | .reference => comesAt Config.programGap n
      | .oracle => Config.programEnds n
    deadline := Config.deadlineComes n
    rst := false }

/-- The `k`-th slot from now. -/
def State.slotAt (s : State) (k : Nat) : EnvSlot := (s.env[k]?).getD (freeSlot s.dev.kind (s.tick + k))

/-- Takes one slot: the device's own steps happen, and `deadline_expired`, once 1, stays 1 (rules R84, R232). -/
def State.passTime (s : State) : State :=
  { s with
    dev := s.dev.environment (s.slotAt 0)
    deadlineExpired := s.deadlineExpired || (s.slotAt 0).deadline
    env := s.env.tail
    tick := s.tick + 1 }

/-- `n` slots, one after another. -/
def State.passTimes (s : State) : Nat → State
  | 0 => s
  | n + 1 => s.passTime.passTimes n

/-! ## The lines and the pin events -/

/-- Both sides drive the shared lines (rule R37, last row; rule R43). -/
def State.contended (s : State) : Bool := s.ddir == .outputs && !s.oeN

/-- The shared data lines `D` (rule R37). With nobody driving, or both, a free byte (log 11). -/
def State.dataLines (s : State) : Byte :=
  match s.ddir, s.oeN with
  | .outputs, true => s.dout
  | .inputs, false => s.dev.read s.addressLines s.draws
  | .inputs, true => Config.floatingByte s.draws
  | .outputs, false => Config.floatingByte s.draws

/-- What a pin event does (rule R38): rising edges of `sck`, `rck_l`, `rck_h` act (PRESUMED by the spec, D4; log 16); the device
reacts at the rising edge of `we_n` with the lines as they stand (rule R67; log 17). -/
def State.effect (s : State) : PinEvent → State
  | .ser level => { s with ser := level }
  | .sck level =>
    if !s.sck && level then
      { s with sck := level, sh := shiftIn s.sh (s.sl.getLsbD 7), sl := shiftIn s.sl s.ser }
    else { s with sck := level }
  | .rckL level => if !s.rckL && level then { s with rckL := level, ql := s.sl } else { s with rckL := level }
  | .rckH level => if !s.rckH && level then { s with rckH := level, qh := s.sh } else { s with rckH := level }
  | .oe level => { s with oeN := level }
  | .we level =>
    if !s.weN && level then
      { s with weN := level, dev := s.dev.writePulse s.addressLines s.dataLines, draws := s.draws + 1 }
    else { s with weN := level }
  | .ddir mode => { s with ddir := mode }
  | .dout value => { s with dout := value }
  | .sample _ => { s with draws := s.draws + 1 }

/-- One pin event: its effect, and its place at the end of the trace (rules R14, R38). -/
def State.pinEvent (s : State) (e : PinEvent) : State :=
  { s.effect e with trace := s.trace ++ [e] }

/-- Several pin events in order. -/
def State.pinEvents (s : State) : List PinEvent → State
  | [] => s
  | e :: es => (s.pinEvent e).pinEvents es

/-! ## Reset -/

/-- The pin writes of a reset, in the order of rule R262: `we_n`, then `ddir`, then `oe_n`, then the clock and latch lines fall. -/
def resetEvents : List PinEvent :=
  [.we true, .ddir .inputs, .oe false, .sck false, .rckL false, .rckH false, .ser false]

/-- Reset of a running block (rules R260, R262, R264): the pins in order (a write pulse that is open ends, and the device reacts to
it), the registers of rules R46 to R51; the chain is not cleared; the command in progress is dropped without a response; `last_high`,
`poll_bit` and `dout` are free values (log 8). The device is not reset (rule R52). -/
def State.resetBlock (s : State) : State :=
  { s.pinEvents resetEvents with
    lastHighValid := false
    lastHigh := Config.resetLastHigh s.tick
    dir := .deviceDrives
    pollBit := Config.resetPollBit s.tick
    dout := Config.resetDout s.tick
    busy := false
    sq := 0
    polls := 0
    pollByte := 0x00#8
    rspValid := false }

/-! ## Responses and faults -/

/-- The end of a command (rule R102): the response word is presented, `busy` cleared. -/
def State.respond (s : State) (st : Status) (data : Byte) : State :=
  { s with rspWord := responseWord st data, rspValid := true, busy := false }

/-- `raise X(info)` (rule R236): the response carries the fault's code and the info byte; "Nothing else happens: no state is saved
anywhere, no mode changes, control goes nowhere". There is no return from a fault (rule R238): the block is idle. -/
def State.raise (s : State) (st : Status) (info : Byte) : State := s.respond st info

/-! ## Operations as sequences of pin events -/

/-- How a piece of an operation ends. -/
inductive Res (α : Type) where
  /-- It ran to its end. -/
  | ok (a : α) (s : State)
  /-- It raised a fault of rule R231 with an info byte (rule R236). -/
  | raised (st : Status) (info : Byte) (s : State)
  /-- `rst` came: the block has been reset and the command is dropped (rule R260). -/
  | abandoned (s : State)
  /-- The model stops with a fault. -/
  | fault (f : Fault)
  /-- The model gives it no meaning. -/
  | refused (r : Refusal)

/-- A piece of an operation. -/
abbrev Op (α : Type) := State → Res α

/-- Ends at once. -/
def Op.done {α : Type} (a : α) : Op α := fun s => .ok a s

/-- One piece after another: "a fault it raises ends the whole command" (42_cyclecontroller.md rule R180). -/
def Op.andThen {α β : Type} (m : Op α) (k : α → Op β) : Op β := fun s =>
  match m s with
  | .ok a s' => k a s'
  | .raised st info s' => .raised st info s'
  | .abandoned s' => .abandoned s'
  | .fault f => .fault f
  | .refused r => .refused r

/-- Pieces without a result, in order (rules R14, R88, R180). -/
def inOrder : List (Op Unit) → Op Unit
  | [] => Op.done ()
  | m :: ms => Op.andThen m (fun _ => inOrder ms)

/-- Takes one slot before going on; a reset in it abandons the operation (rules R84, R260, R264). -/
def afterSlot {α : Type} (k : Op α) : Op α := fun s =>
  if (s.slotAt 0).rst then .abandoned s.passTime.resetBlock else k s.passTime

/-- A pin write (rule R14): one slot, then the event. -/
def emit (e : PinEvent) : Op Unit := afterSlot (fun s => .ok () (s.pinEvent e))

/-- A write of registers that are no pins. -/
def update (f : State → State) : Op Unit := fun s => .ok () (f s)

/-- `Delay(T)`: "it changes no state of the block"; the device's steps during it are in the slot before the next event (rule R14;
log 20). -/
def delay (_time : Nat) : Op Unit := Op.done ()

/-- `SAMPLE(v)`: the engine reads `D` (rules R38, R66). Under contention the model stops (log 11). -/
def sampleLines : Op Byte :=
  afterSlot (fun s =>
    if s.contended then .fault .busContention else .ok s.dataLines (s.pinEvent (.sample s.dataLines)))

/-- `raise X(info)` inside an operation (rule R14). -/
def raiseFault {α : Type} (st : Status) (info : Byte) : Op α := fun s => .raised st info s

/-- One look at `deadline_expired`, "consulted only when `DEADLINE_EN`" (rules R36, R232; log 10). -/
def lookDeadline : Op Bool := fun s =>
  if s.build.deadlineEn then afterSlot (fun s' => .ok s'.deadlineExpired s') s else .ok false s

/-! ## A command and its end -/

/-- Whether an operation is over. -/
inductive Progress where
  /-- `return v`. -/
  | finished (data : Byte)
  /-- WAIT polls on. -/
  | polling
deriving DecidableEq, Repr

/-- "an operation with no `return` ends with status `OK` and response data `0x00`" (rule R14). -/
def endsPlain (m : Op Unit) : Op Progress := Op.andThen m (fun _ => Op.done (.finished 0x00#8))

/-- `return v` (rule R14). -/
def endsWith (m : Op Byte) : Op Progress := Op.andThen m (fun v => Op.done (.finished v))

/-- Runs a command's operation from a state and gives the outcome of the step (rules R102, R236, R260). -/
def perform (m : Op Progress) (s : State) : Host.Outcome State Fault Refusal :=
  match m s with
  | .ok (.finished data) s' => .next (s'.respond .ok data)
  | .ok .polling s' => .next { s' with busy := true }
  | .raised st info s' => .next (s'.raise st info)
  | .abandoned s' => .next s'
  | .fault f => .fault f
  | .refused r => .refused r

/-! ## The command port (30_encoding.md rules R101, R102, R115) -/

/-- A word is accepted: it leaves the port, `busy` is set, the old response is withdrawn (log 9), and `deadline_expired` "is 0
when a command is accepted" (rule R232). -/
def State.accept (s : State) : State :=
  { s with commander := s.commander.tail, busy := true, rspValid := false, deadlineExpired := false }

/-- An illegal word "emits no pin event, changes no state of `10_state.md` other than `busy`, and is answered at once with status
`IllegalCommand` (code 4) and data `0x00`" (rules R115, R235). -/
def State.answerIllegal (s : State) : State := s.raise .illegalCommand 0x00#8

/-- No command is presented: time passes, all pins held (60_exceptions.md rule R244). -/
def State.idleSlot (s : State) : State :=
  if (s.slotAt 0).rst then s.passTime.resetBlock else s.passTime

end Sys2Proof.Machine
end

