-- ==== Sys2Proof/Machine/AddressBus.lean ====
section
/-! DEFINITION. AddressBus (40_addressbus.md): the shift and latch primitives and the operation SETA. -/

namespace Sys2Proof.Machine

/-- `ShiftBit(b)`: present one bit and pulse the clock once (rule R141). -/
def shiftBit (b : Bool) : Op Unit := inOrder [emit (.ser b), emit (.sck true), emit (.sck false)]

/-- `ShiftByte(v)`: eight `ShiftBit`, "most-significant bit first" (rule R142). -/
def shiftByte (v : Byte) : Op Unit := inOrder ((msbFirst v).map shiftBit)

/-- `LatchLow()` (rule R143). -/
def latchLow : Op Unit := inOrder [emit (.rckL true), emit (.rckL false)]

/-- `LatchHigh()` (rule R143). -/
def latchHigh : Op Unit := inOrder [emit (.rckH true), emit (.rckH false)]

/-- `last_high <- high; last_high_valid <- 1` (rule R144). -/
def cacheHigh (high : Byte) : Op Unit :=
  update (fun s => { s with lastHigh := high, lastHighValid := true })

/-- The skip path of SETA (rules R144, R147). -/
def setaSkip (a : Addr) : Op Unit := inOrder [shiftByte (lowByte a), latchLow]

/-- The full path of SETA (rules R144, R146): the high register is latched before the low one (D6; log 21). -/
def setaFull (a : Addr) : Op Unit :=
  inOrder [shiftByte (highByte a), shiftByte (lowByte a), latchHigh, latchLow, cacheHigh (highByte a)]

/-- `SETA addr` (rule R144). -/
def seta (a : Addr) : Op Unit := fun s => if skipsHigh s a then setaSkip a s else setaFull a s

/-- The command SETA (rule R144). -/
def execSeta (a : Addr) (s : State) : Host.Outcome State Fault Refusal := perform (endsPlain (seta a)) s

end Sys2Proof.Machine
end

