-- ==== Sys2Proof/Machine/DataBus.lean ====
section
/-! DEFINITION. DataBus (41_databus.md): the operations SETD, DWR, DRD. -/

namespace Sys2Proof.Machine

/-- `dir <- mode` (rule R161). -/
def cacheDirection (mode : Direction) : Op Unit := update (fun s => { s with dir := mode })

/-- The ordered turn of rule R161: the side that drives is silenced before the other is enabled. -/
def turnBus : Direction → Op Unit
  | .hostDrives => inOrder [emit (.oe true), emit (.ddir .outputs), cacheDirection .hostDrives]
  | .deviceDrives => inOrder [emit (.ddir .inputs), emit (.oe false), cacheDirection .deviceDrives]

/-- `SETD mode` (rule R161): "idempotent no-op if already in `mode`"; the test reads the cached `dir` (rule R162). -/
def setd (mode : Direction) : Op Unit := fun s => if s.dir = mode then .ok () s else turnBus mode s

/-- `poll_bit <- data[7]` (rule R165). -/
def recordPollBit (data : Byte) : Op Unit := update (fun s => { s with pollBit := pollBitOf data })

/-- A data-bus access in the wrong direction, tested "before any pin event or state change of the operation": a fault in a safety
build (rule R233), unspecified otherwise (rules R166, R169; log 15). -/
def wrongDirection {α : Type} (r : Refusal) : Op α := fun s =>
  if s.build.safetyBuild then .raised .busContentionRisk 0x00#8 s else .refused r

/-- `DWR data` (rule R165). -/
def dwr (data : Byte) : Op Unit := fun s =>
  if s.dir = .hostDrives then inOrder [emit (.dout data), recordPollBit data] s
  else wrongDirection .dwrWrongDirection s

/-- `DRD` (rule R168): samples the live lines; "DRD does not move the address lines" (rule R170). -/
def drd : Op Byte := fun s =>
  if s.dir = .deviceDrives then sampleLines s else wrongDirection .drdWrongDirection s

/-- The command SETD (rule R161). -/
def execSetd (mode : Direction) (s : State) : Host.Outcome State Fault Refusal :=
  perform (endsPlain (setd mode)) s

/-- The command DWR (rule R165). -/
def execDwr (data : Byte) (s : State) : Host.Outcome State Fault Refusal := perform (endsPlain (dwr data)) s

/-- The command DRD (rule R168). -/
def execDrd (s : State) : Host.Outcome State Fault Refusal := perform (endsWith drd) s

end Sys2Proof.Machine
end

