-- ==== Sys2Proof/Machine/CycleController.lean ====
section
/-! DEFINITION. CycleController (42_cyclecontroller.md): the operations WRB, RDB, WAIT. -/

namespace Sys2Proof.Machine

/-- The write-enable pulse: `WE(0); Delay(T_WP); WE(1)` (rules R182, R184). -/
def writeEnablePulse : Op Unit := inOrder [emit (.we false), delay Config.tWp, emit (.we true)]

/-- `WRB addr, data` (rule R182). -/
def wrb (a : Addr) (data : Byte) : Op Unit :=
  inOrder [seta a, setd .hostDrives, dwr data, writeEnablePulse]

/-- `RDB addr` (rule R185): the address is set before the direction is turned (rule R186). -/
def rdb (a : Addr) : Op Byte :=
  Op.andThen (inOrder [seta a, setd .deviceDrives]) (fun _ => drd)

/-- `polls <- 0; v <- 0x00` (rule R188). -/
def startPolling : Op Unit := update (fun s => { s with polls := 0, pollByte := 0x00#8 })

/-- What WAIT does with a sample (rule R188): a match ends it; a mismatch is counted, may exhaust the poll limit, and otherwise is
followed by `Delay(T_POLL)` and the next iteration. -/
def judgeSample (v : Byte) : Op Progress := fun s =>
  if pollMatches v s.pollBit then .ok (.finished 0x00#8) { s with pollByte := v }
  else if pollLimitReached s.build.pollLimit (s.polls + 1) then
    .raised .unexpectedToggleBit v { s with pollByte := v, polls := s.polls + 1 }
  else Op.andThen (delay Config.tPoll) (fun _ => Op.done .polling) { s with pollByte := v, polls := s.polls + 1 }

/-- One iteration of WAIT's loop (rules R188, R240): the deadline before the sample, the limit after it. -/
def pollOnce : Op Progress :=
  Op.andThen lookDeadline (fun expired s =>
    if expired then .raised .timingViolation s.pollByte s else Op.andThen drd judgeSample s)

/-- `WAIT` up to the end of its first iteration (rule R188); each later iteration is a step of its own (rule R189; log 19). -/
def wait : Op Progress :=
  Op.andThen (inOrder [setd .deviceDrives, startPolling]) (fun _ => pollOnce)

/-- The command WRB (rule R182). -/
def execWrb (a : Addr) (data : Byte) (s : State) : Host.Outcome State Fault Refusal :=
  perform (endsPlain (wrb a data)) s

/-- The command RDB (rule R185). -/
def execRdb (a : Addr) (s : State) : Host.Outcome State Fault Refusal := perform (endsWith (rdb a)) s

/-- The command WAIT, first iteration (rule R188). -/
def execWait (s : State) : Host.Outcome State Fault Refusal := perform wait s

/-- A WAIT in progress: the next iteration (rules R188, R189). -/
def continueWait (s : State) : Host.Outcome State Fault Refusal := perform pollOnce s

end Sys2Proof.Machine
end

