-- ==== Sys2Proof/Machine/ProtectionSequencer.lean ====
section
/-! DEFINITION. ProtectionSequencer (43_protectionsequencer.md): the operations SDPD, SDPE. -/

namespace Sys2Proof.Machine

/-- The disable sequence, six writes (rule R200). -/
def sdpDisableWrites : List (Addr × Byte) :=
  [(0x5555#15, 0xAA#8), (0x2AAA#15, 0x55#8), (0x5555#15, 0x80#8),
   (0x5555#15, 0xAA#8), (0x2AAA#15, 0x55#8), (0x5555#15, 0x20#8)]

/-- The enable sequence, three writes (rule R200). -/
def sdpEnableWrites : List (Addr × Byte) :=
  [(0x5555#15, 0xAA#8), (0x2AAA#15, 0x55#8), (0x5555#15, 0xA0#8)]

/-- `sq <- n` (rule R201). -/
def setSq (n : Fin 7) : Op Unit := update (fun s => { s with sq := n })

/-- The writes in order, `done` of them complete so far: "each step is one `WRB(address, data)`", then `sq` counts it (rule R201). -/
def issueWrites : Fin 7 → List (Addr × Byte) → Op Unit
  | _, [] => Op.done ()
  | done, (a, d) :: rest => inOrder [wrb a d, setSq (done + 1), issueWrites (done + 1) rest]

/-- The one look at the deadline, after the last write (rule R208): the info byte is the number of writes issued. -/
def sequenceDeadline (info : Byte) : Op Unit :=
  Op.andThen lookDeadline (fun expired => if expired then raiseFault .timingViolation info else Op.done ())

/-- `SDPD` (rule R202). -/
def sdpd : Op Unit := inOrder [setSq 0, issueWrites 0 sdpDisableWrites, sequenceDeadline 0x06#8]

/-- `SDPE` (rule R203). -/
def sdpe : Op Unit := inOrder [setSq 0, issueWrites 0 sdpEnableWrites, sequenceDeadline 0x03#8]

/-- The command SDPD (rule R202). -/
def execSdpd (s : State) : Host.Outcome State Fault Refusal := perform (endsPlain sdpd) s

/-- The command SDPE (rule R203). -/
def execSdpe (s : State) : Host.Outcome State Fault Refusal := perform (endsPlain sdpe) s

end Sys2Proof.Machine
end

