-- ==== Sys2Proof/Machine/Dispatch.lean ====
section
/-! DEFINITION. One arm per operation (30_encoding.md rule R100). -/

namespace Sys2Proof.Machine

def exec (i : Instr) (s : State) : Host.Outcome State Fault Refusal :=
  match i with
  | .seta a => Sys2Proof.Machine.execSeta a s
  | .setd m => Sys2Proof.Machine.execSetd m s
  | .dwr d => Sys2Proof.Machine.execDwr d s
  | .drd => Sys2Proof.Machine.execDrd s
  | .wrb a d => Sys2Proof.Machine.execWrb a d s
  | .rdb a => Sys2Proof.Machine.execRdb a s
  | .wait => Sys2Proof.Machine.execWait s
  | .sdpd => Sys2Proof.Machine.execSdpd s
  | .sdpe => Sys2Proof.Machine.execSdpe s

end Sys2Proof.Machine
end

