-- ==== Sys2Proof/Machine/Step.lean ====
section
/-! DEFINITION. One step of the machine: a poll of the WAIT in progress, or the acceptance and execution of the word on the command
port, or an idle slot (30_encoding.md rules R101, R102, R115; log 1). The block has no program counter and fetches nothing (10_state.md
rule R24); the word on the port is its next instruction. -/

namespace Sys2Proof.Machine

/-- One step. While `busy` no word is accepted (rule R101). DESIGN CHOICE (log 37): whether an idle block accepts a word while `rst`
is asserted is left open (rule R260 gives `cmd_ready = 1` and `busy = false` then, rule R101 lets acceptance set `busy`); here the word
is accepted without a look at `rst`, a reset in the command's first slot drops it, and a word that takes no slot is answered. -/
def step (s : State) : Host.Outcome State Fault Refusal :=
  if s.busy then continueWait s
  else
    match s.commander with
    | [] => .next s.idleSlot
    | w :: _ =>
      match decode w with
      | .ok i => exec i s.accept
      | .error _ => .next s.accept.answerIllegal

/-- The commander presents one more word, ahead of any other, to an idle block; a WAIT in progress is given up (log 24). -/
def State.withFetchWord (s : State) (nbits w : Nat) : State :=
  { s with commander := BitVec.ofNat 32 (w % 2 ^ nbits) :: s.commander, busy := false }

end Sys2Proof.Machine
end

