-- ==== Sys2Proof/Machine/Assembler.lean ====
section
/-! DEFINITION. How a programmer writes commands (30_encoding.md rules R120, R121, R123, R124), the expansions of the
pseudo-instructions (44_host_commands_and_diagnostics.md rules R215 to R219). Nothing here
is used by `step`: the commander issues the command words. -/

namespace Sys2Proof.Machine

/-! ## Expansions (rule R124) -/

/-- `RDB ((addr + i) mod 2^15)` for `i = 0, 1, ...` (rule R219). -/
def dumpReads (a : Nat) (n : Nat) : List Instr :=
  (List.range n).map (fun i => Instr.rdb (BitVec.ofNat 15 (a + i)))

/-- The commands a line stands for, its operands fitting (rules R216 to R219). -/
def expand : Source → List Instr
  | .seta a => [.seta (BitVec.ofNat 15 a)]
  | .setd m => [.setd m]
  | .dwr d => [.dwr (BitVec.ofNat 8 d)]
  | .drd => [.drd]
  | .wrb a d => [.wrb (BitVec.ofNat 15 a) (BitVec.ofNat 8 d)]
  | .rdb a => [.rdb (BitVec.ofNat 15 a)]
  | .wait => [.wait]
  | .sdpd => [.sdpd]
  | .sdpe => [.sdpe]
  | .write a d => [.wrb (BitVec.ofNat 15 a) (BitVec.ofNat 8 d), .wait]
  | .read a => [.rdb (BitVec.ofNat 15 a)]
  | .unlock => [.sdpd]
  | .lock => [.sdpe]
  | .dump a => dumpReads a Config.dumpLen

/-- The assembler on one line: refused, never truncated, where an operand does not fit (rule R123). -/
def assemble (line : Source) : Option (List CmdWord) :=
  if line.wellFormed then some ((expand line).map encode) else none

/-! ## The written form (rules R120, R121; log 29) -/

/-- A line up to its comment. -/
def beforeComment (line : List Char) : List Char := line.takeWhile (fun c => c != ';')

/-- Without the blanks at its start. -/
def skipBlanks (text : List Char) : List Char := text.dropWhile (fun c => c == ' ' || c == '\t')

/-- Without the blanks at both ends. -/
def trimBlanks (text : List Char) : List Char := (skipBlanks (skipBlanks text).reverse).reverse

/-- Digits that stand side by side: the first one, how many there are, and what the first is worth. -/
structure DigitRun where
  first : Char
  count : Nat
  worth : Nat
deriving DecidableEq, Repr

/-- The digits of rule R121's numbers, those above nine in either case. -/
def digitRuns : List DigitRun := [⟨'0', 10, 0⟩, ⟨'A', 6, 10⟩, ⟨'a', 6, 10⟩]

/-- A character's place in a run. -/
def DigitRun.place (r : DigitRun) (c : Char) : Nat := c.toNat - r.first.toNat

/-- A character belongs to a run. -/
def DigitRun.holds (r : DigitRun) (c : Char) : Bool := decide (r.first.toNat ≤ c.toNat) && decide (r.place c < r.count)

/-- What a digit is worth. -/
def digitValue (c : Char) : Option Nat := (digitRuns.find? (fun r => r.holds c)).map (fun r => r.worth + r.place c)

/-- Digits of a base, most significant first, after a value already read. -/
def digitsFrom (base : Nat) : Nat → List Char → Option Nat
  | n, [] => some n
  | n, c :: cs =>
    match digitValue c with
    | none => none
    | some d => if d < base then digitsFrom base (n * base + d) cs else none

/-- "Numbers are hexadecimal with the prefix `0x`, or decimal without a prefix" (rule R121). -/
def parseNumber (text : List Char) : Option Nat :=
  match trimBlanks text with
  | [] => none
  | '0' :: 'x' :: [] => none
  | '0' :: 'x' :: digits => digitsFrom 16 0 digits
  | digits => digitsFrom 10 0 digits

/-- `HostDrives` or `DeviceDrives` (rule R121). -/
def parseMode (text : List Char) : Option Direction :=
  if trimBlanks text = ['H', 'o', 's', 't', 'D', 'r', 'i', 'v', 'e', 's'] then some .hostDrives
  else if trimBlanks text = ['D', 'e', 'v', 'i', 'c', 'e', 'D', 'r', 'i', 'v', 'e', 's'] then some .deviceDrives
  else none

/-- A line with two numbers separated by a comma. -/
def parsePair (make : Nat → Nat → Source) (rest : List Char) : Option Source :=
  match parseNumber (rest.takeWhile (fun c => c != ',')), rest.dropWhile (fun c => c != ',') with
  | some a, _ :: second => (parseNumber second).map (make a)
  | _, _ => none

/-- A line without operands. -/
def parseBare (made : Source) (rest : List Char) : Option Source :=
  if trimBlanks rest = [] then some made else none

/-- One command or pseudo-instruction: the mnemonic in capitals, then its operands (rules R120, R124). -/
def parseCommand (text : List Char) : Option Source :=
  let blank := fun c => c == ' ' || c == '\t'
  let rest := text.dropWhile (fun c => !blank c)
  match text.takeWhile (fun c => !blank c) with
  | ['S', 'E', 'T', 'A'] => (parseNumber rest).map Source.seta
  | ['S', 'E', 'T', 'D'] => (parseMode rest).map Source.setd
  | ['D', 'W', 'R'] => (parseNumber rest).map Source.dwr
  | ['D', 'R', 'D'] => parseBare .drd rest
  | ['W', 'R', 'B'] => parsePair Source.wrb rest
  | ['R', 'D', 'B'] => (parseNumber rest).map Source.rdb
  | ['W', 'A', 'I', 'T'] => parseBare .wait rest
  | ['S', 'D', 'P', 'D'] => parseBare .sdpd rest
  | ['S', 'D', 'P', 'E'] => parseBare .sdpe rest
  | ['W', 'R', 'I', 'T', 'E'] => parsePair Source.write rest
  | ['R', 'E', 'A', 'D'] => (parseNumber rest).map Source.read
  | ['U', 'N', 'L', 'O', 'C', 'K'] => parseBare .unlock rest
  | ['L', 'O', 'C', 'K'] => parseBare .lock rest
  | ['D', 'U', 'M', 'P'] => (parseNumber rest).map Source.dump
  | _ => none

/-- A line of a program: nothing (blank or comment only), or one command. -/
def parseLine (line : List Char) : Option (List Source) :=
  match trimBlanks (beforeComment line) with
  | [] => some []
  | text => (parseCommand text).map (fun c => [c])

end Sys2Proof.Machine
end

