-- ==== Sys2Proof/Machine/Diagnostics.lean ====
section
/-! DEFINITION. Diagnostics as the commander of the block (44_host_commands_and_diagnostics.md rules R219, R220, R222): it presents the
reads of a DUMP one at a time, takes the byte of each response, and arranges the bytes in rows. The text form of a row is not in the
source. -/

namespace Sys2Proof.Machine

/-- The commander presents one word, ahead of any other. -/
def State.present (s : State) (w : CmdWord) : State := { s with commander := w :: s.commander }

/-- The byte of the response given, if its status is OK (30_encoding.md rule R104). -/
def State.answer (s : State) : Option Byte :=
  if s.rspValid && !s.busy && s.rspWord.extractLsb' 8 4 == 0#4 then some (s.rspWord.extractLsb' 0 8) else none

/-- The bytes of the responses to commands of one step each, "one command at a time", and the state after the last (rule R222); none
where a response is not OK or does not come. -/
def collect : List CmdWord → State → Option (List Byte × State)
  | [], s => some ([], s)
  | w :: ws, s =>
    match step (s.present w) with
    | .next t => t.answer.bind (fun v => (collect ws t).map (fun r => (v :: r.1, r.2)))
    | .fault _ => none
    | .refused _ => none

/-- `n` rows, each the offset of its first byte, "which is 16 more than the offset of row `r-1`", and 16 bytes (rule R220). -/
def dumpRows (base : Nat) (bytes : List Byte) : Nat → List (Nat × List Byte)
  | 0 => []
  | n + 1 =>
    (base, bytes.take Config.dumpRow) :: dumpRows (base + Config.dumpRow) (bytes.drop Config.dumpRow) n

/-- `DUMP addr`: the 16 rows of the bytes read by the 256 commands of rule R219, and the state after them (rule R220). The first
row's offset is `base`: whether it is absolute is left open (log 36). -/
def dump (base a : Nat) (s : State) : Option (List (Nat × List Byte) × State) :=
  (collect ((dumpReads a Config.dumpLen).map encode) s).map
    (fun r => (dumpRows base r.1 (Config.dumpLen / Config.dumpRow), r.2))

end Sys2Proof.Machine
end

