-- ==== Sys2Proof/Safety.lean ====
section
/-! DEFINITION. The terms claims are made in: premises on the environment's slots, the invariants of 10_state.md section 7, the
discipline of a trace, and the closed forms the rules give for the state after an operation. -/

namespace Sys2Proof.Machine

/-! ## Premises on the outside world -/

/-- No reset comes in the next `n` slots. -/
abbrev State.NoResetFor (s : State) (n : Nat) : Prop := ∀ k, k < n → (s.slotAt k).rst = false

/-- `WindowElapse` does not come in the next `n` slots. -/
abbrev State.NoElapseFor (s : State) (n : Nat) : Prop := ∀ k, k < n → (s.slotAt k).windowElapse = false

/-- No reset is listed at all. -/
abbrev State.NeverReset (s : State) : Prop := ∀ x ∈ s.env, x.rst = false

/-- Weak fairness of the device's own steps over the slots to come: each comes again and again, so that one that stays enabled occurs
(20_memory.md rule R85). -/
abbrev State.WeaklyFair (s : State) : Prop :=
  ∀ k, (∃ j, k ≤ j ∧ (s.slotAt j).windowElapse = true) ∧ (∃ j, k ≤ j ∧ (s.slotAt j).programDone = true)

/-! ## Invariants (10_state.md section 7) -/

/-- Rule R40: at every operation boundary the clock and latch lines are 0 and `we_n` is 1. -/
abbrev State.LinesIdle (s : State) : Prop :=
  s.sck = false ∧ s.rckL = false ∧ s.rckH = false ∧ s.weN = true

/-- Rule R41, and rule R42's `SL == QL`: what a valid cache says of the chain. -/
abbrev State.CacheTrue (s : State) : Prop :=
  s.lastHighValid = true → s.qh = s.lastHigh ∧ s.qh.getLsbD 7 = false ∧ s.sl = s.ql

/-- Rule R44: the cached direction agrees with the pins. -/
abbrev State.DirectionTrue (s : State) : Prop :=
  (s.dir = .hostDrives ↔ (s.ddir = .outputs ∧ s.oeN = true)) ∧
  (s.dir = .deviceDrives ↔ (s.ddir = .inputs ∧ s.oeN = false))

/-- A command in progress between steps is a WAIT, and it polls in DeviceDrives (42_cyclecontroller.md rule R188). -/
abbrev State.WaitTrue (s : State) : Prop := s.busy = true → s.dir = .deviceDrives

/-- What the device's state is at all times (from 20_memory.md rules R71 to R75, R84). -/
abbrev Device.Coherent (d : Device) : Prop :=
  (d.phase = .idle → d.pending = false ∧ d.cmd = 0) ∧ (d.phase = .programming → d.pending = true ∧ d.cmd = 0)

/-- The response word has a 0 in its `zero` field and a code of rule R231 in its `status` field (rule R104). -/
abbrev State.ResponseLegal (s : State) : Prop :=
  s.rspWord.extractLsb' 12 4 = 0#4 ∧ (s.rspWord.extractLsb' 8 4).toNat ≤ 4

/-- What holds when a command begins, a word just accepted or not. -/
abbrev State.Ready (s : State) : Prop :=
  s.LinesIdle ∧ s.CacheTrue ∧ s.DirectionTrue ∧ s.dev.Coherent ∧ Memory.wf s.dev.mem = true ∧ s.ResponseLegal

/-- The invariant of the machine between steps. -/
abbrev State.Inv (s : State) : Prop := s.Ready ∧ s.WaitTrue

/-- The values the spec gives the block and its pins for reset (rules R46 to R48, R51, R260). -/
abbrev State.AtReset (s : State) : Prop :=
  s.lastHighValid = false ∧ s.dir = .deviceDrives ∧ s.ddir = .inputs ∧ s.oeN = false ∧ s.weN = true ∧
  s.sck = false ∧ s.rckL = false ∧ s.rckH = false ∧ s.ser = false ∧
  s.busy = false ∧ s.sq = 0 ∧ s.polls = 0 ∧ s.cmdReady = true ∧ s.rspValid = false

/-! ## The discipline of a trace -/

/-- The events a step added. -/
def newEvents (s t : State) : List PinEvent := t.trace.drop s.trace.length

/-- Never `ddir == Out` and `oe_n == 0` together, at any instant along the events (rule R43). -/
def busSafeAlong : PinDir → Bool → List PinEvent → Bool
  | d, o, [] => !(d == .outputs && !o)
  | d, o, e :: es =>
    !(d == .outputs && !o) &&
      (match e with
       | .ddir m => busSafeAlong m o es
       | .oe v => busSafeAlong d v es
       | _ => busSafeAlong d o es)

/-- Every write pulse opens with the host driving the lines, and "no event other than `WE(1)` is emitted" while it is open
(rule R45). The arguments are `ddir`, `oe_n`, `we_n`. -/
def pulsesGuarded : PinDir → Bool → Bool → List PinEvent → Bool
  | _, _, w, [] => w
  | d, o, true, e :: es =>
    match e with
    | .we false => d == .outputs && o && pulsesGuarded d o false es
    | .ddir m => pulsesGuarded m o true es
    | .oe v => pulsesGuarded d v true es
    | _ => pulsesGuarded d o true es
  | d, o, false, e :: es =>
    match e with
    | .we true => pulsesGuarded d o true es
    | _ => false

/-! ## What the rules say an operation emits -/

/-- `Shift(b)` (rule R38). -/
def shiftEvents (b : Bool) : List PinEvent := [.ser b, .sck true, .sck false]

/-- `LatchL` (rule R38). -/
def latchLowEvents : List PinEvent := [.rckL true, .rckL false]

/-- `LatchH` (rule R38). -/
def latchHighEvents : List PinEvent := [.rckH true, .rckH false]

/-- The bits of the 16-bit frame in the order sent: 0, then `addr[14]` down to `addr[0]` (30_encoding.md rule R110). -/
def frame16 (a : Addr) : List Bool := false :: (List.range 15).map (fun i => a.getLsbD (14 - i))

/-- The bits of the 8-bit frame in the order sent: `addr[7]` down to `addr[0]` (rule R111). -/
def frame8 (a : Addr) : List Bool := (List.range 8).map (fun i => a.getLsbD (7 - i))

/-- What SETA emits (rules R110, R111, R144). -/
def setaEvents (s : State) (a : Addr) : List PinEvent :=
  if skipsHigh s a then (frame8 a).flatMap shiftEvents ++ latchLowEvents
  else (frame16 a).flatMap shiftEvents ++ latchHighEvents ++ latchLowEvents

/-- How many pin events SETA emits (rule R148). -/
def setaCost (s : State) (a : Addr) : Nat := if skipsHigh s a then 26 else 52

/-- What SETD emits (rule R161). -/
def setdEvents (s : State) (m : Direction) : List PinEvent :=
  if s.dir = m then []
  else match m with
    | .hostDrives => [.oe true, .ddir .outputs]
    | .deviceDrives => [.ddir .inputs, .oe false]

/-- How many pin events SETD emits (rule R285). -/
def setdCost (s : State) (m : Direction) : Nat := if s.dir = m then 0 else 2

/-- What WRB emits (rule R182). -/
def wrbEvents (s : State) (a : Addr) (d : Byte) : List PinEvent :=
  setaEvents s a ++ setdEvents s .hostDrives ++ [.dout d, .we false, .we true]

/-- How many pin events WRB emits (rule R285). -/
def wrbCost (s : State) (a : Addr) : Nat := setaCost s a + setdCost s .hostDrives + 3

/-! ## The state the rules give after an operation, the passing of time aside -/

/-- After SETA on the skip path (rules R144, R147, R35). -/
def State.afterSetaSkip (s : State) (a : Addr) : State :=
  { s with
    ser := a.getLsbD 0
    sl := lowByte a
    sh := s.sl
    ql := lowByte a
    trace := s.trace ++ setaEvents s a }

/-- After SETA on the full path (rules R144, R146). -/
def State.afterSetaFull (s : State) (a : Addr) : State :=
  { s with
    ser := a.getLsbD 0
    sl := lowByte a
    sh := highByte a
    ql := lowByte a
    qh := highByte a
    lastHigh := highByte a
    lastHighValid := true
    trace := s.trace ++ setaEvents s a }

/-- After SETA (rule R144). -/
def State.afterSeta (s : State) (a : Addr) : State :=
  if skipsHigh s a then s.afterSetaSkip a else s.afterSetaFull a

/-- After SETD (rule R161). -/
def State.afterSetd (s : State) (m : Direction) : State :=
  if s.dir = m then s
  else match m with
    | .hostDrives =>
      { s with oeN := true, ddir := .outputs, dir := .hostDrives, trace := s.trace ++ setdEvents s m }
    | .deviceDrives =>
      { s with ddir := .inputs, oeN := false, dir := .deviceDrives, trace := s.trace ++ setdEvents s m }

/-- After DWR with the host driving (rule R165). -/
def State.afterDwr (s : State) (d : Byte) : State :=
  { s with dout := d, pollBit := d.getLsbD 7, trace := s.trace ++ [.dout d] }

/-- After SETA and SETD: the part RDB and WRB share. -/
def State.afterAddressing (s : State) (a : Addr) (m : Direction) : State := (s.afterSeta a).afterSetd m

/-- After the write pulse that delivers `(a, d)` to the device (rules R67, R182, R184). -/
def State.afterPulse (s : State) (a : Addr) (d : Byte) : State :=
  { s with
    dev := s.dev.writePulse a d
    draws := s.draws + 1
    trace := s.trace ++ [.we false, .we true] }

/-- After WRB (rule R182): the device reacts last, its own steps before that taken in the slots of the events. -/
def State.afterWrb (s : State) (a : Addr) (d : Byte) : State :=
  ((((s.passTimes (wrbCost s a)).afterAddressing a .hostDrives).afterDwr d).afterPulse a d)

/-- After DRD has sampled `v` (rule R168). -/
def State.afterSample (s : State) (v : Byte) : State :=
  { s with draws := s.draws + 1, trace := s.trace ++ [.sample v] }

/-- After the writes of an SDP sequence, `done` of them complete before (rule R201). -/
def State.afterWrites (s : State) : Fin 7 → List (Addr × Byte) → State
  | _, [] => s
  | done, (a, d) :: rest =>
    State.afterWrites { s.afterWrb a d with sq := done + 1 } (done + 1) rest

/-- How many pin events those writes emit. -/
def writesCost (s : State) : List (Addr × Byte) → Nat
  | [] => 0
  | (a, d) :: rest => wrbCost s a + writesCost (s.afterWrb a d) rest

/-- WAIT before its first iteration: SETD, then `polls <- 0; v <- 0x00` (rule R188). -/
def State.waitStart (s : State) : State :=
  { s.afterSetd .deviceDrives with polls := 0, pollByte := 0x00#8 }

/-- The slots one look at the deadline takes: none in a build that does not consult it (rules R9, R232). -/
def lookCost (s : State) : Nat := if s.build.deadlineEn then 1 else 0

/-- The slots one iteration of a WAIT in progress takes: the sample is not taken where the look before it finds the deadline expired
(rules R188, R240). -/
def pollSlots (s : State) : Nat :=
  lookCost s + (if s.build.deadlineEn && s.passTime.deadlineExpired then 0 else 1)

/-- The slots a command takes where no reset comes, WAIT up to the end of its first iteration. -/
def slotsOf (s : State) : Instr → Nat
  | .seta a => setaCost s a
  | .setd m => setdCost s m
  | .dwr _ => if s.dir = .hostDrives then 1 else 0
  | .drd => if s.dir = .deviceDrives then 1 else 0
  | .wrb a _ => wrbCost s a
  | .rdb a => setaCost s a + setdCost s .deviceDrives + 1
  | .wait => setdCost s .deviceDrives + pollSlots (s.passTimes (setdCost s .deviceDrives))
  | .sdpd => writesCost s sdpDisableWrites + lookCost s
  | .sdpe => writesCost s sdpEnableWrites + lookCost s

/-- How many slots are taken before the first write pulse of a sequence ends. -/
def firstPulse (s : State) : List (Addr × Byte) → Nat
  | [] => 0
  | (a, _) :: _ => wrbCost s a

/-- The device as the first write pulse of a sequence finds it. -/
def State.deviceAtFirstPulse (s : State) (ws : List (Addr × Byte)) : Device := (s.passTimes (firstPulse s ws)).dev

/-- The premise `SeqInWindow`: "no `WindowElapse` occurs between the first and the last write pulse of one SDPD or SDPE" (20_memory.md
rule R85). -/
abbrev State.SeqInWindow (s : State) (ws : List (Addr × Byte)) : Prop :=
  ∀ k, k < writesCost s ws → firstPulse s ws ≤ k → (s.slotAt k).windowElapse = false

/-- The outcome of the look at the deadline that ends SDPD and SDPE (rule R208): the fault with the number of writes, or OK. -/
def State.afterSequence (s : State) (info : Byte) : State :=
  if s.build.deadlineEn then
    if s.passTime.deadlineExpired then s.passTime.raise .timingViolation info
    else s.passTime.respond .ok 0x00#8
  else s.respond .ok 0x00#8

/-! ## Running a WAIT -/

/-- Every sample taken between two states has a bit 7 other than the `poll_bit` (rules R189, R234). -/
abbrev State.SamplesMismatch (s t : State) : Prop := ∀ v, .sample v ∈ newEvents s t → v.getLsbD 7 ≠ s.pollBit

/-- Conditions (a) and (b) of rule R191: the byte of the last DWR was stored and is still being written, or is written, and the
address lines still point at its cell. -/
abbrev State.WriteObserved (s : State) : Prop :=
  s.dev.kind = .reference ∧ s.dev.last7 = s.pollBit ∧
  (Memory.read s.dev.mem s.addressLines.toNat).getLsbD 7 = s.pollBit

/-- A WAIT begun in `s` and then polled at most `n` more times, stopping when it has given its response (rules R188, R223). -/
def pollOn : Nat → State → Host.Outcome State Fault Refusal
  | 0, s => .next s
  | n + 1, s =>
    if s.busy then
      match step s with
      | .next s' => pollOn n s'
      | .fault f => .fault f
      | .refused r => .refused r
    else .next s

/-- WAIT with its first iteration and at most `n` more. -/
def waitFor (n : Nat) (s : State) : Host.Outcome State Fault Refusal :=
  match exec .wait s with
  | .next s' => pollOn n s'
  | .fault f => .fault f
  | .refused r => .refused r

end Sys2Proof.Machine
end

