-- ==== Sys2Proof/Certificates/Slice0/Obligations.lean ====
section
/-! DEFINITION. The statements for the provers. Each docstring names the rules of the spec it formalises. A premise `NoResetFor n`
says that no reset is asserted in the next `n` environment slots (a reset abandons a command, rule R260). -/

open Sys2Proof Sys2Proof.Machine

/-! ## Encoding -/

/-- Every instruction's word decodes to it, whatever its operands (30_encoding.md rules R103, R106, R107). -/
def Obligations.DecodeOfEncodeIsTheInstruction : Prop :=
  ∀ i : Instr, decode (encode i) = .ok i

/-- A word that decodes is the word of the instruction it decodes to: each legal word has one meaning (rules R103, R107). -/
def Obligations.EncodeOfDecodedWordIsTheWord : Prop :=
  ∀ (w : CmdWord) (i : Instr), decode w = .ok i → encode i = w

/-- Rule R107: a word that selects a row decodes to that row's operation with the word's own operand fields; at most one row is
selected; a word that selects no row is illegal. -/
def Obligations.DecoderFollowsTheOpcodeMap : Prop :=
  (∀ (w : CmdWord) (r : OpcodeRow), r ∈ opcodeTable → r.selectedBy w = true →
    ∃ i, decode w = .ok i ∧ i.op = r.op ∧ i.addrOperand = addrField w ∧ i.dataOperand = dataField w) ∧
  (∀ (w : CmdWord) (r q : OpcodeRow), r ∈ opcodeTable → q ∈ opcodeTable →
    r.selectedBy w = true → q.selectedBy w = true → r = q) ∧
  (∀ w : CmdWord, (∀ r ∈ opcodeTable, r.selectedBy w = false) → ∃ e, decode w = .error e)

/-- Words written out in 95_test_vectors.md part 2, family E, and rule R107. -/
def Obligations.WordsOfTheSpecDecode : Prop :=
  decode 0x1001FF00#32 = .ok (.seta 0x01FF#15) ∧ decode 0x20000001#32 = .ok (.setd .deviceDrives) ∧
  decode 0x300000A5#32 = .ok (.dwr 0xA5#8) ∧ decode 0x50123442#32 = .ok (.wrb 0x1234#15 0x42#8) ∧
  decode 0x60123400#32 = .ok (.rdb 0x1234#15) ∧ decode 0x80000000#32 = .ok .sdpd ∧
  decode 0x58000000#32 = .error .zeroNotZero ∧ decode 0x20000002#32 = .error .operandNotZero ∧
  decode 0xA0000000#32 = .error .unusedOp

/-- Rule R115: which words are illegal, and that an illegal word on the port of an idle block is taken and answered at once with
status 4 and data 0x00 and nothing else: no pin event, no other state. -/
def Obligations.IllegalWordsAnswerIllegalCommand : Prop :=
  (∀ w : CmdWord, (∃ e, decode w = .error e) ↔
    (zeroField w ≠ 0#5 ∨ opField w = 0x0#4 ∨ 0xA#4 ≤ opField w ∨
     ((opField w = 0x1#4 ∨ opField w = 0x6#4) ∧ dataField w ≠ 0#8) ∨
     (opField w = 0x2#4 ∧ (addrField w ≠ 0#15 ∨ dataHighField w ≠ 0#7)) ∨
     (opField w = 0x3#4 ∧ addrField w ≠ 0#15) ∨
     ((opField w = 0x4#4 ∨ opField w = 0x7#4 ∨ opField w = 0x8#4 ∨ opField w = 0x9#4) ∧
       (addrField w ≠ 0#15 ∨ dataField w ≠ 0#8)))) ∧
  (∀ (s : State) (w : CmdWord) (rest : List CmdWord) (e : IllegalWord),
    s.busy = false → s.commander = w :: rest → decode w = .error e →
    step s = .next { s with
      commander := rest, rspValid := true, rspWord := 0x0400#16, deadlineExpired := false })

/-! ## A step -/

/-- A step runs the decoded command: the word leaves the port, `busy` is set, the old response is withdrawn (log 9),
`deadline_expired` is 0, and the step is that command's `exec` (rules R101, R102, R232), without a look at `rst` first (log 37). From a
state of the invariant the command begins in a state that is `Ready`, the premise of the statements about `exec`. -/
def Obligations.StepRunsTheAcceptedCommand : Prop :=
  ∀ (s : State) (i : Instr) (rest : List CmdWord),
    s.busy = false → s.commander = encode i :: rest → decode (encode i) = .ok i →
    step s = exec i { s with commander := rest, busy := true, rspValid := false, deadlineExpired := false } ∧
    (s.Inv → ({ s with commander := rest, busy := true, rspValid := false, deadlineExpired := false } : State).Ready)

/-- While a command is in progress, what the commander presents is not accepted and has no effect: the step is the same whatever
words are presented, and they stay where they are (rule R101; a command still in progress between steps is a WAIT, log 19). -/
def Obligations.NoWordIsAcceptedWhileBusy : Prop :=
  ∀ (s t : State) (ws : List CmdWord), s.busy = true → step s = .next t →
    t.commander = s.commander ∧ step { s with commander := ws } = .next { t with commander := ws }

/-- An idle block with no command presented holds all its pins and registers; only the outside world moves (rules R84, R244). That the
response stays presented and that `deadline_expired`, once 1, stays 1 between commands are the model's choices (log 9, log 10). -/
def Obligations.IdleBlockHoldsItsPins : Prop :=
  ∀ s : State, s.busy = false → s.commander = [] → s.NoResetFor 1 →
    step s = .next { s with
      dev := s.dev.environment (s.slotAt 0)
      deadlineExpired := s.deadlineExpired || (s.slotAt 0).deadline
      env := s.env.tail
      tick := s.tick + 1 }

/-! ## AddressBus -/

/-- Rules R144, R110, R111: on the skip path 8 bits are shifted and the low register latched, `SH` taking the old `SL`; otherwise 16
bits are shifted, both registers are latched and the high byte cached. Nothing else of the block changes; every build. -/
def Obligations.SetaShiftsAndLatchesByTheCachingRule : Prop :=
  (∀ (s : State) (a : Addr), s.LinesIdle → s.lastHighValid = true → s.lastHigh = highByte a → s.NoResetFor 26 →
    exec (.seta a) s = .next (State.respond
      { s.passTimes 26 with
        ser := a.getLsbD 0, sl := lowByte a, sh := s.sl, ql := lowByte a
        trace := s.trace ++ (frame8 a).flatMap shiftEvents ++ latchLowEvents } .ok 0x00#8)) ∧
  (∀ (s : State) (a : Addr), s.LinesIdle → (s.lastHighValid = false ∨ s.lastHigh ≠ highByte a) → s.NoResetFor 52 →
    exec (.seta a) s = .next (State.respond
      { s.passTimes 52 with
        ser := a.getLsbD 0, sl := lowByte a, sh := highByte a, ql := lowByte a, qh := highByte a
        lastHigh := highByte a, lastHighValid := true
        trace := s.trace ++ (frame16 a).flatMap shiftEvents ++ latchHighEvents ++ latchLowEvents } .ok 0x00#8))

/-- From rule R42: after SETA, WRB, RDB, SDPD or SDPE the address lines carry the operand of the last SETA in it and `SL == QL == low`;
every other command leaves chain and lines alone. -/
def Obligations.AddressLinesCarryTheLastOperand : Prop :=
  (∀ (s t : State) (a : Addr) (d : Byte), s.Ready → s.NeverReset →
    (exec (.seta a) s = .next t ∨ exec (.wrb a d) s = .next t ∨ exec (.rdb a) s = .next t) →
    t.addressLines = a ∧ t.sl = lowByte a ∧ t.ql = lowByte a) ∧
  (∀ s t : State, s.Ready → s.NeverReset → (exec .sdpd s = .next t ∨ exec .sdpe s = .next t) →
    t.addressLines = 0x5555#15 ∧ t.sl = 0x55#8 ∧ t.ql = 0x55#8) ∧
  (∀ (s t : State) (m : Direction) (d : Byte), s.NeverReset →
    (exec (.setd m) s = .next t ∨ exec (.dwr d) s = .next t ∨ exec .drd s = .next t ∨ exec .wait s = .next t ∨
      (s.busy = true ∧ step s = .next t)) →
    t.addressLines = s.addressLines ∧ t.sl = s.sl ∧ t.sh = s.sh ∧ t.ql = s.ql ∧ t.qh = s.qh)

/-! ## DataBus -/

/-- Rule R161: a no-op in the mode already cached; otherwise the two pin events in the order that silences the driver first, and
the cache. Nothing else of the block changes; every build. -/
def Obligations.SetdTurnsTheBusInOrder : Prop :=
  (∀ (s : State) (m : Direction), s.dir = m → exec (.setd m) s = .next (s.respond .ok 0x00#8)) ∧
  (∀ s : State, s.dir = .deviceDrives → s.NoResetFor 2 →
    exec (.setd .hostDrives) s = .next (State.respond
      { s.passTimes 2 with
        oeN := true, ddir := .outputs, dir := .hostDrives
        trace := s.trace ++ [.oe true, .ddir .outputs] } .ok 0x00#8)) ∧
  (∀ s : State, s.dir = .hostDrives → s.NoResetFor 2 →
    exec (.setd .deviceDrives) s = .next (State.respond
      { s.passTimes 2 with
        ddir := .inputs, oeN := false, dir := .deviceDrives
        trace := s.trace ++ [.ddir .inputs, .oe false] } .ok 0x00#8))

/-- Rule R165 (with R166): with the host driving, DWR writes the output register and records bit 7, and nothing else of the block;
otherwise a safety build raises BusContentionRisk with nothing changed, and the base build refuses. -/
def Obligations.DwrDrivesTheByteAndRecordsItsTopBit : Prop :=
  (∀ (s : State) (d : Byte), s.dir = .hostDrives → s.NoResetFor 1 →
    exec (.dwr d) s = .next (State.respond
      { s.passTimes 1 with
        dout := d, pollBit := d.getLsbD 7, trace := s.trace ++ [.dout d] } .ok 0x00#8)) ∧
  (∀ (s : State) (d : Byte), s.dir ≠ .hostDrives → s.build.safetyBuild = true →
    exec (.dwr d) s = .next (s.respond .busContentionRisk 0x00#8)) ∧
  (∀ (s : State) (d : Byte), s.dir ≠ .hostDrives → s.build.safetyBuild = false →
    exec (.dwr d) s = .refused .dwrWrongDirection)

/-- Rule R168 (with R169): with the device driving, DRD returns the byte on the lines at the sample and writes nothing of the
block; otherwise a safety build raises BusContentionRisk with nothing changed, and the base build refuses. -/
def Obligations.DrdReturnsTheLiveByte : Prop :=
  (∀ (s : State) (v : Byte), s.dir = .deviceDrives → s.ddir = .inputs → s.oeN = false → s.NoResetFor 1 →
    v = (s.passTimes 1).dev.read s.addressLines s.draws →
    exec .drd s = .next (State.respond
      { s.passTimes 1 with draws := s.draws + 1, trace := s.trace ++ [.sample v] } .ok v)) ∧
  (∀ s : State, s.dir ≠ .deviceDrives → s.build.safetyBuild = true →
    exec .drd s = .next (s.respond .busContentionRisk 0x00#8)) ∧
  (∀ s : State, s.dir ≠ .deviceDrives → s.build.safetyBuild = false →
    exec .drd s = .refused .drdWrongDirection)

/-! ## CycleController -/

/-- Rule R182: between operations WRB ends with status OK in every build; SETA, SETD HostDrives and DWR have had their effects, and
the device has reacted to one pulse with `(A, D) = (addr, data)`. -/
def Obligations.WrbDeliversOneByteToTheDevice : Prop :=
  ∀ (s : State) (a : Addr) (d : Byte), s.LinesIdle → s.DirectionTrue → s.CacheTrue → s.NoResetFor (wrbCost s a) →
    exec (.wrb a d) s = .next (State.respond
      { (s.passTimes (wrbCost s a)).afterAddressing a .hostDrives with
        dout := d, pollBit := d.getLsbD 7
        dev := (s.passTimes (wrbCost s a)).dev.writePulse a d
        draws := s.draws + 1
        trace := s.trace ++ wrbEvents s a d } .ok 0x00#8)

/-- Rule R185: between operations RDB ends with status OK in every build and returns what the device drives for the address. -/
def Obligations.RdbReturnsWhatTheDeviceDrives : Prop :=
  ∀ (s : State) (a : Addr) (n : Nat) (v : Byte), s.LinesIdle → s.DirectionTrue → s.CacheTrue →
    n = setaCost s a + setdCost s .deviceDrives + 1 → s.NoResetFor n →
    v = (s.passTimes n).dev.read a s.draws →
    exec (.rdb a) s = .next (State.respond
      { (s.passTimes n).afterAddressing a .deviceDrives with
        draws := s.draws + 1
        trace := s.trace ++ setaEvents s a ++ setdEvents s .deviceDrives ++ [.sample v] } .ok v)

/-- From rule R188: if the first sample's bit 7 equals `poll_bit` (and no deadline has expired), WAIT ends with status OK after that
one sample, `polls == 0`, with the bus turned to the device and nothing else of the block changed. -/
def Obligations.WaitEndsAtAMatchingFirstSample : Prop :=
  ∀ (s : State) (n : Nat) (v : Byte), s.DirectionTrue →
    n = setdCost s .deviceDrives + lookCost s + 1 → s.NoResetFor n →
    (s.build.deadlineEn = true → (s.passTimes (setdCost s .deviceDrives + 1)).deadlineExpired = false) →
    v = (s.passTimes n).dev.read s.addressLines s.draws → v.getLsbD 7 = s.pollBit →
    exec .wait s = .next (State.respond
      { (s.passTimes n).afterSetd .deviceDrives with
        polls := 0, pollByte := v, draws := s.draws + 1
        trace := s.trace ++ setdEvents s .deviceDrives ++ [.sample v] } .ok 0x00#8)

/-- From rules R188, R240, one iteration of a WAIT in progress: the deadline is tested before the sample; then a matching sample ends
it with OK; then a mismatch is counted and, at the limit, raises UnexpectedToggleBit; otherwise WAIT polls on. -/
def Obligations.PollIterationFollowsTheLoop : Prop :=
  (∀ s : State, s.busy = true → s.build.deadlineEn = true → s.NoResetFor 1 → s.passTime.deadlineExpired = true →
    step s = .next (s.passTime.respond .timingViolation s.pollByte)) ∧
  (∀ (s m : State) (v : Byte), s.busy = true → s.dir = .deviceDrives → s.DirectionTrue →
    s.NoResetFor (lookCost s + 1) → (s.build.deadlineEn = true → s.passTime.deadlineExpired = false) →
    m = s.passTimes (lookCost s + 1) → v = m.dev.read s.addressLines s.draws →
    (v.getLsbD 7 = s.pollBit →
      step s = .next (State.respond { m.afterSample v with pollByte := v } .ok 0x00#8)) ∧
    (v.getLsbD 7 ≠ s.pollBit → (∃ l, s.build.pollLimit = some l ∧ l ≤ s.polls + 1) →
      step s = .next (State.respond { m.afterSample v with pollByte := v, polls := s.polls + 1 } .unexpectedToggleBit v)) ∧
    (v.getLsbD 7 ≠ s.pollBit → (∀ l, s.build.pollLimit = some l → s.polls + 1 < l) →
      step s = .next { m.afterSample v with pollByte := v, polls := s.polls + 1 }))

/-- Rule R189: in a build without bounds a WAIT no sample of which matches never ends: after any number of polls it is still in
progress, neither final nor a fault, whatever device answers. -/
def Obligations.UnboundedWaitNeverEnds : Prop :=
  ∀ (n : Nat) (s : State), s.DirectionTrue → s.NeverReset → s.build.pollLimit = none → s.build.deadlineEn = false →
    ∃ t, waitFor n s = .next t ∧
      (s.SamplesMismatch t → t.busy = true ∧ t.cmdReady = false ∧ t.polls = n + 1 ∧ t.rspValid = s.rspValid)

/-- From rule R234: with `POLL_LIMIT = some L`, here `L = l + 1`, a WAIT ends within `L` polls; if all of its samples mismatch it has taken
exactly `L` of them and raises UnexpectedToggleBit with the last one, whatever device answers. -/
def Obligations.PollLimitRaisesUnexpectedToggleBit : Prop :=
  ∀ (l : Nat) (s : State), s.DirectionTrue → s.NeverReset → s.build.pollLimit = some (l + 1) →
    s.build.deadlineEn = false →
    ∃ t, waitFor l s = .next t ∧ t.busy = false ∧ t.rspValid = true ∧
      (s.SamplesMismatch t → ∃ (vs : List Byte) (v : Byte), vs.length = l ∧ t.polls = l + 1 ∧
        newEvents s t = setdEvents s .deviceDrives ++ (vs ++ [v]).map .sample ∧
        t.rspWord = responseWord .unexpectedToggleBit v)

/-- From rules R192 (case 2) and R274, base build: a WRB to a protected idle device is answered OK and stores nothing; the WAIT after
it hangs if the old cell's bit 7 differs from the byte's, and is answered OK at its first sample if it does not. -/
def Obligations.BlockedWriteShowsOnlyInTheWait : Prop :=
  ∀ (n : Nat) (s : State) (a : Addr) (d : Byte), s.Ready → s.NeverReset → s.build = Build.base →
    s.dev.kind = .reference → s.dev.phase = .idle → s.dev.sdp = true →
    ∃ s1, exec (.wrb a d) s = .next s1 ∧ s1.rspWord = 0x0000#16 ∧ s1.dev.mem = s.dev.mem ∧
      ((Memory.read s.dev.mem a.toNat).getLsbD 7 ≠ d.getLsbD 7 →
        ∃ t, waitFor n s1 = .next t ∧ t.busy = true ∧ t.polls = n + 1) ∧
      ((Memory.read s.dev.mem a.toNat).getLsbD 7 = d.getLsbD 7 →
        ∃ t, exec .wait s1 = .next t ∧ t.busy = false ∧ t.polls = 0 ∧ t.rspWord = 0x0000#16)

/-- From rule R191: when the last byte written was stored and the lines still point at its cell, a WAIT that ends with status OK
leaves the device Idle; and if the device's window elapses and its write then ends within the slots of the polls, WAIT ends so. -/
def Obligations.WaitObservesTheEndOfAStoredWrite : Prop :=
  (∀ (n : Nat) (s t : State), s.DirectionTrue → s.NeverReset → s.dev.pending = true → s.WriteObserved →
    waitFor n s = .next t → t.busy = false → t.rspWord = responseWord .ok 0x00#8 → t.dev.phase = .idle) ∧
  (∀ (n i j : Nat) (s : State), s.DirectionTrue → s.NeverReset → s.dev.pending = true → s.WriteObserved →
    s.build.pollLimit = none → s.build.deadlineEn = false →
    i ≤ j → j ≤ n → (s.slotAt i).windowElapse = true → (s.slotAt j).programDone = true →
    ∃ t, waitFor n s = .next t ∧ t.busy = false ∧ t.rspValid = true ∧ t.rspWord = responseWord .ok 0x00#8 ∧
      t.dev.phase = .idle)

/-! ## ProtectionSequencer -/

/-- From rules R200, R201: SDPD and SDPE are exactly the writes of the table, each one WRB run in place and counted by `sq`, and then
the one look at the deadline (rule R208). -/
def Obligations.SdpSequencesAreTheirWrites : Prop :=
  (∀ s : State, s.Ready →
    s.NoResetFor (writesCost { s with sq := 0 } sdpDisableWrites + lookCost s) →
    exec .sdpd s = .next ((State.afterWrites { s with sq := 0 } 0 sdpDisableWrites).afterSequence 0x06#8)) ∧
  (∀ s : State, s.Ready →
    s.NoResetFor (writesCost { s with sq := 0 } sdpEnableWrites + lookCost s) →
    exec .sdpe s = .next ((State.afterWrites { s with sq := 0 } 0 sdpEnableWrites).afterSequence 0x03#8))

/-- From rule R202: the end state of SDPD, whatever the start state between operations: six write pulses, and TimingViolation with info
0x06 exactly when a build that consults the deadline finds it expired after the last write. -/
def Obligations.SdpdEndState : Prop :=
  ∀ s : State, s.Ready → s.NoResetFor 307 →
    ∃ t, exec .sdpd s = .next t ∧ t.addressLines = 0x5555#15 ∧ t.ql = 0x55#8 ∧ t.sl = 0x55#8 ∧ t.qh = 0x55#8 ∧
      t.sh = 0x55#8 ∧ t.lastHigh = 0x55#8 ∧ t.lastHighValid = true ∧ t.dir = .hostDrives ∧ t.ddir = .outputs ∧
      t.oeN = true ∧ t.dout = 0x20#8 ∧ t.pollBit = false ∧ t.weN = true ∧ t.sq = 6 ∧ t.busy = false ∧
      (newEvents s t).count (.we false) = 6 ∧ t.rspValid = true ∧
      t.rspWord = (if s.build.deadlineEn && t.deadlineExpired then 0x0106#16 else 0x0000#16)

/-- From rule R203: the end state of SDPE, likewise, with three write pulses and info 0x03. -/
def Obligations.SdpeEndState : Prop :=
  ∀ s : State, s.Ready → s.NoResetFor 168 →
    ∃ t, exec .sdpe s = .next t ∧ t.addressLines = 0x5555#15 ∧ t.ql = 0x55#8 ∧ t.sl = 0x55#8 ∧ t.qh = 0x55#8 ∧
      t.sh = 0x55#8 ∧ t.lastHigh = 0x55#8 ∧ t.lastHighValid = true ∧ t.dir = .hostDrives ∧ t.ddir = .outputs ∧
      t.oeN = true ∧ t.dout = 0xA0#8 ∧ t.pollBit = true ∧ t.weN = true ∧ t.sq = 3 ∧ t.busy = false ∧
      (newEvents s t).count (.we false) = 3 ∧ t.rspValid = true ∧
      t.rspWord = (if s.build.deadlineEn && t.deadlineExpired then 0x0103#16 else 0x0000#16)

/-- From rule R207: the effect of the sequences on the reference device, under `SeqInWindow`, with the device not Programming and
`cmd == 0` as the first pulse finds it: the latch moves; command bytes are stored only where it was off. (Rule R207 asks that of the
start of the sequence, which is the same but for a device whose window elapses, or whose write ends, before the first pulse.) -/
def Obligations.SdpSequencesMoveTheLatch : Prop :=
  ∀ (s : State) (d : Device), s.Ready → s.NoResetFor 307 → d = s.deviceAtFirstPulse sdpDisableWrites →
    d = s.deviceAtFirstPulse sdpEnableWrites → d.phase ≠ .programming → d.cmd = 0 →
    (s.SeqInWindow sdpDisableWrites → ∃ t, exec .sdpd s = .next t ∧ t.dev.sdp = false ∧
      (∀ x, Memory.read t.dev.mem x =
        if s.dev.sdp then Memory.read s.dev.mem x
        else if x = 0x5555 then 0x20#8 else if x = 0x2AAA then 0x55#8 else Memory.read s.dev.mem x) ∧
      (s.build.deadlineEn = false →
        t.dev.phase = .loading ∧ t.dev.pending = (d.pending || !s.dev.sdp))) ∧
    (s.SeqInWindow sdpEnableWrites → ∃ t, exec .sdpe s = .next t ∧ t.dev.sdp = true ∧
      (∀ x, Memory.read t.dev.mem x =
        if s.dev.sdp then Memory.read s.dev.mem x
        else if x = 0x5555 then 0xA0#8 else if x = 0x2AAA then 0x55#8 else Memory.read s.dev.mem x) ∧
      (s.build.deadlineEn = false →
        t.dev.phase = .loading ∧ t.dev.pending = (d.pending || !s.dev.sdp)))

/-- From rule R273, without the premise: the model admits the run in which the counter resets mid-sequence and the latch does not move,
every response being OK (95_test_vectors.md Q5). -/
def Obligations.MissedWindowLeavesTheLatch : Prop :=
  ∃ s t : State, s.Ready ∧ s.NeverReset ∧ s.build = Build.base ∧ s.dev.phase = .idle ∧ s.dev.cmd = 0 ∧ s.dev.sdp = true ∧
    exec .sdpd s = .next t ∧ t.rspWord = 0x0000#16 ∧ t.dev.sdp = true

/-- From rules R204, R209, R241: the block never learns what the device made of its pulses. Whatever device stands behind the pins, a
command that samples nothing emits the same events, leaves the block in the same state and gives the same response. -/
def Obligations.WritingCommandsNeverSeeTheDevice : Prop :=
  ∀ (i : Instr) (s t : State) (d : Device), i ≠ .drd → (∀ a, i ≠ .rdb a) → i ≠ .wait →
    exec i s = .next t → ∃ d', exec i { s with dev := d } = .next { t with dev := d' }

/-- From rule R205: which sequences take how many shifts and pin events: one frame is halved per repeated high byte, one direction
turn costs two events. -/
def Obligations.SdpSequenceCosts : Prop :=
  (∀ s t : State, s.Ready → s.NeverReset → exec .sdpd s = .next t →
    ((s.lastHighValid = false ∨ s.lastHigh ≠ 0x55#8) →
      (newEvents s t).count (.sck true) = 88 ∧ (newEvents s t).length = 304 + setdCost s .hostDrives) ∧
    (s.lastHighValid = true → s.lastHigh = 0x55#8 →
      (newEvents s t).count (.sck true) = 80 ∧ (newEvents s t).length = 278 + setdCost s .hostDrives)) ∧
  (∀ s t : State, s.Ready → s.NeverReset → exec .sdpe s = .next t →
    ((s.lastHighValid = false ∨ s.lastHigh ≠ 0x55#8) →
      (newEvents s t).count (.sck true) = 48 ∧ (newEvents s t).length = 165 + setdCost s .hostDrives) ∧
    (s.lastHighValid = true → s.lastHigh = 0x55#8 →
      (newEvents s t).count (.sck true) = 40 ∧ (newEvents s t).length = 139 + setdCost s .hostDrives))

/-! ## The device -/

/-- Rule R72: a pulse while Programming changes nothing. -/
def Obligations.PulseWhileProgrammingIsIgnored : Prop :=
  ∀ (d : Device) (a : Addr) (v : Byte), d.phase = .programming → d.writePulse a v = d

/-- Rules R73, R75: any other pulse stores its byte exactly when the latch was off before it, judges that by the latch as it was,
changes no other cell, and sets the phase to Loading. -/
def Obligations.PulseStoresWhenTheLatchIsOff : Prop :=
  ∀ (d : Device) (a : Addr) (v : Byte), Memory.wf d.mem = true → d.phase ≠ .programming →
    (d.writePulse a v).phase = .loading ∧
    (d.sdp = false →
      Memory.read (d.writePulse a v).mem a.toNat = v ∧
      (∀ x, x ≠ a.toNat → Memory.read (d.writePulse a v).mem x = Memory.read d.mem x) ∧
      (d.writePulse a v).pending = true ∧ (d.writePulse a v).last7 = v.getLsbD 7) ∧
    (d.sdp = true →
      (d.writePulse a v).mem = d.mem ∧ (d.writePulse a v).pending = d.pending ∧
      (d.writePulse a v).last7 = d.last7)

/-- Rule R74: the command recogniser, row by row; `sdp` moves only where a sequence is complete. -/
def Obligations.RecogniserFollowsTheTable : Prop :=
  ∀ (d : Device) (a : Addr) (v : Byte), d.phase ≠ .programming →
    ((d.writePulse a v).cmd, (d.writePulse a v).sdp) =
      if d.cmd = 0 ∧ a = 0x5555#15 ∧ v = 0xAA#8 then (1, d.sdp)
      else if d.cmd = 1 ∧ a = 0x2AAA#15 ∧ v = 0x55#8 then (2, d.sdp)
      else if d.cmd = 2 ∧ a = 0x5555#15 ∧ v = 0xA0#8 then (0, true)
      else if d.cmd = 2 ∧ a = 0x5555#15 ∧ v = 0x80#8 then (3, d.sdp)
      else if d.cmd = 3 ∧ a = 0x5555#15 ∧ v = 0xAA#8 then (4, d.sdp)
      else if d.cmd = 4 ∧ a = 0x2AAA#15 ∧ v = 0x55#8 then (5, d.sdp)
      else if d.cmd = 5 ∧ a = 0x5555#15 ∧ v = 0x20#8 then (0, false)
      else if a = 0x5555#15 ∧ v = 0xAA#8 then (1, d.sdp)
      else (0, d.sdp)

/-- From rule R76: a busy read inverts the last byte's bit 7 (its other bits are free); any other read is the stored byte. -/
def Obligations.BusyReadsInvertTheTopBit : Prop :=
  ∀ (d : Device) (a : Addr) (n : Nat), d.kind = .reference →
    (d.pending = true → d.phase ≠ .idle → (d.read a n).getLsbD 7 = !d.last7) ∧
    ((d.pending = false ∨ d.phase = .idle) → d.read a n = Memory.read d.mem a.toNat)

/-- From rule R84: the device's own steps in one slot: each has its effect exactly where it is chosen and enabled. That two steps chosen
in one slot come as WindowElapse and then ProgramDone is the model's choice (log 26). -/
def Obligations.DeviceStepsOnlyWhereEnabled : Prop :=
  ∀ (d : Device) (x : EnvSlot),
    (d.phase = .idle → d.environment x = d) ∧
    (d.phase = .loading → x.windowElapse = false → d.environment x = d) ∧
    (d.phase = .loading → x.windowElapse = true → x.programDone = false →
      d.environment x = { d with cmd := 0, phase := if d.pending then .programming else .idle }) ∧
    (d.phase = .loading → x.windowElapse = true → x.programDone = true →
      d.environment x = { d with cmd := 0, phase := .idle, pending := false }) ∧
    (d.phase = .programming → x.programDone = false → d.environment x = d) ∧
    (d.phase = .programming → x.programDone = true → d.environment x = { d with phase := .idle, pending := false })

/-! ## Invariants and whole-machine rules -/

/-- Rules R40, R41, R44 and the device's and memory's own forms are kept by every step, resets included. -/
def Obligations.StepKeepsTheInvariant : Prop :=
  ∀ s t : State, s.Inv → step s = .next t → t.Inv

/-- The invariant holds right after reset, in every build, for every latch and every canonical memory (rules R9, R11, R260); the
values of the registers rule R49 and R50 leave open are the model's (log 4) and the invariant does not rest on them. -/
def Obligations.ResetMeetsTheInvariant : Prop :=
  State.reset.Inv ∧
  ∀ (b : Build) (sdp : Bool) (m : Memory), Memory.wf m = true → (State.powerOn b (Device.powerOn sdp m)).Inv

/-- Rule R43: at every instant of every step, resets included, never do both sides drive the lines; the trace only grows. -/
def Obligations.BusIsNeverDrivenByBothSides : Prop :=
  ∀ s t : State, s.Inv → step s = .next t →
    t.trace = s.trace ++ newEvents s t ∧ busSafeAlong s.ddir s.oeN (newEvents s t) = true

/-- From rules R45, R184: in every step, resets included, a write pulse opens with the host alone driving the lines, nothing but its
end is emitted while it is open, and it is closed at the end. -/
def Obligations.WritePulsesAreGuarded : Prop :=
  ∀ s t : State, s.Inv → step s = .next t → pulsesGuarded s.ddir s.oeN s.weN (newEvents s t) = true

/-- From rules R166, R169, R233, R237: between operations no step stops with a fault, and a command is refused only as DWR or DRD in
the wrong direction of a build without SAFETY_BUILD. -/
def Obligations.InvariantRulesOutStops : Prop :=
  (∀ (s : State) (f : Fault), s.Inv → step s ≠ .fault f) ∧
  (∀ (s : State) (i : Instr) (r : Refusal), exec i s = .refused r →
    s.build.safetyBuild = false ∧
    ((∃ d, i = .dwr d ∧ s.dir ≠ .hostDrives ∧ r = .dwrWrongDirection) ∨
     (i = .drd ∧ s.dir ≠ .deviceDrives ∧ r = .drdWrongDirection)))

/-- From rule R31: the build parameters are constants of an instance; no step writes them, nor the kind of device behind the pins. -/
def Obligations.StepLeavesTheBuildAlone : Prop :=
  ∀ s t : State, step s = .next t → t.build = s.build ∧ t.dev.kind = s.dev.kind

/-- From rule R231: a new response to a legal command carries status 0, or the code of a fault whose build switch is on and whose
operation it is; the second clause is the response a WAIT gives in a later poll (log 19). -/
def Obligations.FaultsComeFromTheirOperations : Prop :=
  (∀ (i : Instr) (s t : State), s.rspValid = false → exec i s = .next t → t.rspValid = true →
    t.rspWord.extractLsb' 8 4 = 0#4 ∨
    (t.rspWord.extractLsb' 8 4 = 1#4 ∧ s.build.deadlineEn = true ∧ (i = .wait ∨ i = .sdpd ∨ i = .sdpe)) ∨
    (t.rspWord.extractLsb' 8 4 = 2#4 ∧ s.build.safetyBuild = true ∧ ((∃ d, i = .dwr d) ∨ i = .drd)) ∨
    (t.rspWord.extractLsb' 8 4 = 3#4 ∧ s.build.pollLimit ≠ none ∧ i = .wait)) ∧
  (∀ s t : State, s.Inv → s.busy = true → s.rspValid = false → step s = .next t → t.rspValid = true →
    t.rspWord.extractLsb' 8 4 = 0#4 ∨
    (t.rspWord.extractLsb' 8 4 = 1#4 ∧ s.build.deadlineEn = true) ∨
    (t.rspWord.extractLsb' 8 4 = 3#4 ∧ s.build.pollLimit ≠ none))

/-- Rule R230: in the base design a legal command that the model runs ends with status OK or does not end at all: only a WAIT goes
on beyond its first step, and each further step of it polls on or ends with status OK. -/
def Obligations.BaseDesignReportsNoFault : Prop :=
  (∀ (i : Instr) (s t : State), s.build = Build.base → s.NeverReset → exec i s = .next t →
    (t.busy = false ∧ t.rspValid = true ∧ t.rspWord.extractLsb' 8 4 = 0#4) ∨ (t.busy = true ∧ i = .wait)) ∧
  (∀ s t : State, s.build = Build.base → s.NeverReset → s.busy = true → step s = .next t →
    (t.busy = false ∧ t.rspValid = true ∧ t.rspWord.extractLsb' 8 4 = 0#4) ∨ t.busy = true)

/-! ## Frames over memory -/

/-- A command that makes no write pulse leaves every byte of the device and its latch alone, resets included (rules R65, R144, R161,
R165, R168, R185, R188); so does every further poll of a WAIT. -/
def Obligations.NonStoringCommandsKeepMemory : Prop :=
  ∀ (i : Instr) (s t : State), s.weN = true → (∀ a d, i ≠ .wrb a d) → i ≠ .sdpd → i ≠ .sdpe →
    (exec i s = .next t ∨ (s.busy = true ∧ step s = .next t)) →
    t.dev.sdp = s.dev.sdp ∧ ∀ x, Memory.read t.dev.mem x = Memory.read s.dev.mem x

/-- WRB changes at most the cell at its address operand, and SDPD and SDPE at most the cells at the addresses of their writes, resets
included (rules R73, R182, R200). -/
def Obligations.StoringCommandsKeepOtherCells : Prop :=
  (∀ (s t : State) (a : Addr) (d : Byte), s.Ready → exec (.wrb a d) s = .next t →
    ∀ x, x ≠ a.toNat → Memory.read t.dev.mem x = Memory.read s.dev.mem x) ∧
  (∀ s t : State, s.Ready → (exec .sdpd s = .next t ∨ exec .sdpe s = .next t) →
    ∀ x, (∀ p ∈ sdpDisableWrites ++ sdpEnableWrites, x ≠ p.1.toNat) →
      Memory.read t.dev.mem x = Memory.read s.dev.mem x)

/-! ## Reset -/

/-- From rule R260 at power-up: the values the spec gives (10_state.md rules R46 to R48, R51), in every build and before every device. -/
def Obligations.ResetStateHoldsTheStatedValues : Prop :=
  ∀ (b : Build) (d : Device), (State.powerOn b d).lastHighValid = false ∧ (State.powerOn b d).dir = .deviceDrives ∧
    (State.powerOn b d).ddir = .inputs ∧ (State.powerOn b d).oeN = false ∧ (State.powerOn b d).weN = true ∧
    (State.powerOn b d).sck = false ∧ (State.powerOn b d).rckL = false ∧ (State.powerOn b d).rckH = false ∧
    (State.powerOn b d).ser = false ∧ (State.powerOn b d).busy = false ∧ (State.powerOn b d).sq = 0 ∧
    (State.powerOn b d).polls = 0 ∧ (State.powerOn b d).cmdReady = true ∧ (State.powerOn b d).rspValid = false ∧
    State.reset = State.powerOn Build.base (Device.powerOn false [])

/-- From rules R49, R50, R146: the registers that are unspecified after reset do not matter to the first WRB: whatever they hold, it
ends in the same state with the same events and the same response. -/
def Obligations.FirstWriteForgetsTheUnspecifiedRegisters : Prop :=
  ∀ (s : State) (a : Addr) (d sl sh ql qh lastHigh dout : Byte) (pollBit : Bool),
    s.LinesIdle → s.DirectionTrue → s.lastHighValid = false → s.NoResetFor 57 →
    exec (.wrb a d) { s with
      sl := sl, sh := sh, ql := ql, qh := qh, lastHigh := lastHigh, dout := dout, pollBit := pollBit } =
      exec (.wrb a d) s

/-- From rules R260, R262, R52, on a WAIT in progress: a reset in any slot of a further poll abandons it without a response and brings
block and pins to the reset values; the device is not reset. That the chain keeps its cells is log 8 (R262: "not cleared"), and that
`rsp_word` does is the model's choice (log 9). -/
def Obligations.ResetAbandonsAWait : Prop :=
  ∀ (s : State) (n : Nat), s.busy = true → s.dir = .deviceDrives → s.weN = true →
    n < pollSlots s → s.NoResetFor n → (s.slotAt n).rst = true →
    ∃ t, step s = .next t ∧ t.AtReset ∧ t.sl = s.sl ∧ t.sh = s.sh ∧ t.ql = s.ql ∧ t.qh = s.qh ∧
      t.dev = (s.passTimes (n + 1)).dev ∧ t.rspWord = s.rspWord ∧ t.commander = s.commander

/-- From rule R264: a reset that falls inside the write pulse of a WRB ends the pulse, and the device reacts to it as to any pulse end;
no response is given and the block is in its reset configuration. -/
def Obligations.ResetInsideAWritePulseEndsIt : Prop :=
  ∀ (s : State) (a : Addr) (d : Byte) (n : Nat), s.Ready → wrbCost s a = n + 1 → s.NoResetFor n → (s.slotAt n).rst = true →
    ∃ t, exec (.wrb a d) s = .next t ∧ t.dev = (s.passTimes (n + 1)).dev.writePulse a d ∧ t.rspValid = false ∧
      t.busy = false ∧ t.weN = true ∧ t.dir = .deviceDrives ∧ t.ddir = .inputs ∧ t.oeN = false ∧
      t.lastHighValid = false

/-! ## Round trips (the scenarios of 95_test_vectors.md part 1) -/

/-- From rule R88 item 2: on an idle, unprotected reference device, WRB, then a WAIT that ends with status OK, then RDB of the same
address returns the byte written, whatever the device's timing. -/
def Obligations.WriteWaitReadRoundTrip : Prop :=
  ∀ (s : State) (a : Addr) (d : Byte), s.Ready → s.NeverReset → s.dev.kind = .reference →
    s.dev.phase = .idle → s.dev.sdp = false →
    ∃ s1, exec (.wrb a d) s = .next s1 ∧
      ∀ (n : Nat) (s2 : State), waitFor n s1 = .next s2 → s2.busy = false → s2.rspWord = responseWord .ok 0x00#8 →
        ∃ s3, exec (.rdb a) s2 = .next s3 ∧ s3.rspWord = responseWord .ok d

/-- From rule R207 and scenario S7: on an idle, protected device, SDPD within the window (`SeqInWindow`) and then a WRB stores the
byte, whatever the device does after the last pulse of the sequence. -/
def Obligations.UnlockThenWriteStoresTheByte : Prop :=
  ∀ (s : State) (a : Addr) (d : Byte), s.Ready → s.NeverReset → s.SeqInWindow sdpDisableWrites →
    s.dev.phase = .idle → s.dev.sdp = true →
    ∃ s1 s2, exec .sdpd s = .next s1 ∧ exec (.wrb a d) s1 = .next s2 ∧ Memory.read s2.dev.mem a.toNat = d

/-- From rule R207 and property S5: after SDPE within the window (`SeqInWindow`) a WRB changes no byte of the device, whatever the
device does after the last pulse of the sequence. -/
def Obligations.LockThenWriteLeavesEveryByte : Prop :=
  ∀ (s : State) (a : Addr) (d : Byte), s.Ready → s.NeverReset → s.SeqInWindow sdpEnableWrites →
    (s.deviceAtFirstPulse sdpEnableWrites).phase ≠ .programming → (s.deviceAtFirstPulse sdpEnableWrites).cmd = 0 →
    ∃ s1 s2, exec .sdpe s = .next s1 ∧ exec (.wrb a d) s1 = .next s2 ∧
      ∀ x, Memory.read s2.dev.mem x = Memory.read s1.dev.mem x

/-! ## The commander's side -/

/-- Rule R123: a line with an address operand above 0x7FFF or a data operand above 0xFF is refused; a line with operands that fit is
assembled with every operand as written. -/
def Obligations.AssemblerNeverTruncates : Prop :=
  (∀ a : Nat, 0x7FFF < a → assemble (.seta a) = none ∧ assemble (.rdb a) = none ∧ assemble (.read a) = none ∧
    assemble (.dump a) = none ∧ ∀ d, assemble (.wrb a d) = none ∧ assemble (.write a d) = none) ∧
  (∀ d : Nat, 0xFF < d → assemble (.dwr d) = none ∧
    ∀ a, assemble (.wrb a d) = none ∧ assemble (.write a d) = none) ∧
  (∀ a d : Nat, a ≤ 0x7FFF → d ≤ 0xFF →
    ∃ (x : Addr) (y : Byte), x.toNat = a ∧ y.toNat = d ∧
      assemble (.seta a) = some [encode (.seta x)] ∧ assemble (.rdb a) = some [encode (.rdb x)] ∧
      assemble (.read a) = some [encode (.rdb x)] ∧ assemble (.dwr d) = some [encode (.dwr y)] ∧
      assemble (.wrb a d) = some [encode (.wrb x y)] ∧
      assemble (.write a d) = some [encode (.wrb x y), encode .wait])

/-- Rule R219: DUMP is 256 reads, the `i`-th of address `(addr + i) mod 2^15`. -/
def Obligations.DumpReadsEveryByteOfTheWindow : Prop :=
  ∀ a : Nat, a ≤ 0x7FFF → ∃ l : List Addr, assemble (.dump a) = some (l.map (fun x => encode (.rdb x))) ∧
    l.length = 256 ∧ ∀ i, i < 256 → ∃ x, l[i]? = some x ∧ x.toNat = (a + i) % 2 ^ 15

/-- From rule R220: the rows of a dump enumerate all its bytes, in order and with no omission, 16 a row, and each row's offset is 16 more
than the one before. -/
def Obligations.DumpRowsEnumerateEveryByte : Prop :=
  ∀ (base : Nat) (bytes : List Byte), bytes.length = 256 →
    (dumpRows base bytes 16).length = 16 ∧ ((dumpRows base bytes 16).flatMap Prod.snd) = bytes ∧
    ∀ r row, (dumpRows base bytes 16)[r]? = some row → row.1 = base + 16 * r ∧ row.2.length = 16

/-! ## A live device (rule R85) -/

/-- From rule R85: the own steps of a live device are weakly fair, and so, left alone, it becomes Idle again. A reset is left out of
the slots that are not listed (log 3). -/
def Obligations.LiveDeviceTakesItsSteps : Prop :=
  (∀ s : State, s.dev.kind = .reference → s.WeaklyFair) ∧
  (∀ s : State, s.dev.kind = .reference → ∃ n, (s.passTimes n).dev.phase = .idle)

/-- From rule R191: under its conditions (a) and (b), "with a live device, WAIT ends, and when it ends the device is Idle", in a build
without bounds. -/
def Obligations.LiveDeviceEndsTheWait : Prop :=
  ∀ s : State, s.DirectionTrue → s.NeverReset → s.dev.pending = true → s.WriteObserved →
    s.build.pollLimit = none → s.build.deadlineEn = false →
    ∃ n t, waitFor n s = .next t ∧ t.busy = false ∧ t.rspValid = true ∧ t.rspWord = responseWord .ok 0x00#8 ∧
      t.dev.phase = .idle

/-! ## Reset, wherever it comes -/

/-- From rules R260, R262, R52: a reset in any slot of any command, WAIT's first iteration included, abandons it without a response and
brings block and pins to the reset values, by the pin writes of rule R262 in its order (that all seven stand in the trace is log 28);
`rsp_word` is kept (log 9). The device is not reset: where the command makes no write pulse, and in a WRB before its pulse is open, it
has only taken its own steps. (Inside the pulse of a WRB: ResetInsideAWritePulseEndsIt; in a sequence: ResetInsideASequenceKeepsItsPulses.) -/
def Obligations.ResetInsideACommandAbandonsIt : Prop :=
  ∀ (i : Instr) (s : State) (n : Nat), s.Ready → n < slotsOf s i → s.NoResetFor n → (s.slotAt n).rst = true →
    ∃ t, exec i s = .next t ∧ t.AtReset ∧ t.rspWord = s.rspWord ∧ t.commander = s.commander ∧
      (∃ es, newEvents s t = es ++ [.we true, .ddir .inputs, .oe false, .sck false, .rckL false, .rckH false, .ser false]) ∧
      ((∀ a d, i ≠ .wrb a d) → i ≠ .sdpd → i ≠ .sdpe → t.dev = (s.passTimes (n + 1)).dev) ∧
      (∀ a d, i = .wrb a d → n + 1 < wrbCost s a → t.dev = (s.passTimes (n + 1)).dev)

/-- From rules R264, R52: a reset inside SDPD or SDPE leaves the device as the pulses already closed left it, its command counter
part-way: in a write before its pulse is open the device has only taken its own steps since then, inside a pulse the reset ends that
pulse and the device reacts to it, and at the look at the deadline all writes are done. -/
def Obligations.ResetInsideASequenceKeepsItsPulses : Prop :=
  ∀ (i : Instr) (ws : List (Addr × Byte)) (s : State), s.Ready →
    (i = .sdpd ∧ ws = sdpDisableWrites) ∨ (i = .sdpe ∧ ws = sdpEnableWrites) →
    (∀ (closed rest : List (Addr × Byte)) (a : Addr) (d : Byte) (u : State) (n k : Nat),
      ws = closed ++ (a, d) :: rest → u = State.afterWrites { s with sq := 0 } 0 closed →
      n = writesCost { s with sq := 0 } closed + k → k < wrbCost u a → s.NoResetFor n → (s.slotAt n).rst = true →
      ∃ t, exec i s = .next t ∧ t.AtReset ∧
        (k + 1 < wrbCost u a → t.dev = (u.passTimes (k + 1)).dev) ∧
        (k + 1 = wrbCost u a → t.dev = (u.passTimes (k + 1)).dev.writePulse a d)) ∧
    (∀ (u : State) (n : Nat), u = State.afterWrites { s with sq := 0 } 0 ws → n = writesCost { s with sq := 0 } ws →
      s.build.deadlineEn = true → s.NoResetFor n → (s.slotAt n).rst = true →
      ∃ t, exec i s = .next t ∧ t.AtReset ∧ t.dev = (u.passTimes 1).dev)

/-- From rules R260, R262, R52: a reset of an idle block with no command presented brings block and pins to the reset values; the
device is not reset, it only takes its own steps. That the chain keeps its cells is log 8, that `rsp_word` does is log 9. -/
def Obligations.ResetOfAnIdleBlockTakesTheResetState : Prop :=
  ∀ s : State, s.busy = false → s.commander = [] → s.weN = true → (s.slotAt 0).rst = true →
    ∃ t, step s = .next t ∧ t.AtReset ∧ t.sl = s.sl ∧ t.sh = s.sh ∧ t.ql = s.ql ∧ t.qh = s.qh ∧
      t.dev = s.dev.environment (s.slotAt 0) ∧ t.rspWord = s.rspWord

/-! ## A dump -/

/-- From rules R219, R220: a DUMP on an idle reference device gives 16 rows of 16 bytes, the offset of each 16 more than that of the
row before, and byte `i` of row `r` is the cell `addr + 16 r + i` modulo 2^15. -/
def Obligations.DumpShowsTheBytesOfTheDevice : Prop :=
  ∀ (base a : Nat) (s : State), s.Inv → s.NeverReset → s.busy = false → s.dev.kind = .reference → s.dev.phase = .idle →
    ∃ rows t, dump base a s = some (rows, t) ∧ rows.length = 16 ∧
      ∀ r, r < 16 → ∃ bytes, rows[r]? = some (base + 16 * r, bytes) ∧ bytes.length = 16 ∧
        ∀ i, i < 16 → bytes[i]? = some (Memory.read s.dev.mem ((a + 16 * r + i) % 2 ^ 15))

/-! ## The first iteration of WAIT, in every build -/

/-- From rules R188, R231, R232, R240: after SETD and the start of the loop (`polls <- 0; v <- 0x00`), WAIT looks at the deadline and,
where it has expired, ends with TimingViolation and info 0x00 with no sample taken; otherwise it takes one sample: a matching one ends
it with OK, a mismatching one is counted and, at a limit of 1, ends it with UnexpectedToggleBit and that byte; else it polls on. That
the first iteration is `exec`'s part of a WAIT is the model's choice (log 19). -/
def Obligations.FirstIterationOfWaitFollowsTheLoop : Prop :=
  (∀ (s : State) (c : Nat), c = setdCost s .deviceDrives → s.build.deadlineEn = true → s.NoResetFor (c + 1) →
    (s.passTimes (c + 1)).deadlineExpired = true →
    exec .wait s = .next (State.respond
      { (s.passTimes (c + 1)).afterSetd .deviceDrives with
        polls := 0, pollByte := 0x00#8, trace := s.trace ++ setdEvents s .deviceDrives } .timingViolation 0x00#8)) ∧
  (∀ (s m : State) (c n : Nat) (v : Byte), s.DirectionTrue → c = setdCost s .deviceDrives → n = c + lookCost s + 1 →
    s.NoResetFor n → (s.build.deadlineEn = true → (s.passTimes (c + 1)).deadlineExpired = false) →
    m = (s.passTimes n).waitStart → v = (s.passTimes n).dev.read s.addressLines s.draws →
    (v.getLsbD 7 = s.pollBit →
      exec .wait s = .next (State.respond { m.afterSample v with pollByte := v } .ok 0x00#8)) ∧
    (v.getLsbD 7 ≠ s.pollBit → (∃ l, s.build.pollLimit = some l ∧ l ≤ 1) →
      exec .wait s = .next (State.respond { m.afterSample v with pollByte := v, polls := 1 } .unexpectedToggleBit v)) ∧
    (v.getLsbD 7 ≠ s.pollBit → (∀ l, s.build.pollLimit = some l → 1 < l) →
      exec .wait s = .next { m.afterSample v with pollByte := v, polls := 1, busy := true }))
end

