-- ==== Sys2Proof/Laws/State.lean ====
section
/-! SUPPORT. One lemma per field and shared update: what passing time, pin events, a response and an acceptance leave. -/

namespace Sys2Proof.Machine

/-! ## Passing time touches the device, the deadline input and the model's own counters only -/

@[simp] theorem passTime_sl (s : State) : s.passTime.sl = s.sl := rfl
@[simp] theorem passTime_sh (s : State) : s.passTime.sh = s.sh := rfl
@[simp] theorem passTime_ql (s : State) : s.passTime.ql = s.ql := rfl
@[simp] theorem passTime_qh (s : State) : s.passTime.qh = s.qh := rfl
@[simp] theorem passTime_lastHighValid (s : State) : s.passTime.lastHighValid = s.lastHighValid := rfl
@[simp] theorem passTime_lastHigh (s : State) : s.passTime.lastHigh = s.lastHigh := rfl
@[simp] theorem passTime_dir (s : State) : s.passTime.dir = s.dir := rfl
@[simp] theorem passTime_pollBit (s : State) : s.passTime.pollBit = s.pollBit := rfl
@[simp] theorem passTime_dout (s : State) : s.passTime.dout = s.dout := rfl
@[simp] theorem passTime_ser (s : State) : s.passTime.ser = s.ser := rfl
@[simp] theorem passTime_sck (s : State) : s.passTime.sck = s.sck := rfl
@[simp] theorem passTime_rckL (s : State) : s.passTime.rckL = s.rckL := rfl
@[simp] theorem passTime_rckH (s : State) : s.passTime.rckH = s.rckH := rfl
@[simp] theorem passTime_oeN (s : State) : s.passTime.oeN = s.oeN := rfl
@[simp] theorem passTime_weN (s : State) : s.passTime.weN = s.weN := rfl
@[simp] theorem passTime_ddir (s : State) : s.passTime.ddir = s.ddir := rfl
@[simp] theorem passTime_busy (s : State) : s.passTime.busy = s.busy := rfl
@[simp] theorem passTime_sq (s : State) : s.passTime.sq = s.sq := rfl
@[simp] theorem passTime_polls (s : State) : s.passTime.polls = s.polls := rfl
@[simp] theorem passTime_pollByte (s : State) : s.passTime.pollByte = s.pollByte := rfl
@[simp] theorem passTime_commander (s : State) : s.passTime.commander = s.commander := rfl
@[simp] theorem passTime_rspValid (s : State) : s.passTime.rspValid = s.rspValid := rfl
@[simp] theorem passTime_rspWord (s : State) : s.passTime.rspWord = s.rspWord := rfl
@[simp] theorem passTime_trace (s : State) : s.passTime.trace = s.trace := rfl
@[simp] theorem passTime_build (s : State) : s.passTime.build = s.build := rfl
@[simp] theorem passTime_draws (s : State) : s.passTime.draws = s.draws := rfl
@[simp] theorem passTime_tick (s : State) : s.passTime.tick = s.tick + 1 := rfl
@[simp] theorem passTime_env (s : State) : s.passTime.env = s.env.tail := rfl
@[simp] theorem passTime_dev (s : State) : s.passTime.dev = s.dev.environment (s.slotAt 0) := rfl

/-- Passing time leaves a state that differs from the old one in four fields. -/
theorem passTimes_eq (n : Nat) : ∀ s : State,
    s.passTimes n =
      { s with
        dev := (s.passTimes n).dev
        deadlineExpired := (s.passTimes n).deadlineExpired
        env := (s.passTimes n).env
        tick := (s.passTimes n).tick } := by
  induction n with
  | zero => intro s; rfl
  | succ n ih => intro s; exact ih s.passTime

@[simp] theorem passTimes_zero (s : State) : s.passTimes 0 = s := rfl

theorem passTimes_succ (s : State) (n : Nat) : s.passTimes (n + 1) = s.passTime.passTimes n := rfl

/-- `m` slots and then `n` more. -/
theorem passTimes_add (s : State) (m n : Nat) : s.passTimes (m + n) = (s.passTimes m).passTimes n := by
  induction m generalizing s with
  | zero => simp
  | succ m ih => rw [Nat.add_right_comm]; exact ih s.passTime

theorem passTimes_succ' (s : State) (n : Nat) : s.passTimes (n + 1) = (s.passTimes n).passTime :=
  passTimes_add s n 1

@[simp] theorem passTimes_sl (s : State) (n : Nat) : (s.passTimes n).sl = s.sl := by rw [passTimes_eq]
@[simp] theorem passTimes_sh (s : State) (n : Nat) : (s.passTimes n).sh = s.sh := by rw [passTimes_eq]
@[simp] theorem passTimes_ql (s : State) (n : Nat) : (s.passTimes n).ql = s.ql := by rw [passTimes_eq]
@[simp] theorem passTimes_qh (s : State) (n : Nat) : (s.passTimes n).qh = s.qh := by rw [passTimes_eq]
@[simp] theorem passTimes_lastHighValid (s : State) (n : Nat) :
    (s.passTimes n).lastHighValid = s.lastHighValid := by rw [passTimes_eq]
@[simp] theorem passTimes_lastHigh (s : State) (n : Nat) : (s.passTimes n).lastHigh = s.lastHigh := by
  rw [passTimes_eq]
@[simp] theorem passTimes_dir (s : State) (n : Nat) : (s.passTimes n).dir = s.dir := by rw [passTimes_eq]
@[simp] theorem passTimes_pollBit (s : State) (n : Nat) : (s.passTimes n).pollBit = s.pollBit := by
  rw [passTimes_eq]
@[simp] theorem passTimes_dout (s : State) (n : Nat) : (s.passTimes n).dout = s.dout := by rw [passTimes_eq]
@[simp] theorem passTimes_ser (s : State) (n : Nat) : (s.passTimes n).ser = s.ser := by rw [passTimes_eq]
@[simp] theorem passTimes_sck (s : State) (n : Nat) : (s.passTimes n).sck = s.sck := by rw [passTimes_eq]
@[simp] theorem passTimes_rckL (s : State) (n : Nat) : (s.passTimes n).rckL = s.rckL := by rw [passTimes_eq]
@[simp] theorem passTimes_rckH (s : State) (n : Nat) : (s.passTimes n).rckH = s.rckH := by rw [passTimes_eq]
@[simp] theorem passTimes_oeN (s : State) (n : Nat) : (s.passTimes n).oeN = s.oeN := by rw [passTimes_eq]
@[simp] theorem passTimes_weN (s : State) (n : Nat) : (s.passTimes n).weN = s.weN := by rw [passTimes_eq]
@[simp] theorem passTimes_ddir (s : State) (n : Nat) : (s.passTimes n).ddir = s.ddir := by rw [passTimes_eq]
@[simp] theorem passTimes_busy (s : State) (n : Nat) : (s.passTimes n).busy = s.busy := by rw [passTimes_eq]
@[simp] theorem passTimes_sq (s : State) (n : Nat) : (s.passTimes n).sq = s.sq := by rw [passTimes_eq]
@[simp] theorem passTimes_polls (s : State) (n : Nat) : (s.passTimes n).polls = s.polls := by rw [passTimes_eq]
@[simp] theorem passTimes_pollByte (s : State) (n : Nat) : (s.passTimes n).pollByte = s.pollByte := by
  rw [passTimes_eq]
@[simp] theorem passTimes_commander (s : State) (n : Nat) : (s.passTimes n).commander = s.commander := by
  rw [passTimes_eq]
@[simp] theorem passTimes_rspValid (s : State) (n : Nat) : (s.passTimes n).rspValid = s.rspValid := by
  rw [passTimes_eq]
@[simp] theorem passTimes_rspWord (s : State) (n : Nat) : (s.passTimes n).rspWord = s.rspWord := by
  rw [passTimes_eq]
@[simp] theorem passTimes_trace (s : State) (n : Nat) : (s.passTimes n).trace = s.trace := by rw [passTimes_eq]
@[simp] theorem passTimes_build (s : State) (n : Nat) : (s.passTimes n).build = s.build := by rw [passTimes_eq]
@[simp] theorem passTimes_draws (s : State) (n : Nat) : (s.passTimes n).draws = s.draws := by rw [passTimes_eq]

theorem passTimes_env (n : Nat) : ∀ s : State, (s.passTimes n).env = s.env.drop n := by
  induction n with
  | zero => intro s; rfl
  | succ n ih => intro s; rw [passTimes_succ, ih, passTime_env, List.drop_tail]

theorem passTimes_tick (n : Nat) : ∀ s : State, (s.passTimes n).tick = s.tick + n := by
  induction n with
  | zero => intro s; rfl
  | succ n ih => intro s; rw [passTimes_succ, ih, passTime_tick]; omega

/-! ## Slots -/

/-- Whatever the gaps, another chosen slot always follows: the free choices of a live device are weakly fair (rule R85). -/
theorem comesAt_again (gap : Nat → Nat) (n : Nat) : ∃ j, n ≤ j ∧ comesAt gap j = true := by
  have h : ∀ k n i, countdown gap n = (i, k) → countdown gap (n + k) = (i, 0) := by
    intro k
    induction k with
    | zero => intro n i h; exact h
    | succ k ih =>
      intro n i h
      have hs : countdown gap (n + 1) = (i, k) := by rw [countdown, h]
      have hk := ih (n + 1) i hs
      rwa [show n + 1 + k = n + (k + 1) by omega] at hk
  exact ⟨n + (countdown gap n).2, by omega, by rw [comesAt, h _ n _ rfl]; rfl⟩

@[simp] theorem environment_kind (d : Device) (x : EnvSlot) : (d.environment x).kind = d.kind := by
  unfold Device.environment; dsimp only; split <;> split <;> rfl

/-- A slot depends on the environment list, the tick and the kind of device alone. -/
theorem slotAt_congr {s t : State} (he : t.env = s.env) (ht : t.tick = s.tick) (hk : t.dev.kind = s.dev.kind) (k : Nat) :
    t.slotAt k = s.slotAt k := by simp only [State.slotAt, he, ht, hk]

/-- Whether a slot holds a reset does not depend on the device. -/
theorem slotAt_rst (s : State) (k : Nat) : (s.slotAt k).rst = ((s.env[k]?).map (fun x => x.rst)).getD false := by
  unfold State.slotAt; cases s.env[k]? <;> rfl

theorem slotAt_rst_congr {s t : State} (he : t.env = s.env) (k : Nat) : (t.slotAt k).rst = (s.slotAt k).rst := by
  simp only [slotAt_rst, he]

@[simp] theorem slotAt_passTime (s : State) (k : Nat) : s.passTime.slotAt k = s.slotAt (k + 1) := by
  have h : s.tick + 1 + k = s.tick + (k + 1) := by omega
  simp [State.slotAt, h]

@[simp] theorem slotAt_passTimes (s : State) (n k : Nat) : (s.passTimes n).slotAt k = s.slotAt (n + k) := by
  induction n generalizing s with
  | zero => simp
  | succ n ih => rw [passTimes_succ, ih, slotAt_passTime]; congr 1; omega

/-- A reset comes only where it is listed. -/
theorem neverReset_slotAt {s : State} (h : s.NeverReset) (k : Nat) : (s.slotAt k).rst = false := by
  unfold State.slotAt
  cases hk : s.env[k]? with
  | none => rfl
  | some x => exact h x (List.mem_of_getElem? hk)

/-- The premise on the slots after the first `m`. -/
theorem noResetFor_passTimes {s : State} {m n : Nat} (h : s.NoResetFor (m + n)) :
    (s.passTimes m).NoResetFor n := by
  intro k hk; rw [slotAt_passTimes]; exact h (m + k) (by omega)

theorem noResetFor_mono {s : State} {m n : Nat} (h : s.NoResetFor n) (hm : m ≤ n) : s.NoResetFor m :=
  fun k hk => h k (by omega)

theorem noResetFor_congr {s t : State} (he : t.env = s.env) (n : Nat) : t.NoResetFor n ↔ s.NoResetFor n := by
  simp only [State.NoResetFor, slotAt_rst_congr he]

/-! ## Pin events -/

@[simp] theorem pinEvent_trace (s : State) (e : PinEvent) : (s.pinEvent e).trace = s.trace ++ [e] := rfl

/-- A pin event takes no slot. -/
theorem effect_env (s : State) (e : PinEvent) : (s.effect e).env = s.env := by
  cases e <;> simp only [State.effect] <;> split <;> rfl

theorem effect_tick (s : State) (e : PinEvent) : (s.effect e).tick = s.tick := by
  cases e <;> simp only [State.effect] <;> split <;> rfl

@[simp] theorem pinEvent_env (s : State) (e : PinEvent) : (s.pinEvent e).env = s.env := effect_env s e
@[simp] theorem pinEvent_tick (s : State) (e : PinEvent) : (s.pinEvent e).tick = s.tick := effect_tick s e

/-- Only the rising edge of `we_n` reaches the device. -/
theorem effect_dev {s : State} {e : PinEvent} (h : e ≠ .we true) : (s.effect e).dev = s.dev := by
  cases e with
  | we b => cases b <;> simp_all [State.effect]
  | _ => simp only [State.effect] <;> split <;> rfl

/-- A pin event other than the end of a write pulse and the passing of a slot may be exchanged. -/
theorem pinEvent_passTime {s : State} {e : PinEvent} (h : e ≠ .we true) :
    s.passTime.pinEvent e = (s.pinEvent e).passTime := by
  have hs : (s.pinEvent e).slotAt 0 = s.slotAt 0 :=
    slotAt_congr (pinEvent_env s e) (pinEvent_tick s e) (congrArg Device.kind (effect_dev h)) 0
  unfold State.passTime
  rw [hs]
  cases e with
  | we b => cases b <;> simp_all [State.pinEvent, State.effect]
  | sck b => simp only [State.pinEvent, State.effect]; split <;> rfl
  | rckL b => simp only [State.pinEvent, State.effect]; split <;> rfl
  | rckH b => simp only [State.pinEvent, State.effect]; split <;> rfl
  | _ => rfl

@[simp] theorem pinEvents_nil (s : State) : s.pinEvents [] = s := rfl
theorem pinEvents_cons (s : State) (e : PinEvent) (es : List PinEvent) :
    s.pinEvents (e :: es) = (s.pinEvent e).pinEvents es := rfl

theorem pinEvents_append (s : State) (es fs : List PinEvent) :
    s.pinEvents (es ++ fs) = (s.pinEvents es).pinEvents fs := by
  induction es generalizing s with
  | nil => rfl
  | cons e es ih => exact ih (s.pinEvent e)

@[simp] theorem pinEvents_trace (s : State) (es : List PinEvent) : (s.pinEvents es).trace = s.trace ++ es := by
  induction es generalizing s with
  | nil => simp
  | cons e es ih => rw [pinEvents_cons, ih, pinEvent_trace]; simp

/-! ## Responses and acceptance -/

/-- The fields of a response (rule R104). -/
theorem responseWord_status (st : Status) (d : Byte) : (responseWord st d).extractLsb' 8 4 = statusCode st := by
  cases st <;> revert d <;> decide

theorem responseWord_data (st : Status) (d : Byte) : (responseWord st d).extractLsb' 0 8 = d := by
  cases st <;> revert d <;> decide

@[simp] theorem respond_rspWord (s : State) (st : Status) (d : Byte) :
    (s.respond st d).rspWord = responseWord st d := rfl
@[simp] theorem respond_rspValid (s : State) (st : Status) (d : Byte) : (s.respond st d).rspValid = true := rfl
@[simp] theorem respond_busy (s : State) (st : Status) (d : Byte) : (s.respond st d).busy = false := rfl
@[simp] theorem respond_dev (s : State) (st : Status) (d : Byte) : (s.respond st d).dev = s.dev := rfl
@[simp] theorem respond_trace (s : State) (st : Status) (d : Byte) : (s.respond st d).trace = s.trace := rfl
@[simp] theorem respond_env (s : State) (st : Status) (d : Byte) : (s.respond st d).env = s.env := rfl
@[simp] theorem respond_tick (s : State) (st : Status) (d : Byte) : (s.respond st d).tick = s.tick := rfl
@[simp] theorem respond_build (s : State) (st : Status) (d : Byte) : (s.respond st d).build = s.build := rfl
@[simp] theorem respond_dir (s : State) (st : Status) (d : Byte) : (s.respond st d).dir = s.dir := rfl
theorem raise_eq (s : State) (st : Status) (d : Byte) : s.raise st d = s.respond st d := rfl

@[simp] theorem accept_busy (s : State) : s.accept.busy = true := rfl
@[simp] theorem accept_commander (s : State) : s.accept.commander = s.commander.tail := rfl
@[simp] theorem accept_rspValid (s : State) : s.accept.rspValid = false := rfl
@[simp] theorem accept_env (s : State) : s.accept.env = s.env := rfl
@[simp] theorem accept_tick (s : State) : s.accept.tick = s.tick := rfl
@[simp] theorem accept_dev (s : State) : s.accept.dev = s.dev := rfl
@[simp] theorem accept_dir (s : State) : s.accept.dir = s.dir := rfl
@[simp] theorem accept_build (s : State) : s.accept.build = s.build := rfl
@[simp] theorem accept_trace (s : State) : s.accept.trace = s.trace := rfl

end Sys2Proof.Machine
end

