-- ==== Sys2Proof/Laws/Ops.lean ====
section
/-! SUPPORT. What the sequencing of an operation can do: one lemma per shared operation of Machine/Ops.lean. -/

namespace Sys2Proof.Machine

/-! ## Sequencing -/

@[simp] theorem done_apply {α : Type} (a : α) (s : State) : Op.done a s = .ok a s := rfl
@[simp] theorem update_apply (f : State → State) (s : State) : update f s = .ok () (f s) := rfl
@[simp] theorem delay_apply (n : Nat) (s : State) : delay n s = .ok () s := rfl
@[simp] theorem inOrder_nil (s : State) : inOrder [] s = .ok () s := rfl

theorem inOrder_cons (m : Op Unit) (ms : List (Op Unit)) :
    inOrder (m :: ms) = Op.andThen m (fun _ => inOrder ms) := rfl

theorem andThen_ok {α β : Type} {m : Op α} {k : α → Op β} {s s' : State} {a : α} (h : m s = .ok a s') :
    Op.andThen m k s = k a s' := by simp only [Op.andThen, h]

theorem andThen_abandoned {α β : Type} {m : Op α} {k : α → Op β} {s s' : State} (h : m s = .abandoned s') :
    Op.andThen m k s = .abandoned s' := by simp only [Op.andThen, h]

theorem andThen_assoc {α β γ : Type} (m : Op α) (k : α → Op β) (l : β → Op γ) :
    Op.andThen (Op.andThen m k) l = Op.andThen m (fun a => Op.andThen (k a) l) := by
  funext s; simp only [Op.andThen]; cases m s <;> rfl

theorem andThen_done (m : Op Unit) : Op.andThen m (fun _ => Op.done ()) = m := by
  funext s; simp only [Op.andThen]; cases m s <;> rfl

/-- The last piece of a sequence. -/
theorem inOrder_single (m : Op Unit) : inOrder [m] = m := andThen_done m

theorem inOrder_append (ms ns : List (Op Unit)) :
    inOrder (ms ++ ns) = Op.andThen (inOrder ms) (fun _ => inOrder ns) := by
  induction ms with
  | nil => rfl
  | cons m ms ih => rw [List.cons_append, inOrder_cons, inOrder_cons, andThen_assoc, ih]

/-- A sequence of sequences is one sequence. -/
theorem inOrder_flatMap {ι : Type} (f : ι → List (Op Unit)) (xs : List ι) :
    inOrder (xs.map (fun x => inOrder (f x))) = inOrder (xs.flatMap f) := by
  induction xs with
  | nil => rfl
  | cons x xs ih => rw [List.map_cons, inOrder_cons, ih, List.flatMap_cons, inOrder_append]

/-! ## One pin write -/

theorem emit_ok {s : State} {e : PinEvent} (h : (s.slotAt 0).rst = false) :
    emit e s = .ok () (s.passTime.pinEvent e) := by simp [emit, afterSlot, h]

theorem emit_reset {s : State} {e : PinEvent} (h : (s.slotAt 0).rst = true) :
    emit e s = .abandoned s.passTime.resetBlock := by simp [emit, afterSlot, h]

/-! ## A list of pin writes -/

/-- The pin writes of a list of events, in order. -/
def emits (es : List PinEvent) : Op Unit := inOrder (es.map emit)

@[simp] theorem emits_nil (s : State) : emits [] s = .ok () s := rfl

theorem emits_cons (e : PinEvent) (es : List PinEvent) :
    emits (e :: es) = Op.andThen (emit e) (fun _ => emits es) := rfl

theorem emits_append (es fs : List PinEvent) :
    emits (es ++ fs) = Op.andThen (emits es) (fun _ => emits fs) := by
  unfold emits; rw [List.map_append, inOrder_append]

/-- The first slot of the premise, and the rest of it. -/
theorem noResetFor_succ {s : State} {n : Nat} (h : s.NoResetFor (n + 1)) (e : PinEvent) :
    (s.slotAt 0).rst = false ∧ (s.passTime.pinEvent e).NoResetFor n := by
  refine ⟨h 0 (by omega), (noResetFor_congr (s := s.passTime) (by simp) n).mpr ?_⟩
  intro k hk; rw [slotAt_passTime]; exact h (k + 1) (by omega)

theorem pinEvent_passTimes {s : State} {e : PinEvent} (h : e ≠ .we true) (n : Nat) :
    (s.pinEvent e).passTimes n = (s.passTimes n).pinEvent e := by
  induction n generalizing s with
  | zero => rfl
  | succ n ih => rw [passTimes_succ, ← pinEvent_passTime h, ih, ← passTimes_succ]

/-- Pin writes that end no write pulse, without a reset: the slots may be taken first. -/
theorem emits_ok {es : List PinEvent} : ∀ {s : State}, (∀ e ∈ es, e ≠ .we true) → s.NoResetFor es.length →
    emits es s = .ok () ((s.passTimes es.length).pinEvents es) := by
  induction es with
  | nil => intro s _ _; rfl
  | cons e es ih =>
    intro s hw hr
    obtain ⟨h0, hr'⟩ := noResetFor_succ hr e
    have he : e ≠ .we true := hw e (by simp)
    rw [emits_cons, andThen_ok (emit_ok h0), ih (fun x hx => hw x (by simp [hx])) hr']
    rw [List.length_cons, pinEvent_passTimes he, ← passTimes_succ, pinEvents_cons]

/-! ## What a piece of an operation does, resets included -/

/-- Either no reset comes in the first `n` slots, or there is a first one. -/
theorem noResetFor_or (s : State) (n : Nat) :
    s.NoResetFor n ∨ ∃ k, k < n ∧ s.NoResetFor k ∧ (s.slotAt k).rst = true := by
  induction n with
  | zero => exact .inl (fun k hk => absurd hk (by omega))
  | succ n ih =>
    rcases ih with h | ⟨k, hk, h, hr⟩
    · by_cases hn : (s.slotAt n).rst = true
      · exact .inr ⟨n, by omega, h, hn⟩
      · refine .inl (fun k hk => ?_)
        by_cases hkn : k < n
        · exact h k hkn
        · obtain rfl : k = n := by omega
          simpa using hn
    · exact .inr ⟨k, by omega, h, hr⟩

/-- `m` run from `s` emits the events `es`, one slot each, and ends in `t`; a reset in one of those slots abandons it after the
events before. -/
structure Runs (m : Op Unit) (s : State) (es : List PinEvent) (t : State) : Prop where
  ends : s.NoResetFor es.length → m s = .ok () t
  stops : ∀ k, k < es.length → s.NoResetFor k → (s.slotAt k).rst = true →
    ∃ u : State, m s = .abandoned u.resetBlock ∧ u.trace = s.trace ++ es.take k
  env : t.env = s.env.drop es.length
  tick : t.tick = s.tick + es.length
  trace : t.trace = s.trace ++ es

theorem Runs.slotAt_rst {m : Op Unit} {s t : State} {es : List PinEvent} (h : Runs m s es t) (k : Nat) :
    (t.slotAt k).rst = (s.slotAt (es.length + k)).rst := by
  rw [← slotAt_passTimes]
  exact slotAt_rst_congr (by rw [h.env, passTimes_env]) k

/-- Nothing but registers of the engine. -/
theorem runs_update {f : State → State} {s : State} (he : (f s).env = s.env) (ht : (f s).tick = s.tick)
    (htr : (f s).trace = s.trace) : Runs (update f) s [] (f s) where
  ends _ := rfl
  stops k hk := absurd hk (by simp)
  env := by simp [he]
  tick := by simp [ht]
  trace := by simp [htr]

theorem runs_done (s : State) : Runs (Op.done ()) s [] s := runs_update (f := id) rfl rfl rfl

/-- One piece after another. -/
theorem Runs.andThen {m n : Op Unit} {s t u : State} {es fs : List PinEvent} (h : Runs m s es t)
    (h' : Runs n t fs u) : Runs (Op.andThen m (fun _ => n)) s (es ++ fs) u where
  ends hr := by
    rw [List.length_append] at hr
    rw [andThen_ok (h.ends (noResetFor_mono hr (by omega)))]
    exact h'.ends (fun k hk => by rw [h.slotAt_rst]; exact hr _ (by omega))
  stops k hk hr hrst := by
    rw [List.length_append] at hk
    by_cases hke : k < es.length
    · obtain ⟨v, hv, htr⟩ := h.stops k hke hr hrst
      exact ⟨v, andThen_abandoned hv, by rw [htr, List.take_append_of_le_length (by omega)]⟩
    · obtain ⟨v, hv, htr⟩ := h'.stops (k - es.length) (by omega)
        (fun j hj => by rw [h.slotAt_rst]; exact hr _ (by omega))
        (by rw [h.slotAt_rst]; rwa [show es.length + (k - es.length) = k by omega])
      refine ⟨v, ?_, ?_⟩
      · rw [andThen_ok (h.ends (noResetFor_mono hr (by omega)))]; exact hv
      · rw [htr, h.trace, List.append_assoc, List.take_append, List.take_of_length_le (by omega : es.length ≤ k)]
  env := by rw [h'.env, h.env, List.drop_drop, List.length_append]
  tick := by rw [h'.tick, h.tick, List.length_append]; omega
  trace := by rw [h'.trace, h.trace, List.append_assoc]

theorem runs_nil (s : State) : Runs (inOrder []) s [] s := runs_done s

theorem Runs.inOrder_cons {m : Op Unit} {ms : List (Op Unit)} {s t u : State} {es fs : List PinEvent}
    (h : Runs m s es t) (h' : Runs (inOrder ms) t fs u) : Runs (inOrder (m :: ms)) s (es ++ fs) u :=
  h.andThen h'

/-- One pin write. -/
theorem runs_emit (s : State) (e : PinEvent) : Runs (emit e) s [e] (s.passTime.pinEvent e) where
  ends hr := emit_ok (hr 0 (by simp))
  stops k hk _ hrst := by
    obtain rfl : k = 0 := by simpa using hk
    exact ⟨s.passTime, emit_reset hrst, by simp⟩
  env := by simp
  tick := by simp
  trace := by simp

/-- Pin writes that end no write pulse: the slots may be taken first. -/
theorem runs_emits (es : List PinEvent) : ∀ {s : State}, (∀ e ∈ es, e ≠ .we true) →
    Runs (emits es) s es ((s.passTimes es.length).pinEvents es) := by
  induction es with
  | nil => intro s _; exact runs_done s
  | cons e es ih =>
    intro s hw
    have h := (runs_emit s e).andThen (ih (s := s.passTime.pinEvent e) (fun x hx => hw x (by simp [hx])))
    rw [pinEvent_passTimes (hw e (by simp)), ← passTimes_succ] at h
    exact h

/-! ## What every piece of an operation keeps -/

/-- A property that everything an operation does to the state keeps; with `pulses = false`, an operation that never moves `we_n`
except in a reset. -/
structure Kept (pulses : Bool) (P : State → Prop) : Prop where
  passTime : ∀ s, P s → P s.passTime
  pinEvent : ∀ s e, (pulses = false → ∀ b, e ≠ .we b) → P s → P (s.pinEvent e)
  resetBlock : ∀ s, P s → P s.resetBlock

/-- Whatever way the operation ends, the property still holds. -/
def Op.Keeps {α : Type} (P : State → Prop) (m : Op α) : Prop := ∀ s, P s →
  match m s with
  | .ok _ t => P t
  | .raised _ _ t => P t
  | .abandoned t => P t
  | .fault _ => True
  | .refused _ => True

theorem keeps_done {α : Type} {P : State → Prop} (a : α) : Op.Keeps P (Op.done a) := fun _ h => h

theorem keeps_andThen {α β : Type} {P : State → Prop} {m : Op α} {k : α → Op β} (h : Op.Keeps P m)
    (hk : ∀ a, Op.Keeps P (k a)) : Op.Keeps P (Op.andThen m k) := by
  intro s hs
  have h1 := h s hs
  simp only [Op.andThen]
  cases hm : m s with
  | ok a t => rw [hm] at h1; exact hk a t h1
  | raised st i t => rw [hm] at h1; exact h1
  | abandoned t => rw [hm] at h1; exact h1
  | fault f => trivial
  | refused r => trivial

theorem keeps_inOrder {P : State → Prop} {ms : List (Op Unit)} (h : ∀ m ∈ ms, Op.Keeps P m) :
    Op.Keeps P (inOrder ms) := by
  induction ms with
  | nil => exact keeps_done ()
  | cons m ms ih => exact keeps_andThen (h m (by simp)) (fun _ => ih (fun x hx => h x (by simp [hx])))

theorem keeps_update {P : State → Prop} {f : State → State} (h : ∀ s, P s → P (f s)) : Op.Keeps P (update f) :=
  fun s hs => h s hs

theorem keeps_afterSlot {α : Type} {p : Bool} {P : State → Prop} (hP : Kept p P) {k : Op α} (h : Op.Keeps P k) :
    Op.Keeps P (afterSlot k) := by
  intro s hs
  simp only [afterSlot]
  by_cases hr : (s.slotAt 0).rst = true
  · simp only [hr, if_true]; exact hP.resetBlock _ (hP.passTime _ hs)
  · simp only [hr, Bool.false_eq_true, if_false]; exact h _ (hP.passTime _ hs)

theorem keeps_emit {p : Bool} {P : State → Prop} (hP : Kept p P) {e : PinEvent} (he : p = false → ∀ b, e ≠ .we b) :
    Op.Keeps P (emit e) := keeps_afterSlot hP (fun s hs => hP.pinEvent s e he hs)

theorem keeps_ite {α : Type} {P : State → Prop} {c : State → Prop} [DecidablePred c] {m n : Op α}
    (hm : Op.Keeps P m) (hn : Op.Keeps P n) : Op.Keeps P (fun s => if c s then m s else n s) := by
  intro s hs
  by_cases hc : c s
  · simp only [hc, if_true]; exact hm s hs
  · simp only [hc, if_false]; exact hn s hs

theorem keeps_sampleLines {p : Bool} {P : State → Prop} (hP : Kept p P) : Op.Keeps P sampleLines := by
  refine keeps_afterSlot hP (fun s hs => ?_)
  by_cases hc : s.contended = true
  · simp only [hc, if_true]
  · simp only [hc, Bool.false_eq_true, if_false]; exact hP.pinEvent _ _ (by simp) hs

theorem keeps_lookDeadline {p : Bool} {P : State → Prop} (hP : Kept p P) : Op.Keeps P lookDeadline := by
  refine keeps_ite (c := fun s => s.build.deadlineEn = true) (keeps_afterSlot hP (fun s hs => hs)) (keeps_done false)

/-- What a command leaves, whatever way it ends. -/
theorem perform_keeps {P : State → Prop} {m : Op Progress} (h : Op.Keeps P m)
    (hresp : ∀ s st d, P s → P (s.respond st d)) (hbusy : ∀ s, P s → P { s with busy := true })
    {s t : State} (hs : P s) (ht : perform m s = .next t) : P t := by
  have h1 := h s hs
  simp only [perform] at ht
  cases hm : m s with
  | ok a u =>
    rw [hm] at h1 ht
    cases a with
    | finished d => simp only [Host.Outcome.next.injEq] at ht; subst ht; exact hresp _ _ _ h1
    | polling => simp only [Host.Outcome.next.injEq] at ht; subst ht; exact hbusy _ h1
  | raised st i u =>
    rw [hm] at h1 ht
    simp only [Host.Outcome.next.injEq] at ht; subst ht; exact hresp _ _ _ h1
  | abandoned u => rw [hm] at h1 ht; simp only [Host.Outcome.next.injEq] at ht; subst ht; exact h1
  | fault f => rw [hm] at ht; cases ht
  | refused r => rw [hm] at ht; cases ht

end Sys2Proof.Machine
end

