-- ==== Sys2Proof/Laws/AddressBus.lean ====
section
/-! SUPPORT. The address bus: eight shifts move a whole byte, and SETA's pin writes have the closed form of rule R144. -/

namespace Sys2Proof.Machine

/-! ## Bits -/

/-- Eight shifts of a byte's bits, most-significant first, leave that byte (rule R142). -/
theorem shiftIn_msbFirst (o v : Byte) : (msbFirst v).foldl shiftIn o = v := by
  apply BitVec.eq_of_getLsbD_eq
  intro i hi
  simp only [msbFirst, List.foldl, shiftIn, BitVec.getLsbD_append, BitVec.getLsbD_extractLsb',
    BitVec.getLsbD_ofBool]
  interval_cases i <;> simp

theorem frame8_eq (a : Addr) : frame8 a = msbFirst (lowByte a) := by
  simp [frame8, msbFirst, lowByte, List.range, List.range.loop]

theorem frame16_eq (a : Addr) : frame16 a = msbFirst (highByte a) ++ msbFirst (lowByte a) := by
  simp [frame16, msbFirst, lowByte, highByte, List.range, List.range.loop]

/-- `high(a)[7] == 0` (rule R13). -/
theorem highByte_bit7 (a : Addr) : (highByte a).getLsbD 7 = false := by simp [highByte]

/-- The two parts of an address join to it (rules R13, R22). -/
theorem joinLines_parts (a : Addr) : joinLines (highByte a) (lowByte a) = a := by
  apply BitVec.eq_of_getLsbD_eq
  intro i hi
  simp only [joinLines, highByte, lowByte, BitVec.getLsbD_append, BitVec.getLsbD_extractLsb', BitVec.getLsbD_setWidth]
  interval_cases i <;> simp

/-! ## SETA as a list of pin writes -/

theorem shiftByte_eq (v : Byte) : shiftByte v = emits ((msbFirst v).flatMap shiftEvents) := by
  unfold shiftByte emits
  rw [List.map_flatMap, ← inOrder_flatMap]
  rfl

theorem setaSkip_eq (a : Addr) : setaSkip a = emits ((frame8 a).flatMap shiftEvents ++ latchLowEvents) := by
  rw [frame8_eq, emits_append, ← shiftByte_eq, setaSkip, inOrder_cons, inOrder_single]
  rfl

theorem setaFull_eq (a : Addr) : setaFull a =
    Op.andThen (emits ((frame16 a).flatMap shiftEvents ++ latchHighEvents ++ latchLowEvents))
      (fun _ => cacheHigh (highByte a)) := by
  rw [frame16_eq, List.flatMap_append, emits_append, emits_append, emits_append, ← shiftByte_eq, ← shiftByte_eq]
  simp only [andThen_assoc, setaFull, inOrder_cons]
  rfl

theorem shiftEvents_flat_noPulse (bs : List Bool) : ∀ e ∈ bs.flatMap shiftEvents, e ≠ .we true := by
  intro e he
  obtain ⟨b, _, hb⟩ := List.mem_flatMap.mp he
  simp only [shiftEvents, List.mem_cons, List.not_mem_nil, or_false] at hb
  rcases hb with rfl | rfl | rfl <;> simp

theorem setaEvents_noPulse (s : State) (a : Addr) : ∀ e ∈ setaEvents s a, e ≠ .we true := by
  intro e he
  unfold setaEvents at he
  split at he <;> simp only [List.mem_append] at he
  · rcases he with he | he
    · exact shiftEvents_flat_noPulse _ e he
    · simp only [latchLowEvents, List.mem_cons, List.not_mem_nil, or_false] at he
      rcases he with rfl | rfl <;> simp
  · rcases he with (he | he) | he
    · exact shiftEvents_flat_noPulse _ e he
    · simp only [latchHighEvents, List.mem_cons, List.not_mem_nil, or_false] at he
      rcases he with rfl | rfl <;> simp
    · simp only [latchLowEvents, List.mem_cons, List.not_mem_nil, or_false] at he
      rcases he with rfl | rfl <;> simp

/-- SETA emits 26 or 52 pin events (rule R148). -/
theorem setaEvents_length (s : State) (a : Addr) : (setaEvents s a).length = setaCost s a := by
  unfold setaEvents setaCost
  split <;> simp [frame8, frame16, shiftEvents, latchLowEvents, latchHighEvents, List.range, List.range.loop]

/-! ## What those pin writes do to the chain -/

theorem pinEvents_shiftBit {s : State} (h : s.sck = false) (b : Bool) :
    s.pinEvents (shiftEvents b) =
      { s with
        ser := b
        sl := shiftIn s.sl b
        sh := shiftIn s.sh (s.sl.getLsbD 7)
        trace := s.trace ++ shiftEvents b } := by
  cases s; subst h
  simp [shiftEvents, State.pinEvents, State.pinEvent, State.effect]

/-- One shift of the whole chain (high stage, low stage): the bit that leaves the low stage enters the high one (rule R21). -/
def shiftChain (c : Byte × Byte) (b : Bool) : Byte × Byte := (shiftIn c.1 (c.2.getLsbD 7), shiftIn c.2 b)

/-- After eight shifts the low stage holds the byte sent and the high stage the old low one (rule R142). -/
theorem shiftChain_msbFirst (h l v : Byte) : (msbFirst v).foldl shiftChain (h, l) = (l, v) := by
  refine Prod.ext ?_ ?_ <;>
  · apply BitVec.eq_of_getLsbD_eq
    intro i hi
    simp only [msbFirst, List.foldl, shiftChain, shiftIn, BitVec.getLsbD_append, BitVec.getLsbD_extractLsb',
      BitVec.getLsbD_ofBool]
    interval_cases i <;> simp

theorem pinEvents_shiftBits (bs : List Bool) : ∀ {s : State}, s.sck = false →
    s.pinEvents (bs.flatMap shiftEvents) =
      { s with
        ser := bs.getLastD s.ser
        sl := (bs.foldl shiftChain (s.sh, s.sl)).2
        sh := (bs.foldl shiftChain (s.sh, s.sl)).1
        trace := s.trace ++ bs.flatMap shiftEvents } := by
  induction bs with
  | nil => intro s _; simp
  | cons b bs ih =>
    intro s h
    rw [List.flatMap_cons, pinEvents_append, pinEvents_shiftBit h, ih (by exact h)]
    simp [shiftChain, List.getLast?_cons]

/-- A whole byte into the chain (rule R142). -/
theorem pinEvents_shiftByte {s : State} (h : s.sck = false) (v : Byte) :
    s.pinEvents ((msbFirst v).flatMap shiftEvents) =
      { s with
        ser := v.getLsbD 0
        sl := v
        sh := s.sl
        trace := s.trace ++ (msbFirst v).flatMap shiftEvents } := by
  rw [pinEvents_shiftBits _ h, shiftChain_msbFirst]
  rfl

theorem pinEvents_latchLow {s : State} (h : s.rckL = false) :
    s.pinEvents latchLowEvents = { s with ql := s.sl, trace := s.trace ++ latchLowEvents } := by
  cases s; subst h
  simp [latchLowEvents, State.pinEvents, State.pinEvent, State.effect]

theorem pinEvents_latchHigh {s : State} (h : s.rckH = false) :
    s.pinEvents latchHighEvents = { s with qh := s.sh, trace := s.trace ++ latchHighEvents } := by
  cases s; subst h
  simp [latchHighEvents, State.pinEvents, State.pinEvent, State.effect]

/-- The skip path's pin writes (rules R144, R147). -/
theorem pinEvents_setaSkip {s : State} (hc : s.sck = false) (hl : s.rckL = false) (a : Addr)
    (hk : skipsHigh s a = true) : s.pinEvents (setaEvents s a) = s.afterSetaSkip a := by
  have he : setaEvents s a = (frame8 a).flatMap shiftEvents ++ latchLowEvents := by simp [setaEvents, hk]
  rw [State.afterSetaSkip, he, frame8_eq, pinEvents_append, pinEvents_shiftByte hc, pinEvents_latchLow (by exact hl)]
  simp [lowByte]

/-- The full path's pin writes and the cache (rules R144, R146). -/
theorem pinEvents_setaFull {s : State} (hc : s.sck = false) (hl : s.rckL = false) (hh : s.rckH = false) (a : Addr)
    (hk : skipsHigh s a = false) :
    { s.pinEvents (setaEvents s a) with lastHigh := highByte a, lastHighValid := true } = s.afterSetaFull a := by
  have he : setaEvents s a = (frame16 a).flatMap shiftEvents ++ latchHighEvents ++ latchLowEvents := by
    simp [setaEvents, hk]
  rw [State.afterSetaFull, he, frame16_eq, List.flatMap_append, pinEvents_append, pinEvents_append, pinEvents_append,
    pinEvents_shiftByte hc, pinEvents_shiftByte (by exact hc), pinEvents_latchHigh (by exact hh),
    pinEvents_latchLow (by exact hl)]
  simp [lowByte]

/-! ## SETA -/

theorem skipsHigh_passTimes (s : State) (n : Nat) (a : Addr) : skipsHigh (s.passTimes n) a = skipsHigh s a := by
  simp [skipsHigh]

theorem setaEvents_passTimes (s : State) (n : Nat) (a : Addr) : setaEvents (s.passTimes n) a = setaEvents s a := by
  simp [setaEvents, skipsHigh_passTimes]

theorem setaCost_passTimes (s : State) (n : Nat) (a : Addr) : setaCost (s.passTimes n) a = setaCost s a := by
  simp [setaCost, skipsHigh_passTimes]

/-- Everything SETA can do (rule R144). -/
theorem seta_runs {s : State} (hc : s.sck = false) (hl : s.rckL = false) (hh : s.rckH = false) (a : Addr) :
    Runs (seta a) s (setaEvents s a) ((s.passTimes (setaCost s a)).afterSeta a) := by
  have hsk := skipsHigh_passTimes s (setaCost s a) a
  have h := runs_emits (setaEvents s a) (setaEvents_noPulse s a) (s := s)
  rw [setaEvents_length, ← setaEvents_passTimes s (setaCost s a) a] at h
  have hfun : ∀ m : Op Unit, seta a s = m s → ∀ {es t}, Runs m s es t → Runs (seta a) s es t :=
    fun m hm es t hr => ⟨by rw [hm]; exact hr.ends, by rw [hm]; exact hr.stops, hr.env, hr.tick, hr.trace⟩
  by_cases hk : skipsHigh s a = true
  · have he : seta a s = emits (setaEvents s a) s := by
      simp only [seta, hk, if_true]; rw [setaSkip_eq]; simp [setaEvents, hk]
    refine hfun _ he ?_
    rw [State.afterSeta, hsk, if_pos hk, ← pinEvents_setaSkip (by simpa) (by simpa) a (by rw [hsk, hk])]
    rw [setaEvents_passTimes] at h ⊢
    exact h
  · have hk : skipsHigh s a = false := by simpa using hk
    have he : seta a s = Op.andThen (emits (setaEvents s a)) (fun _ => cacheHigh (highByte a)) s := by
      simp only [seta, hk, Bool.false_eq_true, if_false]; rw [setaFull_eq]; simp [setaEvents, hk]
    refine hfun _ he ?_
    rw [State.afterSeta, hsk, hk, if_neg (by simp),
      ← pinEvents_setaFull (by simpa) (by simpa) (by simpa) a (by rw [hsk, hk])]
    rw [setaEvents_passTimes] at h ⊢
    have h2 := h.andThen (runs_update (f := fun s => { s with lastHigh := highByte a, lastHighValid := true })
      rfl rfl rfl)
    rw [List.append_nil] at h2
    exact h2

theorem keeps_shiftByte {p : Bool} {P : State → Prop} (hP : Kept p P) (v : Byte) : Op.Keeps P (shiftByte v) := by
  refine keeps_inOrder (fun m hm => ?_)
  obtain ⟨b, _, rfl⟩ := List.mem_map.mp hm
  refine keeps_inOrder (fun m hm => ?_)
  simp only [List.mem_cons, List.not_mem_nil, or_false] at hm
  rcases hm with rfl | rfl | rfl <;> exact keeps_emit hP (by simp)

/-- SETA keeps what pin events, time and a cached high byte keep. -/
theorem keeps_seta {p : Bool} {P : State → Prop} (hP : Kept p P)
    (hc : ∀ s h, P s → P { s with lastHigh := h, lastHighValid := true }) (a : Addr) : Op.Keeps P (seta a) := by
  have hl : Op.Keeps P latchLow := keeps_inOrder (fun m hm => by
    simp only [List.mem_cons, List.not_mem_nil, or_false] at hm
    rcases hm with rfl | rfl <;> exact keeps_emit hP (by simp))
  have hh : Op.Keeps P latchHigh := keeps_inOrder (fun m hm => by
    simp only [List.mem_cons, List.not_mem_nil, or_false] at hm
    rcases hm with rfl | rfl <;> exact keeps_emit hP (by simp))
  refine keeps_ite (c := fun s => skipsHigh s a = true) (keeps_inOrder (fun m hm => ?_)) (keeps_inOrder (fun m hm => ?_))
  · simp only [List.mem_cons, List.not_mem_nil, or_false] at hm
    rcases hm with rfl | rfl
    · exact keeps_shiftByte hP _
    · exact hl
  · simp only [List.mem_cons, List.not_mem_nil, or_false] at hm
    rcases hm with rfl | rfl | rfl | rfl | rfl
    · exact keeps_shiftByte hP _
    · exact keeps_shiftByte hP _
    · exact hh
    · exact hl
    · exact keeps_update (fun s hs => hc s _ hs)

end Sys2Proof.Machine
end

