-- ==== Sys2Proof/Laws/DataBus.lean ====
section
/-! SUPPORT. The data bus: everything SETD, DWR and DRD can do. -/

namespace Sys2Proof.Machine

/-! ## SETD -/

theorem setdEvents_length (s : State) (m : Direction) : (setdEvents s m).length = setdCost s m := by
  unfold setdEvents setdCost
  split
  · rfl
  · cases m <;> rfl

theorem setdEvents_noPulse (s : State) (m : Direction) : ∀ e ∈ setdEvents s m, e ≠ .we true := by
  intro e he
  unfold setdEvents at he
  split at he
  · simp at he
  · cases m <;> simp only [List.mem_cons, List.not_mem_nil, or_false] at he <;>
      rcases he with rfl | rfl <;> simp

theorem setdEvents_passTimes (s : State) (n : Nat) (m : Direction) :
    setdEvents (s.passTimes n) m = setdEvents s m := by simp [setdEvents]

theorem setdCost_passTimes (s : State) (n : Nat) (m : Direction) : setdCost (s.passTimes n) m = setdCost s m := by
  simp [setdCost]

theorem setd_same {s : State} {m : Direction} (h : s.dir = m) : setd m s = .ok () s := by simp [setd, h]

/-- The pin writes of a turn, and the cache (rule R161). -/
theorem pinEvents_setd {s : State} {m : Direction} (h : s.dir ≠ m) :
    { s.pinEvents (setdEvents s m) with dir := m } = s.afterSetd m := by
  cases m <;> simp [State.afterSetd, setdEvents, h, State.pinEvents, State.pinEvent, State.effect]

theorem turnBus_eq (m : Direction) (s : State) (h : s.dir ≠ m) :
    turnBus m = Op.andThen (emits (setdEvents s m)) (fun _ => cacheDirection m) := by
  cases m <;> simp only [turnBus, setdEvents, if_neg h, emits_cons, inOrder_cons, andThen_assoc] <;>
    rfl

/-- Everything SETD can do (rule R161). -/
theorem setd_runs (s : State) (m : Direction) :
    Runs (setd m) s (setdEvents s m) ((s.passTimes (setdCost s m)).afterSetd m) := by
  have hfun : ∀ n : Op Unit, setd m s = n s → ∀ {es t}, Runs n s es t → Runs (setd m) s es t :=
    fun n hn es t hr => ⟨by rw [hn]; exact hr.ends, by rw [hn]; exact hr.stops, hr.env, hr.tick, hr.trace⟩
  by_cases h : s.dir = m
  · have h1 : (s.passTimes (setdCost s m)).afterSetd m = s := by simp [setdCost, h, State.afterSetd]
    have h2 : setdEvents s m = [] := by simp [setdEvents, h]
    rw [h1, h2]
    exact hfun _ (setd_same h) (runs_done s)
  · have hs : setd m s = Op.andThen (emits (setdEvents s m)) (fun _ => cacheDirection m) s := by
      simp only [setd, if_neg h]; rw [turnBus_eq m s h]
    refine hfun _ hs ?_
    have hr := (runs_emits (setdEvents s m) (setdEvents_noPulse s m) (s := s)).andThen
      (runs_update (f := fun s => { s with dir := m }) rfl rfl rfl)
    rw [setdEvents_length, List.append_nil, ← setdEvents_passTimes s (setdCost s m) m, pinEvents_setd (by simpa using h),
      setdEvents_passTimes] at hr
    exact hr

/-- SETD ends in the mode asked for. -/
@[simp] theorem afterSetd_dir (s : State) (m : Direction) : (s.afterSetd m).dir = m := by
  unfold State.afterSetd
  split
  · assumption
  · cases m <;> rfl

/-! ## DWR -/

/-- Everything DWR can do with the host driving (rule R165). -/
theorem dwr_runs {s : State} (h : s.dir = .hostDrives) (d : Byte) :
    Runs (dwr d) s [.dout d] ((s.passTimes 1).afterDwr d) := by
  have hs : dwr d s = Op.andThen (emit (.dout d)) (fun _ => recordPollBit d) s := by
    simp only [dwr, if_pos h, inOrder_cons]; rfl
  have hr := (runs_emit s (.dout d)).andThen
    (runs_update (f := fun s => { s with pollBit := pollBitOf d }) rfl rfl rfl)
  exact ⟨by rw [hs]; exact hr.ends, by rw [hs]; exact hr.stops, hr.env, hr.tick, hr.trace⟩

/-- DWR in the wrong direction (rules R166, R233). -/
theorem dwr_wrong {s : State} (h : s.dir ≠ .hostDrives) (d : Byte) :
    dwr d s = if s.build.safetyBuild then .raised .busContentionRisk 0x00#8 s else .refused .dwrWrongDirection := by
  simp [dwr, h, wrongDirection]

/-! ## DRD -/

/-- Everything DRD can do with the device driving (rule R168). -/
theorem drd_cases {s : State} (h : s.dir = .deviceDrives) (hc : s.contended = false) :
    (s.NoResetFor 1 ∧ drd s = .ok (s.passTimes 1).dataLines ((s.passTimes 1).afterSample (s.passTimes 1).dataLines)) ∨
    drd s = .abandoned s.passTime.resetBlock := by
  have hs : drd s = sampleLines s := by simp only [drd, if_pos h]
  rw [hs]
  by_cases h0 : (s.slotAt 0).rst = true
  · right; simp [sampleLines, afterSlot, h0]
  · have h0 : (s.slotAt 0).rst = false := by simpa using h0
    have hc' : s.passTime.contended = false := by simpa [State.contended] using hc
    left
    refine ⟨fun k hk => ?_, ?_⟩
    · obtain rfl : k = 0 := by omega
      exact h0
    · simp only [sampleLines, afterSlot, h0, hc', Bool.false_eq_true, if_false]
      rfl

/-- DRD in the wrong direction (rules R169, R233). -/
theorem drd_wrong {s : State} (h : s.dir ≠ .deviceDrives) :
    drd s = if s.build.safetyBuild then .raised .busContentionRisk 0x00#8 s else .refused .drdWrongDirection := by
  simp [drd, h, wrongDirection]

/-! ## What they keep -/

theorem keeps_setd {p : Bool} {P : State → Prop} (hP : Kept p P) (hd : ∀ s m, P s → P { s with dir := m }) (m : Direction) :
    Op.Keeps P (setd m) := by
  refine keeps_ite (c := fun s => s.dir = m) (keeps_done ()) ?_
  cases m <;> refine keeps_inOrder (fun n hn => ?_) <;>
    simp only [List.mem_cons, List.not_mem_nil, or_false] at hn <;> rcases hn with rfl | rfl | rfl
  all_goals first
    | exact keeps_emit hP (by simp)
    | exact keeps_update (fun s hs => hd s _ hs)

theorem keeps_wrongDirection {α : Type} {P : State → Prop} (r : Refusal) : Op.Keeps P (wrongDirection (α := α) r) := by
  intro s hs
  simp only [wrongDirection]
  split <;> rename_i h <;> split at h <;> simp_all

theorem keeps_dwr {p : Bool} {P : State → Prop} (hP : Kept p P) (hb : ∀ s b, P s → P { s with pollBit := b }) (d : Byte) :
    Op.Keeps P (dwr d) := by
  refine keeps_ite (c := fun s => s.dir = .hostDrives) (keeps_inOrder (fun n hn => ?_)) (keeps_wrongDirection _)
  simp only [List.mem_cons, List.not_mem_nil, or_false] at hn
  rcases hn with rfl | rfl
  · exact keeps_emit hP (by simp)
  · exact keeps_update (fun s hs => hb s _ hs)

theorem keeps_drd {p : Bool} {P : State → Prop} (hP : Kept p P) : Op.Keeps P drd :=
  keeps_ite (c := fun s => s.dir = .deviceDrives) (keeps_sampleLines hP) (keeps_wrongDirection _)

end Sys2Proof.Machine
end

