-- ==== Sys2Proof/Laws/Memory.lean ====
section
/-! SUPPORT. The memory's laws: read after write, everything else unchanged, the canonical form kept, and equal bytes are equal
lists. -/

namespace Sys2Proof.Machine

theorem wfFrom_mono {m : Memory} : ∀ {lo hi : Nat}, hi ≤ lo → Memory.wfFrom lo m = true → Memory.wfFrom hi m = true := by
  cases m with
  | nil => intros; rfl
  | cons c rest =>
    intro lo hi h hw
    obtain ⟨a, v⟩ := c
    simp only [Memory.wfFrom, Bool.and_eq_true, decide_eq_true_eq] at hw ⊢
    exact ⟨⟨⟨by omega, hw.1.1.2⟩, hw.1.2⟩, hw.2⟩

/-- No cell below the bound is listed. -/
theorem read_below {m : Memory} : ∀ {lo a : Nat}, Memory.wfFrom lo m = true → a < lo →
    Memory.read m a = Config.unlistedByte := by
  induction m with
  | nil => intros; rfl
  | cons c rest ih =>
    intro lo a hw h
    obtain ⟨b, v⟩ := c
    simp only [Memory.wfFrom, Bool.and_eq_true, decide_eq_true_eq] at hw
    have hb : b ≠ a := by omega
    simp only [Memory.read, if_neg hb]
    exact ih hw.2 (by omega)

theorem read_put_same (m : Memory) (a : Nat) (v : Byte) : Memory.read (Memory.put m a v) a = v := by
  induction m with
  | nil => simp [Memory.put, Memory.read]
  | cons c rest ih =>
    obtain ⟨b, w⟩ := c
    simp only [Memory.put]
    split
    · simp [Memory.read]
    · split
      · simp [Memory.read]
      · rename_i h1 h2
        simp [Memory.read, Ne.symm h2, ih]

theorem read_put_other (m : Memory) {a b : Nat} (v : Byte) (h : b ≠ a) :
    Memory.read (Memory.put m a v) b = Memory.read m b := by
  induction m with
  | nil => simp [Memory.put, Memory.read, Ne.symm h]
  | cons c rest ih =>
    obtain ⟨x, w⟩ := c
    simp only [Memory.put]
    split
    · simp [Memory.read, Ne.symm h]
    · split
      · rename_i _ h2
        subst h2
        simp [Memory.read, Ne.symm h]
      · simp only [Memory.read, ih]

theorem read_erase_same {m : Memory} : ∀ {lo : Nat} (a : Nat), Memory.wfFrom lo m = true →
    Memory.read (Memory.erase m a) a = Config.unlistedByte := by
  induction m with
  | nil => intros; rfl
  | cons c rest ih =>
    intro lo a hw
    obtain ⟨b, w⟩ := c
    simp only [Memory.wfFrom, Bool.and_eq_true, decide_eq_true_eq] at hw
    simp only [Memory.erase]
    split
    · rename_i h; subst h; exact read_below hw.2 (by omega)
    · rename_i h; simp only [Memory.read, if_neg h]; exact ih a hw.2

theorem read_erase_other (m : Memory) {a b : Nat} (h : b ≠ a) :
    Memory.read (Memory.erase m a) b = Memory.read m b := by
  induction m with
  | nil => rfl
  | cons c rest ih =>
    obtain ⟨x, w⟩ := c
    simp only [Memory.erase]
    split
    · rename_i hx; subst hx; simp [Memory.read, Ne.symm h]
    · simp only [Memory.read, ih]

/-- A read after a write to the same place gives the value written. -/
theorem read_write_same {m : Memory} (hw : Memory.wf m = true) (a : Nat) (v : Byte) :
    Memory.read (Memory.write m a v) a = v := by
  unfold Memory.write
  split
  · rename_i h; rw [h]; exact read_erase_same a hw
  · exact read_put_same m a v

/-- A write leaves every other place alone. -/
theorem read_write_other (m : Memory) {a b : Nat} (v : Byte) (h : b ≠ a) :
    Memory.read (Memory.write m a v) b = Memory.read m b := by
  unfold Memory.write
  split
  · exact read_erase_other m h
  · exact read_put_other m v h

theorem wfFrom_put {m : Memory} : ∀ {lo a : Nat} {v : Byte}, Memory.wfFrom lo m = true → lo ≤ a →
    a < Config.memSize → v ≠ Config.unlistedByte → Memory.wfFrom lo (Memory.put m a v) = true := by
  induction m with
  | nil => intro lo a v _ h1 h2 h3; simp [Memory.put, Memory.wfFrom, h1, h2, h3]
  | cons c rest ih =>
    intro lo a v hw h1 h2 h3
    obtain ⟨b, w⟩ := c
    have hw' := hw
    simp only [Memory.wfFrom, Bool.and_eq_true, decide_eq_true_eq, bne_iff_ne] at hw
    simp only [Memory.put]
    split
    · rename_i hab
      simp only [Memory.wfFrom, Bool.and_eq_true, decide_eq_true_eq, bne_iff_ne]
      exact ⟨⟨⟨h1, h2⟩, h3⟩, ⟨⟨⟨by omega, hw.1.1.2⟩, hw.1.2⟩, hw.2⟩⟩
    · split
      · rename_i _ hab; subst hab
        simp only [Memory.wfFrom, Bool.and_eq_true, decide_eq_true_eq, bne_iff_ne]
        exact ⟨⟨⟨h1, h2⟩, h3⟩, hw.2⟩
      · simp only [Memory.wfFrom, Bool.and_eq_true, decide_eq_true_eq, bne_iff_ne]
        exact ⟨⟨⟨hw.1.1.1, hw.1.1.2⟩, hw.1.2⟩, ih hw.2 (by omega) h2 h3⟩

theorem wfFrom_erase {m : Memory} : ∀ {lo a : Nat}, Memory.wfFrom lo m = true →
    Memory.wfFrom lo (Memory.erase m a) = true := by
  induction m with
  | nil => intros; rfl
  | cons c rest ih =>
    intro lo a hw
    obtain ⟨b, w⟩ := c
    simp only [Memory.wfFrom, Bool.and_eq_true, decide_eq_true_eq, bne_iff_ne] at hw
    simp only [Memory.erase]
    split
    · exact wfFrom_mono (by omega) hw.2
    · simp only [Memory.wfFrom, Bool.and_eq_true, decide_eq_true_eq, bne_iff_ne]
      exact ⟨hw.1, ih hw.2⟩

/-- Every write inside the device keeps the canonical form. -/
theorem wf_write {m : Memory} (hw : Memory.wf m = true) {a : Nat} (v : Byte) (ha : a < Config.memSize) :
    Memory.wf (Memory.write m a v) = true := by
  unfold Memory.write
  split
  · exact wfFrom_erase hw
  · rename_i h; exact wfFrom_put hw (by omega) ha h

end Sys2Proof.Machine
end

