-- ==== Sys2Proof/Laws/Device.lean ====
section
/-! SUPPORT. The device: what its own steps and a write pulse do, and what they keep (20_memory.md rules R72 to R76, R84). -/

namespace Sys2Proof.Machine

/-! ## The device's own steps -/

/-- Everything one slot can do to the device (rule R84). -/
theorem environment_cases (d : Device) (x : EnvSlot) :
    d.environment x = d ∨
    (d.phase = .loading ∧ x.windowElapse = true ∧ d.environment x = d.windowElapse) ∨
    (d.phase = .programming ∧ x.programDone = true ∧ d.environment x = d.programDone) ∨
    (d.phase = .loading ∧ d.pending = true ∧ x.windowElapse = true ∧ x.programDone = true ∧
      d.environment x = d.windowElapse.programDone) := by
  unfold Device.environment
  cases hp : d.phase <;> cases hx : x.windowElapse <;> cases hy : x.programDone <;> cases hq : d.pending <;>
    simp [hp, hq, Device.windowElapse]

@[simp] theorem environment_mem (d : Device) (x : EnvSlot) : (d.environment x).mem = d.mem := by
  unfold Device.environment; dsimp only; split <;> split <;> rfl
@[simp] theorem environment_sdp (d : Device) (x : EnvSlot) : (d.environment x).sdp = d.sdp := by
  unfold Device.environment; dsimp only; split <;> split <;> rfl
@[simp] theorem environment_last7 (d : Device) (x : EnvSlot) : (d.environment x).last7 = d.last7 := by
  unfold Device.environment; dsimp only; split <;> split <;> rfl

/-- An idle device takes no step of its own. -/
theorem environment_idle {d : Device} (h : d.phase = .idle) (x : EnvSlot) : d.environment x = d := by
  simp [Device.environment, h]

/-- Without `WindowElapse` a loading device stays as it is. -/
theorem environment_loading {d : Device} (h : d.phase = .loading) {x : EnvSlot} (hx : x.windowElapse = false) :
    d.environment x = d := by simp [Device.environment, h, hx]

theorem environment_coherent {d : Device} (h : d.Coherent) (x : EnvSlot) : (d.environment x).Coherent := by
  unfold Device.Coherent at *
  rcases environment_cases d x with he | ⟨hp, _, he⟩ | ⟨hp, _, he⟩ | ⟨hp, hq, _, _, he⟩ <;> rw [he]
  · exact h
  · cases hq : d.pending <;> simp [Device.windowElapse, hq]
  · simp only [Device.programDone, reduceCtorEq, false_implies, and_true, true_implies]
    exact ⟨trivial, (h.2 hp).2⟩
  · simp [Device.windowElapse, Device.programDone]

/-! ## A write pulse -/

/-- A pulse while Programming is ignored (rule R72). -/
theorem writePulse_programming {d : Device} (h : d.phase = .programming) (a : Addr) (v : Byte) :
    d.writePulse a v = d := by simp [Device.writePulse, h]

theorem recognise_fields (d : Device) (a : Addr) (v : Byte) :
    (d.recognise a v).mem = d.mem ∧ (d.recognise a v).pending = d.pending ∧
    (d.recognise a v).last7 = d.last7 ∧ (d.recognise a v).kind = d.kind ∧ (d.recognise a v).phase = d.phase := by
  unfold Device.recognise; split <;> exact ⟨rfl, rfl, rfl, rfl, rfl⟩

/-- Everything a pulse does otherwise (rules R73, R75). -/
theorem writePulse_fields {d : Device} (h : d.phase ≠ .programming) (a : Addr) (v : Byte) :
    (d.writePulse a v).phase = .loading ∧
    (d.writePulse a v).mem = (if d.sdp then d.mem else Memory.write d.mem a.toNat v) ∧
    (d.writePulse a v).pending = (if d.sdp then d.pending else true) ∧
    (d.writePulse a v).last7 = (if d.sdp then d.last7 else v.getLsbD 7) ∧
    (d.writePulse a v).cmd = ((d.store a v).recognise a v).cmd ∧
    (d.writePulse a v).sdp = ((d.store a v).recognise a v).sdp := by
  have hb : (d.phase == .programming) = false := by simpa using h
  obtain ⟨h1, h2, h3, _, _⟩ := recognise_fields (d.store a v) a v
  simp only [Device.writePulse, hb, Bool.false_eq_true, if_false]
  refine ⟨trivial, ?_, ?_, ?_, trivial, trivial⟩
  · rw [h1]; unfold Device.store; split <;> rfl
  · rw [h2]; unfold Device.store; split <;> rfl
  · rw [h3]; unfold Device.store; split <;> rfl

@[simp] theorem writePulse_kind (d : Device) (a : Addr) (v : Byte) : (d.writePulse a v).kind = d.kind := by
  unfold Device.writePulse
  split
  · rfl
  · obtain ⟨_, _, _, h, _⟩ := recognise_fields (d.store a v) a v
    show ((d.store a v).recognise a v).kind = d.kind
    rw [h]; unfold Device.store; split <;> rfl

theorem writePulse_coherent {d : Device} (h : d.Coherent) (a : Addr) (v : Byte) : (d.writePulse a v).Coherent := by
  by_cases hp : d.phase = .programming
  · rw [writePulse_programming hp]; exact h
  · unfold Device.Coherent
    rw [(writePulse_fields hp a v).1]
    simp

/-- An address of the device is inside it (rule R60). -/
theorem addr_inside (a : Addr) : a.toNat < Config.memSize := a.isLt

theorem writePulse_wf {d : Device} (h : Memory.wf d.mem = true) (a : Addr) (v : Byte) :
    Memory.wf (d.writePulse a v).mem = true := by
  by_cases hp : d.phase = .programming
  · rw [writePulse_programming hp]; exact h
  · rw [(writePulse_fields hp a v).2.1]
    split
    · exact h
    · exact wf_write h v (addr_inside a)

/-- A pulse changes at most the cell it is addressed to. -/
theorem writePulse_read_other (d : Device) {a : Addr} (v : Byte) {b : Nat} (hb : b ≠ a.toNat) :
    Memory.read (d.writePulse a v).mem b = Memory.read d.mem b := by
  by_cases hp : d.phase = .programming
  · rw [writePulse_programming hp]
  · rw [(writePulse_fields hp a v).2.1]
    split
    · rfl
    · exact read_write_other _ v hb

/-! ## Over many slots -/

@[simp] theorem passTimes_mem (s : State) (n : Nat) : (s.passTimes n).dev.mem = s.dev.mem := by
  induction n generalizing s with
  | zero => rfl
  | succ n ih => rw [passTimes_succ, ih]; simp

@[simp] theorem passTimes_sdp (s : State) (n : Nat) : (s.passTimes n).dev.sdp = s.dev.sdp := by
  induction n generalizing s with
  | zero => rfl
  | succ n ih => rw [passTimes_succ, ih]; simp

@[simp] theorem passTimes_last7 (s : State) (n : Nat) : (s.passTimes n).dev.last7 = s.dev.last7 := by
  induction n generalizing s with
  | zero => rfl
  | succ n ih => rw [passTimes_succ, ih]; simp

@[simp] theorem passTimes_kind (s : State) (n : Nat) : (s.passTimes n).dev.kind = s.dev.kind := by
  induction n generalizing s with
  | zero => rfl
  | succ n ih => rw [passTimes_succ, ih]; simp

theorem passTimes_dev_idle {s : State} (h : s.dev.phase = .idle) (n : Nat) : (s.passTimes n).dev = s.dev := by
  induction n generalizing s with
  | zero => rfl
  | succ n ih =>
    have he : s.passTime.dev = s.dev := environment_idle h _
    rw [passTimes_succ, ih (by rw [he]; exact h), he]

/-- Within the window a loading device stays as it is (rule R85, `SeqInWindow`). -/
theorem passTimes_dev_loading {s : State} (h : s.dev.phase = .loading) {n : Nat} (hw : s.NoElapseFor n) :
    (s.passTimes n).dev = s.dev := by
  induction n generalizing s with
  | zero => rfl
  | succ n ih =>
    have he : s.passTime.dev = s.dev := environment_loading h (hw 0 (by omega))
    rw [passTimes_succ, ih (by rw [he]; exact h) (fun k hk => by rw [slotAt_passTime]; exact hw (k + 1) (by omega)), he]

theorem passTimes_coherent {s : State} (h : s.dev.Coherent) (n : Nat) : (s.passTimes n).dev.Coherent := by
  induction n generalizing s with
  | zero => exact h
  | succ n ih => exact ih (s := s.passTime) (environment_coherent h _)

end Sys2Proof.Machine
end

