-- ==== Sys2Proof/Laws/CycleController.lean ====
section
/-! SUPPORT. The write pulse, WRB and the addressing that WRB and RDB share: everything they can do. -/

namespace Sys2Proof.Machine

/-! ## The write pulse -/

/-- With the host driving the lines the pulse delivers `A` and `dout` to the device (rules R45, R67). -/
theorem pulse_runs {s : State} (hw : s.weN = true) (hd : s.ddir = .outputs) (ho : s.oeN = true) :
    Runs writeEnablePulse s [.we false, .we true] ((s.passTimes 2).afterPulse s.addressLines s.dout) := by
  have h1 := runs_emit s (.we false)
  have h2 := runs_emit (s.passTime.pinEvent (.we false)) (.we true)
  have h := h1.inOrder_cons ((runs_done _).inOrder_cons (h2.inOrder_cons (runs_nil _)))
  have he : (s.passTime.pinEvent (.we false)).passTime.pinEvent (.we true) =
      (s.passTimes 2).afterPulse s.addressLines s.dout := by
    rw [← pinEvent_passTime (by simp)]
    simp [State.pinEvent, State.effect, State.afterPulse, State.dataLines, State.addressLines, hw, hd, ho,
      passTimes_succ]
  rw [he] at h
  exact h

/-! ## Addressing -/

/-- SETA does not touch the direction (rule R144). -/
theorem afterSeta_fields (s : State) (a : Addr) :
    (s.afterSeta a).dir = s.dir ∧ (s.afterSeta a).ddir = s.ddir ∧ (s.afterSeta a).oeN = s.oeN ∧
    (s.afterSeta a).weN = s.weN ∧ (s.afterSeta a).dout = s.dout ∧ (s.afterSeta a).pollBit = s.pollBit ∧
    (s.afterSeta a).sck = s.sck ∧ (s.afterSeta a).rckL = s.rckL ∧ (s.afterSeta a).rckH = s.rckH ∧
    (s.afterSeta a).dev = s.dev ∧ (s.afterSeta a).env = s.env ∧ (s.afterSeta a).tick = s.tick ∧
    (s.afterSeta a).build = s.build ∧ (s.afterSeta a).draws = s.draws := by
  unfold State.afterSeta State.afterSetaSkip State.afterSetaFull
  split <;> exact ⟨rfl, rfl, rfl, rfl, rfl, rfl, rfl, rfl, rfl, rfl, rfl, rfl, rfl, rfl⟩

/-- After SETA the address lines carry the operand, if the cache told the truth before (rules R140, R147). -/
theorem afterSeta_addressLines {s : State} (hc : s.lastHighValid = true → s.qh = s.lastHigh) (a : Addr) :
    (s.afterSeta a).addressLines = a := by
  unfold State.afterSeta
  split
  · rename_i h
    simp only [skipsHigh, Bool.and_eq_true, beq_iff_eq] at h
    simp only [State.afterSetaSkip, State.addressLines, hc h.1, h.2, joinLines_parts]
  · simp only [State.afterSetaFull, State.addressLines, joinLines_parts]

/-- After SETA the cache tells the truth (rule R41) and the stages agree (rule R42). -/
theorem afterSeta_cacheTrue {s : State} (hc : s.CacheTrue) (a : Addr) : (s.afterSeta a).CacheTrue := by
  unfold State.afterSeta
  split
  · rename_i h
    simp only [skipsHigh, Bool.and_eq_true] at h
    obtain ⟨h1, h2, _⟩ := hc h.1
    exact fun _ => ⟨h1, h2, rfl⟩
  · exact fun _ => ⟨rfl, highByte_bit7 a, rfl⟩

/-- SETD moves the direction and its pins only (rule R161). -/
theorem afterSetd_fields (s : State) (m : Direction) :
    (s.afterSetd m).sl = s.sl ∧ (s.afterSetd m).sh = s.sh ∧ (s.afterSetd m).ql = s.ql ∧ (s.afterSetd m).qh = s.qh ∧
    (s.afterSetd m).lastHigh = s.lastHigh ∧ (s.afterSetd m).lastHighValid = s.lastHighValid ∧
    (s.afterSetd m).weN = s.weN ∧ (s.afterSetd m).dout = s.dout ∧ (s.afterSetd m).pollBit = s.pollBit ∧
    (s.afterSetd m).sck = s.sck ∧ (s.afterSetd m).rckL = s.rckL ∧ (s.afterSetd m).rckH = s.rckH ∧
    (s.afterSetd m).dev = s.dev ∧ (s.afterSetd m).env = s.env ∧ (s.afterSetd m).tick = s.tick ∧
    (s.afterSetd m).build = s.build ∧ (s.afterSetd m).draws = s.draws := by
  unfold State.afterSetd
  split
  · exact ⟨rfl, rfl, rfl, rfl, rfl, rfl, rfl, rfl, rfl, rfl, rfl, rfl, rfl, rfl, rfl, rfl, rfl⟩
  · cases m <;> exact ⟨rfl, rfl, rfl, rfl, rfl, rfl, rfl, rfl, rfl, rfl, rfl, rfl, rfl, rfl, rfl, rfl, rfl⟩

/-- After SETD the cached direction agrees with the pins, if it did before (rule R44). -/
theorem afterSetd_directionTrue {s : State} (h : s.DirectionTrue) (m : Direction) :
    (s.afterSetd m).DirectionTrue := by
  unfold State.afterSetd
  split
  · exact h
  · cases m <;> simp [State.DirectionTrue]

/-- Passing `n` slots before SETA or after it is the same. -/
theorem afterSeta_passTimes (s : State) (n : Nat) (a : Addr) :
    (s.passTimes n).afterSeta a = (s.afterSeta a).passTimes n := by
  induction n generalizing s with
  | zero => rfl
  | succ n ih =>
    rw [passTimes_succ, passTimes_succ, ih]
    congr 1
    unfold State.afterSeta State.passTime
    have hk : ∀ d e v t, skipsHigh { s with dev := d, deadlineExpired := e, env := v, tick := t } a = skipsHigh s a :=
      fun _ _ _ _ => rfl
    by_cases h : skipsHigh s a = true <;> simp only [hk, h, if_true, Bool.false_eq_true, if_false] <;> rfl

theorem afterSetd_passTimes (s : State) (n : Nat) (m : Direction) :
    (s.passTimes n).afterSetd m = (s.afterSetd m).passTimes n := by
  induction n generalizing s with
  | zero => rfl
  | succ n ih =>
    rw [passTimes_succ, passTimes_succ, ih]
    congr 1
    unfold State.afterSetd
    by_cases h : s.dir = m
    · simp only [passTime_dir, h, if_true]
    · simp only [passTime_dir, h, if_false]
      cases m <;> simp only [setdEvents, passTime_dir, h, if_false] <;> rfl

theorem afterDwr_passTimes (s : State) (n : Nat) (d : Byte) :
    (s.passTimes n).afterDwr d = (s.afterDwr d).passTimes n := by
  induction n generalizing s with
  | zero => rfl
  | succ n ih => rw [passTimes_succ, passTimes_succ, ih]; rfl

/-- The slots an SETA and a following SETD take. -/
theorem setdCost_afterSeta (s : State) (a : Addr) (m : Direction) : setdCost (s.afterSeta a) m = setdCost s m := by
  simp [setdCost, (afterSeta_fields s a).1]

theorem setdEvents_afterSeta (s : State) (a : Addr) (m : Direction) :
    setdEvents (s.afterSeta a) m = setdEvents s m := by
  simp [setdEvents, (afterSeta_fields s a).1]

/-- SETA and then SETD, the part RDB and WRB share (rules R182, R185). -/
theorem addressing_runs {s : State} (hc : s.sck = false) (hl : s.rckL = false) (hh : s.rckH = false) (a : Addr)
    (m : Direction) :
    Runs (inOrder [seta a, setd m]) s (setaEvents s a ++ setdEvents s m)
      ((s.passTimes (setaCost s a + setdCost s m)).afterAddressing a m) := by
  have h1 := seta_runs hc hl hh a
  have h2 := setd_runs ((s.passTimes (setaCost s a)).afterSeta a) m
  have h := h1.inOrder_cons (h2.inOrder_cons (runs_nil _))
  rw [setdEvents_afterSeta, setdEvents_passTimes, setdCost_afterSeta, setdCost_passTimes, List.append_nil,
    ← afterSeta_passTimes, ← passTimes_add] at h
  exact h

/-! ## WRB -/

/-- Everything WRB can do between operations (rule R182). -/
theorem wrb_runs {s : State} (hi : s.LinesIdle) (hd : s.DirectionTrue)
    (hc : s.lastHighValid = true → s.qh = s.lastHigh) (a : Addr) (d : Byte) :
    Runs (wrb a d) s (wrbEvents s a d) (s.afterWrb a d) := by
  obtain ⟨hck, hl, hh, hw⟩ := hi
  have h1 := seta_runs hck hl hh a
  have h2 := setd_runs ((s.passTimes (setaCost s a)).afterSeta a) .hostDrives
  rw [setdEvents_afterSeta, setdEvents_passTimes, setdCost_afterSeta, setdCost_passTimes,
    ← afterSeta_passTimes, ← passTimes_add] at h2
  have hdir : ((s.passTimes (setaCost s a + setdCost s .hostDrives)).afterAddressing a .hostDrives).DirectionTrue := by
    refine afterSetd_directionTrue ?_ _
    obtain ⟨e1, e2, e3, _⟩ := afterSeta_fields (s.passTimes (setaCost s a + setdCost s .hostDrives)) a
    simpa only [State.DirectionTrue, e1, e2, e3, passTimes_dir, passTimes_ddir, passTimes_oeN] using hd
  have hdd : ((s.passTimes (setaCost s a + setdCost s .hostDrives)).afterAddressing a .hostDrives).dir = .hostDrives :=
    afterSetd_dir _ _
  have h3 := dwr_runs hdd d
  have hal : ((s.passTimes (setaCost s a + setdCost s .hostDrives)).afterAddressing a .hostDrives).addressLines = a := by
    obtain ⟨_, _, e3, e4, _⟩ :=
      afterSetd_fields ((s.passTimes (setaCost s a + setdCost s .hostDrives)).afterSeta a) .hostDrives
    rw [State.afterAddressing, State.addressLines, e3, e4]
    exact afterSeta_addressLines (by simpa using hc) a
  have hwe : ((s.passTimes (setaCost s a + setdCost s .hostDrives)).afterAddressing a .hostDrives).weN = true := by
    obtain ⟨_, _, _, _, _, _, e7, _⟩ :=
      afterSetd_fields ((s.passTimes (setaCost s a + setdCost s .hostDrives)).afterSeta a) .hostDrives
    rw [State.afterAddressing, e7, (afterSeta_fields _ a).2.2.2.1]
    simpa using hw
  obtain ⟨hdo, hoe⟩ := hdir.1.mp hdd
  rw [afterDwr_passTimes] at h3
  have h4 := pulse_runs
    (s := (((s.passTimes (setaCost s a + setdCost s .hostDrives)).afterAddressing a .hostDrives).afterDwr d).passTimes 1)
    (by simpa [State.afterDwr] using hwe) (by simpa [State.afterDwr] using hdo) (by simpa [State.afterDwr] using hoe)
  have e5 : ((((s.passTimes (setaCost s a + setdCost s .hostDrives)).afterAddressing a .hostDrives).afterDwr
      d).passTimes 1).addressLines = a := by
    simpa [State.addressLines, State.afterDwr] using hal
  have e6 : ((((s.passTimes (setaCost s a + setdCost s .hostDrives)).afterAddressing a .hostDrives).afterDwr
      d).passTimes 1).dout = d := by simp [State.afterDwr]
  rw [e5, e6, ← passTimes_add] at h4
  have h := h1.inOrder_cons (h2.inOrder_cons (h3.inOrder_cons (h4.inOrder_cons (runs_nil _))))
  have e7 : ((((s.passTimes (setaCost s a + setdCost s .hostDrives)).afterAddressing a .hostDrives).afterDwr
      d).passTimes (1 + 2)).afterPulse a d = s.afterWrb a d := by
    rw [State.afterWrb, wrbCost, passTimes_add s (setaCost s a + setdCost s .hostDrives) 3]
    simp only [State.afterAddressing, afterSeta_passTimes, afterSetd_passTimes, afterDwr_passTimes]
  rw [e7] at h
  have e8 : setaEvents s a ++ (setdEvents s .hostDrives ++ ([PinEvent.dout d] ++ ([.we false, .we true] ++ []))) =
      wrbEvents s a d := by simp [wrbEvents]
  rw [e8] at h
  exact h

/-! ## What they keep -/

theorem keeps_pulse {P : State → Prop} (hP : Kept true P) : Op.Keeps P writeEnablePulse := by
  refine keeps_inOrder (fun m hm => ?_)
  simp only [List.mem_cons, List.not_mem_nil, or_false] at hm
  rcases hm with rfl | rfl | rfl
  · exact keeps_emit hP (by simp)
  · exact keeps_done ()
  · exact keeps_emit hP (by simp)

/-- A property of the state that pin events, time, reset and every register write of the engine keep. -/
structure KeptByEngine (pulses : Bool) (P : State → Prop) : Prop extends Kept pulses P where
  cache : ∀ s h, P s → P { s with lastHigh := h, lastHighValid := true }
  direction : ∀ s m, P s → P { s with dir := m }
  pollBit : ∀ s b, P s → P { s with pollBit := b }
  position : ∀ s q p v, P s → P { s with sq := q, polls := p, pollByte := v }

theorem keeps_wrb {P : State → Prop} (hP : KeptByEngine true P) (a : Addr) (d : Byte) : Op.Keeps P (wrb a d) := by
  refine keeps_inOrder (fun m hm => ?_)
  simp only [List.mem_cons, List.not_mem_nil, or_false] at hm
  rcases hm with rfl | rfl | rfl | rfl
  · exact keeps_seta hP.toKept hP.cache a
  · exact keeps_setd hP.toKept hP.direction _
  · exact keeps_dwr hP.toKept hP.pollBit d
  · exact keeps_pulse hP.toKept

theorem keeps_rdb {p : Bool} {P : State → Prop} (hP : KeptByEngine p P) (a : Addr) : Op.Keeps P (rdb a) := by
  refine keeps_andThen (keeps_inOrder (fun m hm => ?_)) (fun _ => keeps_drd hP.toKept)
  simp only [List.mem_cons, List.not_mem_nil, or_false] at hm
  rcases hm with rfl | rfl
  · exact keeps_seta hP.toKept hP.cache a
  · exact keeps_setd hP.toKept hP.direction _

theorem keeps_pollOnce {p : Bool} {P : State → Prop} (hP : KeptByEngine p P) : Op.Keeps P pollOnce := by
  refine keeps_andThen (keeps_lookDeadline hP.toKept) (fun expired s hs => ?_)
  cases expired with
  | true => exact hs
  | false =>
    refine keeps_andThen (keeps_drd hP.toKept) (fun v t ht => ?_) s hs
    simp only [judgeSample]
    by_cases h1 : pollMatches v t.pollBit = true
    · simp only [h1, if_true]; exact hP.position t t.sq t.polls v ht
    · by_cases h2 : pollLimitReached t.build.pollLimit (t.polls + 1) = true
      · simp only [h1, h2, if_true, Bool.false_eq_true, if_false]; exact hP.position t t.sq (t.polls + 1) v ht
      · simp only [h1, h2, Bool.false_eq_true, if_false]; exact hP.position t t.sq (t.polls + 1) v ht

theorem keeps_wait {p : Bool} {P : State → Prop} (hP : KeptByEngine p P) : Op.Keeps P wait := by
  refine keeps_andThen (keeps_inOrder (fun m hm => ?_)) (fun _ => keeps_pollOnce hP)
  simp only [List.mem_cons, List.not_mem_nil, or_false] at hm
  rcases hm with rfl | rfl
  · exact keeps_setd hP.toKept hP.direction _
  · exact keeps_update (fun s hs => hP.position s s.sq 0 0x00#8 hs)

end Sys2Proof.Machine
end

