-- ==== Sys2Proof/Laws/ProtectionSequencer.lean ====
section
/-! SUPPORT. What WRB leaves of the block between operations, and everything the writes of an SDP sequence can do. -/

namespace Sys2Proof.Machine

/-- WRB emits 29 to 57 pin events (rule R285). -/
theorem wrbEvents_length (s : State) (a : Addr) (d : Byte) : (wrbEvents s a d).length = wrbCost s a := by
  simp [wrbEvents, setaEvents_length, setdEvents_length, wrbCost]
  omega

/-- What the block is after WRB: the byte on the lines, the host driving, the clock and latch lines as before (rule R182). -/
theorem afterWrb_fields (s : State) (a : Addr) (d : Byte) :
    (s.afterWrb a d).dout = d ∧ (s.afterWrb a d).pollBit = d.getLsbD 7 ∧ (s.afterWrb a d).dir = .hostDrives ∧
    (s.afterWrb a d).sck = s.sck ∧ (s.afterWrb a d).rckL = s.rckL ∧ (s.afterWrb a d).rckH = s.rckH ∧
    (s.afterWrb a d).weN = s.weN ∧ (s.afterWrb a d).build = s.build ∧ (s.afterWrb a d).draws = s.draws + 1 ∧
    (s.afterWrb a d).dev = (s.passTimes (wrbCost s a)).dev.writePulse a d := by
  obtain ⟨_, _, _, _, _, _, f7, _, _, f10, f11, f12, f13, _, _, f16, f17⟩ :=
    afterSetd_fields ((s.passTimes (wrbCost s a)).afterSeta a) .hostDrives
  obtain ⟨_, _, _, g4, _, _, g7, g8, g9, g10, _, _, g13, g14⟩ := afterSeta_fields (s.passTimes (wrbCost s a)) a
  have hd := afterSetd_dir ((s.passTimes (wrbCost s a)).afterSeta a) .hostDrives
  rw [g4, passTimes_weN] at f7
  rw [g7, passTimes_sck] at f10
  rw [g8, passTimes_rckL] at f11
  rw [g9, passTimes_rckH] at f12
  rw [g10] at f13
  rw [g13, passTimes_build] at f16
  rw [g14, passTimes_draws] at f17
  unfold State.afterWrb State.afterAddressing
  generalize ((s.passTimes (wrbCost s a)).afterSeta a).afterSetd .hostDrives = x at *
  simp only [State.afterPulse, State.afterDwr, f7, f10, f11, f12, f13, f16, f17, hd, and_self]

/-- What the chain and its cache are after WRB (rules R144, R182). -/
theorem afterWrb_chain (s : State) (a : Addr) (d : Byte) :
    (s.afterWrb a d).sl = lowByte a ∧ (s.afterWrb a d).ql = lowByte a ∧
    (s.afterWrb a d).sh = (if skipsHigh s a then s.sl else highByte a) ∧
    (s.afterWrb a d).qh = (if skipsHigh s a then s.qh else highByte a) ∧
    (s.afterWrb a d).lastHigh = highByte a ∧ (s.afterWrb a d).lastHighValid = true := by
  obtain ⟨f1, f2, f3, f4, f5, f6, _⟩ := afterSetd_fields ((s.passTimes (wrbCost s a)).afterSeta a) .hostDrives
  have h : ((s.passTimes (wrbCost s a)).afterSeta a).sl = lowByte a ∧
      ((s.passTimes (wrbCost s a)).afterSeta a).ql = lowByte a ∧
      ((s.passTimes (wrbCost s a)).afterSeta a).sh = (if skipsHigh s a then s.sl else highByte a) ∧
      ((s.passTimes (wrbCost s a)).afterSeta a).qh = (if skipsHigh s a then s.qh else highByte a) ∧
      ((s.passTimes (wrbCost s a)).afterSeta a).lastHigh = highByte a ∧
      ((s.passTimes (wrbCost s a)).afterSeta a).lastHighValid = true := by
    unfold State.afterSeta
    by_cases hk : skipsHigh s a = true
    · have hv := hk
      simp only [skipsHigh, Bool.and_eq_true, beq_iff_eq] at hv
      simp [State.afterSetaSkip, skipsHigh_passTimes, hk, hv]
    · simp [State.afterSetaFull, skipsHigh_passTimes, hk]
  unfold State.afterWrb State.afterAddressing
  generalize (s.passTimes (wrbCost s a)).afterSeta a = y at *
  generalize y.afterSetd .hostDrives = x at *
  simp only [State.afterPulse, State.afterDwr, f1, f2, f3, f4, f5, f6, h, and_self]

/-- WRB keeps what it needs of the block, so that one may follow another (rules R40, R41, R44). -/
theorem afterWrb_ready {s : State} (hl : s.LinesIdle) (hd : s.DirectionTrue) (hc : s.CacheTrue) (a : Addr) (d : Byte) :
    (s.afterWrb a d).LinesIdle ∧ (s.afterWrb a d).DirectionTrue ∧ (s.afterWrb a d).CacheTrue := by
  refine ⟨?_, ?_, ?_⟩
  · obtain ⟨_, _, _, h4, h5, h6, h7, _⟩ := afterWrb_fields s a d
    simpa only [State.LinesIdle, h4, h5, h6, h7] using hl
  · have h : (((s.passTimes (wrbCost s a)).afterSeta a).afterSetd .hostDrives).DirectionTrue := by
      refine afterSetd_directionTrue ?_ _
      obtain ⟨e1, e2, e3, _⟩ := afterSeta_fields (s.passTimes (wrbCost s a)) a
      simpa only [State.DirectionTrue, e1, e2, e3, passTimes_dir, passTimes_ddir, passTimes_oeN] using hd
    unfold State.afterWrb State.afterAddressing
    generalize ((s.passTimes (wrbCost s a)).afterSeta a).afterSetd .hostDrives = x at *
    exact h
  · obtain ⟨c1, c2, _, c4, c5, _⟩ := afterWrb_chain s a d
    intro _
    rw [c1, c2, c4, c5]
    by_cases hk : skipsHigh s a = true
    · have hv := hk
      simp only [skipsHigh, Bool.and_eq_true, beq_iff_eq] at hv
      obtain ⟨h1, h2, _⟩ := hc hv.1
      rw [if_pos hk]
      exact ⟨by rw [h1, hv.2], h2, rfl⟩
    · rw [if_neg hk]
      exact ⟨rfl, highByte_bit7 a, rfl⟩

/-- What the writes of a sequence emit. -/
def writesEvents (s : State) : List (Addr × Byte) → List PinEvent
  | [] => []
  | (a, d) :: rest => wrbEvents s a d ++ writesEvents (s.afterWrb a d) rest

/-- The count of the writes done is no part of what WRB depends on. -/
theorem afterWrb_sq (s : State) (n : Fin 7) (a : Addr) (d : Byte) :
    State.afterWrb { s with sq := n } a d = { s.afterWrb a d with sq := n } := by
  have hp : ∀ (k : Nat) (u : State), State.passTimes { u with sq := n } k = { u.passTimes k with sq := n } := by
    intro k
    induction k with
    | zero => intro u; rfl
    | succ k ih => intro u; exact ih u.passTime
  have ha : ∀ u : State, State.afterSeta { u with sq := n } a = { u.afterSeta a with sq := n } := by
    intro u
    have hk : skipsHigh { u with sq := n } a = skipsHigh u a := rfl
    have he : setaEvents { u with sq := n } a = setaEvents u a := rfl
    unfold State.afterSeta State.afterSetaSkip State.afterSetaFull
    rw [hk, he]
    split <;> rfl
  have hd : ∀ u : State, State.afterSetd { u with sq := n } .hostDrives = { u.afterSetd .hostDrives with sq := n } := by
    intro u
    unfold State.afterSetd
    split <;> rfl
  have hc : wrbCost { s with sq := n } a = wrbCost s a := rfl
  unfold State.afterWrb State.afterAddressing
  rw [hc, hp, ha, hd]
  rfl

theorem writesEvents_sq (ws : List (Addr × Byte)) : ∀ (s : State) (n : Fin 7),
    writesEvents { s with sq := n } ws = writesEvents s ws := by
  induction ws with
  | nil => intro s n; rfl
  | cons w rest ih =>
    intro s n
    have hw : wrbEvents { s with sq := n } w.1 w.2 = wrbEvents s w.1 w.2 := rfl
    simp only [writesEvents, hw, afterWrb_sq, ih]

/-- Everything the writes of a sequence can do between operations (rules R200, R201). -/
theorem issueWrites_runs (ws : List (Addr × Byte)) : ∀ {s : State} (done : Fin 7), s.LinesIdle → s.DirectionTrue → s.CacheTrue →
    Runs (issueWrites done ws) s (writesEvents s ws) (s.afterWrites done ws) ∧
    (s.afterWrites done ws).LinesIdle ∧ (s.afterWrites done ws).DirectionTrue ∧ (s.afterWrites done ws).CacheTrue := by
  induction ws with
  | nil => intro s done hl hd hc; exact ⟨runs_done s, hl, hd, hc⟩
  | cons w rest ih =>
    intro s done hl hd hc
    have hw := wrb_runs hl hd (fun hv => (hc hv).1) w.1 w.2
    have hx := afterWrb_ready hl hd hc w.1 w.2
    simp only [issueWrites, State.afterWrites, writesEvents]
    generalize s.afterWrb w.1 w.2 = x at *
    have hu : Runs (setSq (done + 1)) x [] { x with sq := done + 1 } := runs_update rfl rfl rfl
    obtain ⟨hr, h1, h2, h3⟩ := ih (s := { x with sq := done + 1 }) (done + 1) hx.1 hx.2.1 hx.2.2
    have h := hw.inOrder_cons (hu.inOrder_cons (hr.inOrder_cons (runs_nil _)))
    rw [writesEvents_sq, List.nil_append, List.append_nil] at h
    exact ⟨h, h1, h2, h3⟩

/-- The pin events of the writes are as many as their cost. -/
theorem writesEvents_length (ws : List (Addr × Byte)) : ∀ s : State, (writesEvents s ws).length = writesCost s ws := by
  induction ws with
  | nil => intro s; rfl
  | cons w rest ih =>
    intro s
    simp only [writesEvents, writesCost, List.length_append, wrbEvents_length, ih]

/-! ## What the sequences keep -/

theorem keeps_issueWrites {P : State → Prop} (hP : KeptByEngine true P) (ws : List (Addr × Byte)) :
    ∀ done : Fin 7, Op.Keeps P (issueWrites done ws) := by
  induction ws with
  | nil => intro done; exact keeps_done ()
  | cons w rest ih =>
    intro done
    refine keeps_inOrder (fun m hm => ?_)
    simp only [List.mem_cons, List.not_mem_nil, or_false] at hm
    rcases hm with rfl | rfl | rfl
    · exact keeps_wrb hP _ _
    · exact keeps_update (fun s hs => hP.position s _ s.polls s.pollByte hs)
    · exact ih _

theorem keeps_sequence {P : State → Prop} (hP : KeptByEngine true P) (ws : List (Addr × Byte)) (info : Byte) :
    Op.Keeps P (inOrder [setSq 0, issueWrites 0 ws, sequenceDeadline info]) := by
  refine keeps_inOrder (fun m hm => ?_)
  simp only [List.mem_cons, List.not_mem_nil, or_false] at hm
  rcases hm with rfl | rfl | rfl
  · exact keeps_update (fun s hs => hP.position s _ s.polls s.pollByte hs)
  · exact keeps_issueWrites hP ws 0
  · refine keeps_andThen (keeps_lookDeadline hP.toKept) (fun expired s hs => ?_)
    cases expired
    · exact hs
    · exact hs

end Sys2Proof.Machine
end

