-- ==== Sys2Proof/Laws/Step.lean ====
section
/-! SUPPORT. What a whole command and a whole step keep, and what a reset of a running block leaves. -/

namespace Sys2Proof.Machine

/-! ## Reset -/

/-- Everything a reset of a running block leaves (rules R260, R262, R264): the pins and registers at their reset values, the chain as
it was, the device having seen at most the end of an open pulse, the seven pin writes at the end of the trace. -/
theorem resetBlock_fields (s : State) :
    s.resetBlock.LinesIdle ∧ s.resetBlock.ser = false ∧ s.resetBlock.oeN = false ∧ s.resetBlock.ddir = .inputs ∧
    s.resetBlock.dir = .deviceDrives ∧ s.resetBlock.lastHighValid = false ∧ s.resetBlock.busy = false ∧
    s.resetBlock.sq = 0 ∧ s.resetBlock.polls = 0 ∧ s.resetBlock.rspValid = false ∧
    s.resetBlock.rspWord = s.rspWord ∧ s.resetBlock.commander = s.commander ∧ s.resetBlock.build = s.build ∧
    s.resetBlock.sl = s.sl ∧ s.resetBlock.sh = s.sh ∧ s.resetBlock.ql = s.ql ∧ s.resetBlock.qh = s.qh ∧
    s.resetBlock.dev = (if s.weN then s.dev else s.dev.writePulse s.addressLines s.dataLines) ∧
    s.resetBlock.trace = s.trace ++ resetEvents := by
  cases hw : s.weN <;>
    simp [State.resetBlock, resetEvents, State.pinEvents, State.pinEvent, State.effect, hw]

theorem resetBlock_boundary (s : State) :
    s.resetBlock.LinesIdle ∧ s.resetBlock.CacheTrue ∧ s.resetBlock.DirectionTrue ∧ s.resetBlock.WaitTrue := by
  obtain ⟨h1, _, h3, h4, h5, h6, h7, _⟩ := resetBlock_fields s
  refine ⟨h1, ?_, ?_, ?_⟩
  · intro h; rw [h6] at h; cases h
  · simp [State.DirectionTrue, h3, h4, h5]
  · intro h; rw [h7] at h; cases h

/-- A piece with the closed form `Runs` either ends or is abandoned by a reset. -/
theorem Runs.cases {m : Op Unit} {s t : State} {es : List PinEvent} (h : Runs m s es t) :
    (s.NoResetFor es.length ∧ m s = .ok () t) ∨
    ∃ (k : Nat) (u : State), k < es.length ∧ m s = .abandoned u.resetBlock ∧ u.trace = s.trace ++ es.take k := by
  rcases noResetFor_or s es.length with hr | ⟨k, hk, hr, hrst⟩
  · exact .inl ⟨hr, h.ends hr⟩
  · obtain ⟨u, hu, ht⟩ := h.stops k hk hr hrst
    exact .inr ⟨k, u, hk, hu, ht⟩

/-! ## What a command keeps, whatever way it ends -/

theorem keeps_endsPlain {P : State → Prop} {m : Op Unit} (h : Op.Keeps P m) : Op.Keeps P (endsPlain m) :=
  keeps_andThen h (fun _ => keeps_done _)

theorem keeps_endsWith {P : State → Prop} {m : Op Byte} (h : Op.Keeps P m) : Op.Keeps P (endsWith m) :=
  keeps_andThen h (fun _ => keeps_done _)

/-- A property that everything in a step keeps. -/
structure KeptByStep (pulses : Bool) (P : State → Prop) : Prop extends KeptByEngine pulses P where
  respond : ∀ s st d, P s → P (s.respond st d)
  polling : ∀ s, P s → P { s with busy := true }
  accept : ∀ s, P s → P s.accept

theorem exec_keeps {P : State → Prop} (hP : KeptByStep true P) {i : Instr} {s t : State} (hs : P s)
    (ht : exec i s = .next t) : P t := by
  have hE := hP.toKeptByEngine
  cases i with
  | seta a => exact perform_keeps (keeps_endsPlain (keeps_seta hE.toKept hE.cache a)) hP.respond hP.polling hs ht
  | setd m => exact perform_keeps (keeps_endsPlain (keeps_setd hE.toKept hE.direction m)) hP.respond hP.polling hs ht
  | dwr d => exact perform_keeps (keeps_endsPlain (keeps_dwr hE.toKept hE.pollBit d)) hP.respond hP.polling hs ht
  | drd => exact perform_keeps (keeps_endsWith (keeps_drd hE.toKept)) hP.respond hP.polling hs ht
  | wrb a d => exact perform_keeps (keeps_endsPlain (keeps_wrb hE a d)) hP.respond hP.polling hs ht
  | rdb a => exact perform_keeps (keeps_endsWith (keeps_rdb hE a)) hP.respond hP.polling hs ht
  | wait => exact perform_keeps (keeps_wait hE) hP.respond hP.polling hs ht
  | sdpd => exact perform_keeps (keeps_endsPlain (keeps_sequence hE _ _)) hP.respond hP.polling hs ht
  | sdpe => exact perform_keeps (keeps_endsPlain (keeps_sequence hE _ _)) hP.respond hP.polling hs ht

/-- A command without a write pulse keeps whatever pin events other than those of `we_n` keep (rules R65, R165). -/
theorem exec_keeps_quiet {P : State → Prop} (hP : KeptByStep false P) {i : Instr} (h1 : ∀ a d, i ≠ .wrb a d)
    (h2 : i ≠ .sdpd) (h3 : i ≠ .sdpe) {s t : State} (hs : P s) (ht : exec i s = .next t) : P t := by
  have hE := hP.toKeptByEngine
  cases i with
  | seta a => exact perform_keeps (keeps_endsPlain (keeps_seta hE.toKept hE.cache a)) hP.respond hP.polling hs ht
  | setd m => exact perform_keeps (keeps_endsPlain (keeps_setd hE.toKept hE.direction m)) hP.respond hP.polling hs ht
  | dwr d => exact perform_keeps (keeps_endsPlain (keeps_dwr hE.toKept hE.pollBit d)) hP.respond hP.polling hs ht
  | drd => exact perform_keeps (keeps_endsWith (keeps_drd hE.toKept)) hP.respond hP.polling hs ht
  | wrb a d => exact absurd rfl (h1 a d)
  | rdb a => exact perform_keeps (keeps_endsWith (keeps_rdb hE a)) hP.respond hP.polling hs ht
  | wait => exact perform_keeps (keeps_wait hE) hP.respond hP.polling hs ht
  | sdpd => exact absurd rfl h2
  | sdpe => exact absurd rfl h3

/-- Everything one step can be (rules R101, R102, R115, R189). -/
theorem step_cases {s t : State} (h : step s = .next t) :
    (s.busy = true ∧ continueWait s = .next t) ∨
    (s.busy = false ∧ s.commander = [] ∧ t = s.idleSlot) ∨
    (∃ w ws, s.busy = false ∧ s.commander = w :: ws ∧
      ((∃ i, decode w = .ok i ∧ exec i s.accept = .next t) ∨
       (∃ e, decode w = .error e ∧ t = s.accept.answerIllegal))) := by
  unfold step at h
  cases hb : s.busy with
  | true => rw [hb] at h; exact .inl ⟨rfl, h⟩
  | false =>
    rw [hb] at h
    simp only [Bool.false_eq_true, if_false] at h
    cases hc : s.commander with
    | nil => rw [hc] at h; exact .inr (.inl ⟨rfl, rfl, by simpa using h.symm⟩)
    | cons w ws =>
      rw [hc] at h
      dsimp only at h
      refine .inr (.inr ⟨w, ws, rfl, rfl, ?_⟩)
      cases hd : decode w with
      | ok i => rw [hd] at h; exact .inl ⟨i, rfl, h⟩
      | error e => rw [hd] at h; exact .inr ⟨e, rfl, by simpa using h.symm⟩

theorem step_keeps {P : State → Prop} (hP : KeptByStep true P) {s t : State} (hs : P s) (ht : step s = .next t) : P t := by
  rcases step_cases ht with ⟨_, h⟩ | ⟨_, _, rfl⟩ | ⟨w, ws, _, _, ⟨i, _, h⟩ | ⟨e, _, rfl⟩⟩
  · exact perform_keeps (keeps_pollOnce hP.toKeptByEngine) hP.respond hP.polling hs h
  · unfold State.idleSlot
    split
    · exact hP.resetBlock _ (hP.passTime _ hs)
    · exact hP.passTime _ hs
  · exact exec_keeps hP (hP.accept _ hs) h
  · exact hP.respond _ _ _ (hP.accept _ hs)

end Sys2Proof.Machine
end

