-- ==== Sys2Proof/Laws/Diagnostics.lean ====
section
/-! SUPPORT. What presenting one word and collecting its response does. -/

namespace Sys2Proof.Machine

@[simp] theorem present_dev (s : State) (w : CmdWord) : (s.present w).dev = s.dev := rfl
@[simp] theorem present_env (s : State) (w : CmdWord) : (s.present w).env = s.env := rfl
@[simp] theorem present_commander (s : State) (w : CmdWord) : (s.present w).commander = w :: s.commander := rfl

/-- To an idle block, presenting a word is running its command and leaving the rest of the port as it was (rules R101, R222). -/
theorem step_present {s : State} {w : CmdWord} {i : Instr} (hb : s.busy = false) (hd : decode w = .ok i) :
    step (s.present w) = exec i { s with busy := true, rspValid := false, deadlineExpired := false } := by
  simp [step, State.present, State.accept, hb, hd]

/-- An answer with status OK carries its byte. -/
theorem answer_respond (s : State) (v : Byte) : (s.respond .ok v).answer = some v := by
  simp [State.answer, responseWord_status, responseWord_data, statusCode]

/-- One more command collected. -/
theorem collect_cons {s t : State} {w : CmdWord} {ws : List CmdWord} {v : Byte} (h : step (s.present w) = .next t)
    (hv : t.answer = some v) : collect (w :: ws) s = (collect ws t).map (fun r => (v :: r.1, r.2)) := by
  simp [collect, h, hv]

end Sys2Proof.Machine
end

