-- ==== Sys2Proof/Laws/PerInstr.lean ====
section
/-! SUPPORT. The family EncodingShape: every field of an instruction's word is what the instruction says (30_encoding.md rules R103,
R106). -/

namespace Sys2Proof

/-- A word reads back as the fields it was packed from. -/
theorem packWord_fields (op : BitVec 4) (a : Addr) (d : Byte) :
    opField (packWord op a d) = op ∧ zeroField (packWord op a d) = 0#5 ∧ addrField (packWord op a d) = a ∧
    dataField (packWord op a d) = d := by
  refine ⟨?_, ?_, ?_, ?_⟩ <;>
  · apply BitVec.eq_of_getLsbD_eq
    intro i hi
    simp only [opField, zeroField, addrField, dataField, packWord, BitVec.getLsbD_extractLsb', BitVec.getLsbD_append]
    interval_cases i <;> simp

end Sys2Proof

namespace Sys2Proof.Laws.EncodingShape

/-- The word of an instruction holds its operation code, a zero field, and its operands (rule R103). -/
def Statement (i : Instr) : Prop :=
  opField (encode i) = i.op ∧ zeroField (encode i) = 0#5 ∧ addrField (encode i) = i.addrOperand ∧
  dataField (encode i) = i.dataOperand

theorem seta (a : Addr) : Statement (.seta a) := packWord_fields _ _ _
theorem setd (m : Direction) : Statement (.setd m) := packWord_fields _ _ _
theorem dwr (d : Byte) : Statement (.dwr d) := packWord_fields _ _ _
theorem drd : Statement .drd := packWord_fields _ _ _
theorem wrb (a : Addr) (d : Byte) : Statement (.wrb a d) := packWord_fields _ _ _
theorem rdb (a : Addr) : Statement (.rdb a) := packWord_fields _ _ _
theorem wait : Statement .wait := packWord_fields _ _ _
theorem sdpd : Statement .sdpd := packWord_fields _ _ _
theorem sdpe : Statement .sdpe := packWord_fields _ _ _

end Sys2Proof.Laws.EncodingShape
end

