-- ==== Sys2Proof/Tests/Slice0.lean ====
section
/-! SUPPORT. Tests. Expected values are those of spec/95_test_vectors.md (the vector is named in each docstring) or are computed by
hand from the rule named; the witness theorems show that the hypotheses of the statements can be met. -/

set_option maxRecDepth 100000

namespace Sys2Proof.Tests

open Sys2Proof.Machine

/-! ## Helpers -/

/-- A slot in which nothing comes. -/
def quiet : EnvSlot := { windowElapse := false, programDone := false, deadline := false, rst := false }

/-- A slot in which the window elapses and the device's write then ends. -/
def done : EnvSlot := { quiet with windowElapse := true, programDone := true }

/-- A device at rest. -/
def device (sdp : Bool) (mem : Memory) : Device := Device.powerOn sdp mem

/-- A block after reset, before a device, with the slots to come. -/
def start (dev : Device) (env : List EnvSlot) : State := { State.powerOn Build.base dev with env := env }

/-- The same, the host driving the lines. -/
def driving (dev : Device) (env : List EnvSlot) : State :=
  { start dev env with dir := .hostDrives, ddir := .outputs, oeN := true }

/-- The next state, if there is one. -/
def after (o : Host.Outcome State Fault Refusal) : Option State :=
  match o with
  | .next s => some s
  | .fault _ => none
  | .refused _ => none

theorem next_of_isSome {o : Host.Outcome State Fault Refusal} (h : (after o).isSome = true) : ∃ t, o = .next t := by
  cases o with
  | next t => exact ⟨t, rfl⟩
  | fault f => cases h
  | refused r => cases h

/-- `SL SH QL QH last_high` as the vectors write them. -/
def chain (s : State) : List Byte := [s.sl, s.sh, s.ql, s.qh, s.lastHigh]

/-- The pin events a command adds to an empty trace. -/
def eventsOf (o : Host.Outcome State Fault Refusal) : Option (List PinEvent) := (after o).map (fun s => s.trace)

/-! ## Well-formedness: what the assembler refuses (rule R123) -/

theorem test_addr_too_wide_refused :
    (Source.seta 0x8000).wellFormed = false ∧ (Source.rdb 0x8000).wellFormed = false ∧
    (Source.wrb 0x8000 0).wellFormed = false ∧ (Source.write 0x8000 0).wellFormed = false ∧
    (Source.read 0x8000).wellFormed = false ∧ (Source.dump 0x8000).wellFormed = false := by decide

theorem test_data_too_wide_refused :
    (Source.dwr 0x100).wellFormed = false ∧ (Source.wrb 0 0x100).wellFormed = false ∧
    (Source.write 0 0x100).wellFormed = false := by decide

theorem test_widest_operands_accepted :
    (Source.wrb 0x7FFF 0xFF).wellFormed = true ∧ assemble (.wrb 0x7FFF 0xFF) = some [0x507FFFFF#32] ∧
    assemble (.seta 0x8000) = none := by decide

/-- H1, H2, H3 and the first and last words of H5. -/
theorem test_expansions :
    assemble (.write 0x0000 0xA5) = some [0x500000A5#32, 0x70000000#32] ∧
    assemble (.read 0x1234) = some [0x60123400#32] ∧ assemble .unlock = some [0x80000000#32] ∧
    assemble .lock = some [0x90000000#32] ∧
    (assemble (.dump 0x7FF0)).map (fun ws => (ws.length, ws.head?, ws[15]?, ws[16]?, ws.getLast?)) =
      some (256, some 0x607FF000#32, some 0x607FFF00#32, some 0x60000000#32, some 0x6000EF00#32) := by decide

/-- Rules R120, R121. -/
theorem test_text :
    parseLine ("WRB 0x1234, 66 ; store".toList) = some [Source.wrb 0x1234 0x42] ∧
    parseLine ("SETD DeviceDrives".toList) = some [Source.setd .deviceDrives] ∧
    parseLine ("; nothing".toList) = some [] ∧ parseLine ("NOP".toList) = none := by decide

/-! ## Decoding: family E of the vectors -/

theorem test_decode_seta : decode 0x1000FF00#32 = .ok (.seta 0x00FF#15) ∧ decode 0x107FFF00#32 = .ok (.seta 0x7FFF#15) := by
  decide
theorem test_decode_setd :
    decode 0x20000000#32 = .ok (.setd .hostDrives) ∧ decode 0x20000001#32 = .ok (.setd .deviceDrives) := by decide
theorem test_decode_dwr : decode 0x300000A5#32 = .ok (.dwr 0xA5#8) := by decide
theorem test_decode_drd : decode 0x40000000#32 = .ok .drd := by decide
theorem test_decode_wrb :
    decode 0x500000A5#32 = .ok (.wrb 0x0000#15 0xA5#8) ∧ decode 0x505555AA#32 = .ok (.wrb 0x5555#15 0xAA#8) ∧
    decode 0x502AAA55#32 = .ok (.wrb 0x2AAA#15 0x55#8) ∧ decode 0x507FFFFF#32 = .ok (.wrb 0x7FFF#15 0xFF#8) := by decide
theorem test_decode_rdb : decode 0x60123400#32 = .ok (.rdb 0x1234#15) := by decide
theorem test_decode_wait : decode 0x70000000#32 = .ok .wait := by decide
theorem test_decode_sdpd : decode 0x80000000#32 = .ok .sdpd := by decide
theorem test_decode_sdpe : decode 0x90000000#32 = .ok .sdpe := by decide

theorem test_decode_illegal :
    decode 0x00000000#32 = .error .unusedOp ∧ decode 0xF0000000#32 = .error .unusedOp ∧
    decode 0x10800000#32 = .error .zeroNotZero ∧ decode 0x100000FF#32 = .error .operandNotZero ∧
    decode 0x30000100#32 = .error .operandNotZero ∧ decode 0x40000001#32 = .error .operandNotZero ∧
    decode 0x60123401#32 = .error .operandNotZero ∧ decode 0x70000100#32 = .error .operandNotZero ∧
    decode 0x80000001#32 = .error .operandNotZero := by decide

theorem test_encode :
    encode (.wrb 0x1234#15 0x42#8) = 0x50123442#32 ∧ encode (.seta 0x01FF#15) = 0x1001FF00#32 ∧
    encode (.setd .deviceDrives) = 0x20000001#32 ∧ encode .sdpe = 0x90000000#32 := by decide

/-- The bits of a table word above `nbits` are 0. -/
theorem test_table_word :
    decodeTableWord 32 0x60123400 = some (.rdb 0x1234#15) ∧ decodeTableWord 32 0xA0000000 = none := by decide

/-! ## Shift primitives: vectors B1, B3, B4, B5 -/

theorem test_shift_bit :
    (shiftIn 0xA5#8 true = 0x4B#8 ∧ shiftIn 0x3C#8 ((0xA5#8).getLsbD 7) = 0x79#8) ∧
    (shiftIn 0x25#8 true = 0x4B#8 ∧ shiftIn 0xFF#8 ((0x25#8).getLsbD 7) = 0xFE#8) := by decide

theorem test_shift_byte_and_latch :
    (match shiftByte 0x0F#8 { State.reset with sl := 0xA5#8, sh := 0x3C#8 } with
     | .ok _ s => some (s.sl, s.sh)
     | _ => none) = some (0x0F#8, 0xA5#8) ∧
    (match latchLow { State.reset with sl := 0x0F#8, sh := 0xA5#8 } with
     | .ok _ s => some (s.sl, s.sh, s.ql, s.qh)
     | _ => none) = some (0x0F#8, 0xA5#8, 0x0F#8, 0x00#8) := by decide

/-! ## One command each -/

/-- A5: the full path, from the state A4 leaves. -/
theorem test_seta_full :
    (after (exec (.seta 0x7FFF#15) { State.reset with
      sl := 0x01#8, sh := 0x00#8, ql := 0x01#8, qh := 0x01#8, lastHigh := 0x01#8, lastHighValid := true })).map
      (fun s => (chain s, s.addressLines, s.trace.length)) =
    some ([0xFF#8, 0x7F#8, 0xFF#8, 0x7F#8, 0x7F#8], 0x7FFF#15, 52) := by decide

/-- A3: the skip path, from the state A2 leaves. -/
theorem test_seta_skip :
    (after (exec (.seta 0x0100#15) { State.reset with
      sl := 0xFF#8, sh := 0x01#8, ql := 0xFF#8, qh := 0x01#8, lastHigh := 0x01#8, lastHighValid := true })).map
      (fun s => (chain s, s.addressLines, s.trace.length, s.rspWord)) =
    some ([0x00#8, 0xFF#8, 0x00#8, 0x01#8, 0x01#8], 0x0100#15, 26, 0x0000#16) := by decide

/-- D1. -/
theorem test_setd_host :
    (after (exec (.setd .hostDrives) State.reset)).map (fun s => (s.trace, s.dir, s.ddir, s.oeN)) =
    some ([.oe true, .ddir .outputs], .hostDrives, .outputs, true) := by decide

/-- D3. -/
theorem test_setd_device :
    (after (exec (.setd .deviceDrives) (driving (device false []) []))).map (fun s => (s.trace, s.dir, s.ddir, s.oeN)) =
    some ([.ddir .inputs, .oe false], .deviceDrives, .inputs, false) := by decide

/-- D7. -/
theorem test_dwr :
    (after (exec (.dwr 0x80#8) (driving (device false []) []))).map (fun s => (s.trace, s.dout, s.pollBit)) =
    some ([.dout 0x80#8], 0x80#8, true) := by decide

/-- D9. -/
theorem test_dwr_safety_build :
    (after (exec (.dwr 0x12#8) { State.reset with build := { Build.base with safetyBuild := true } })).map
      (fun s => (s.rspWord, s.trace, s.dout)) = some (0x0200#16, [], 0x00#8) := by decide

/-- D11. -/
theorem test_drd :
    (after (exec .drd { start (device false [(0x0040, 0x3C#8)]) [] with ql := 0x40#8 })).map
      (fun s => (s.rspWord, s.trace)) = some (0x003C#16, [.sample 0x3C#8]) := by decide

/-- D13. -/
theorem test_drd_safety_build :
    (after (exec .drd { driving (device false []) [] with build := { Build.base with safetyBuild := true } })).map
      (fun s => (s.rspWord, s.trace)) = some (0x0200#16, []) := by decide

/-- W1, from the state A4 leaves. -/
theorem test_wrb :
    (after (exec (.wrb 0x0180#15 0x7E#8) { start (device false []) (List.replicate 31 quiet) with
      sl := 0x01#8, ql := 0x01#8, qh := 0x01#8, lastHigh := 0x01#8, lastHighValid := true })).map
      (fun s => (s.pollBit, s.trace.drop 26, s.dev.mem)) =
    some (false,
      [.oe true, .ddir .outputs, .dout 0x7E#8, .we false, .we true], [(0x0180, 0x7E#8)]) := by decide

/-- Rule R73: a protected device stores nothing. -/
theorem test_wrb_blocked :
    (after (exec (.wrb 0x0010#15 0x80#8) (start (device true []) (List.replicate 57 quiet)))).map
      (fun s => (s.rspWord, s.dev.mem, s.dev.pending)) = some (0x0000#16, [], false) := by decide

/-- W3. -/
theorem test_rdb :
    (after (exec (.rdb 0x0280#15) { driving (device false [(0x0280, 0x81#8)]) [] with
      sl := 0x80#8, sh := 0x02#8, ql := 0x80#8, qh := 0x02#8, lastHigh := 0x02#8, lastHighValid := true })).map
      (fun s => (s.rspWord, s.sh, s.trace.drop 26)) =
    some (0x0081#16, 0x80#8, [.ddir .inputs, .oe false, .sample 0x81#8]) := by decide

/-- X5. -/
theorem test_wait_poll_limit :
    (after (exec .wait { start (device false [(0x0000, 0x11#8)]) [] with
      pollBit := true, build := { Build.base with pollLimit := some 1 } })).map (fun s => (s.rspWord, s.polls)) =
    some (0x0311#16, 1) := by decide

/-- X7. -/
theorem test_wait_deadline :
    (after (exec .wait { start (device false [(0x0000, 0x11#8)]) [{ quiet with deadline := true }] with
      pollBit := true, build := { Build.base with deadlineEn := true } })).map (fun s => (s.rspWord, s.trace)) =
    some (0x0100#16, []) := by decide

/-- Q1 and the first row of Q4. -/
theorem test_sdpd :
    (after (exec .sdpd (start (device true []) (List.replicate 306 quiet)))).map
      (fun s => (chain s, s.trace.length, s.dev.sdp, s.dev.mem)) =
    some ([0x55#8, 0x55#8, 0x55#8, 0x55#8, 0x55#8], 306, false, []) := by decide

/-- Q5: the window elapses between writes 3 and 4. -/
theorem test_sdpd_missed_window :
    (after (exec .sdpd (start (device true [])
      (List.replicate 167 quiet ++ [{ quiet with windowElapse := true }] ++ List.replicate 138 quiet)))).map
      (fun s => (s.rspWord, s.dev.cmd, s.dev.sdp)) = some (0x0000#16, 0, true) := by decide

/-- Q2 and the last row of Q4. -/
theorem test_sdpe :
    (after (exec .sdpe (start (device false []) (List.replicate 167 quiet)))).map
      (fun s => (s.pollBit, s.trace.length, s.dev.sdp, s.dev.mem)) =
    some (true, 167, true, [(0x2AAA, 0x55#8), (0x5555, 0xA0#8)]) := by decide

/-- Q7. -/
theorem test_sdpe_deadline :
    (after (exec .sdpe { start (device false []) (List.replicate 167 quiet ++ [{ quiet with deadline := true }]) with
      build := { Build.base with deadlineEn := true } })).map (fun s => (s.rspWord, s.sq)) = some (0x0103#16, 3) := by decide

/-- Rule R115: an illegal word is answered `0x0400` with no pin event. -/
theorem test_illegal_word :
    (after (step { State.reset with commander := [0x58000000#32] })).map (fun s => (s.rspWord, s.trace, s.busy)) =
    some (0x0400#16, [], false) := by decide

/-- The first command a host presents after reset runs. -/
theorem test_first_command :
    (after (step (State.reset.withFetchWord 32 0x1000FF00))).map (fun s => (chain s, s.commander)) =
    some ([0xFF#8, 0x00#8, 0xFF#8, 0x00#8, 0x00#8], []) := by decide

/-- Rule R264: a reset inside the write pulse ends it, and the device takes the byte. -/
theorem test_reset_in_pulse :
    (after (exec (.wrb 0x0000#15 0xA5#8) (start (device false [])
      (List.replicate 56 quiet ++ [{ quiet with rst := true }])))).map
      (fun s => (s.dev.mem, s.rspValid, s.busy, s.dir, s.weN)) =
    some ([(0x0000, 0xA5#8)], false, false, .deviceDrives, true) := by decide

/-! ## Witnesses: a state and operands that meet the hypotheses of each statement -/

theorem witness_EncodeOfDecodedWordIsTheWord : decode 0x507FFFFF#32 = .ok (.wrb 0x7FFF#15 0xFF#8) := by decide

/-- Every row is selected by the word of its match and by the word with every free bit set; no row by the word 0. -/
theorem witness_DecoderFollowsTheOpcodeMap :
    (∀ r ∈ opcodeTable, r.selectedBy r.wanted = true ∧ r.selectedBy (r.wanted ||| ~~~r.mask) = true) ∧
    (∀ r ∈ opcodeTable, r.selectedBy 0x00000000#32 = false ∧ r.selectedBy 0xFFFFFFFF#32 = false) := by decide

theorem witness_IllegalWordsAnswerIllegalCommand :
    ({ State.reset with commander := [0xA0000000#32] } : State).busy = false ∧ decode 0xA0000000#32 = .error .unusedOp := by
  decide

theorem witness_StepRunsTheAcceptedCommand :
    ({ State.reset with commander := [encode .sdpd] } : State).busy = false ∧ decode (encode .sdpd) = .ok .sdpd := by decide

theorem witness_NoWordIsAcceptedWhileBusy :
    ({ State.reset with busy := true } : State).busy = true ∧ ∃ t, step { State.reset with busy := true } = .next t :=
  ⟨rfl, next_of_isSome (by decide)⟩

theorem witness_IdleBlockHoldsItsPins :
    State.reset.busy = false ∧ State.reset.commander = [] ∧ State.reset.NoResetFor 1 := by decide

theorem witness_SetaShiftsAndLatchesByTheCachingRule :
    (({ State.reset with lastHighValid := true } : State).LinesIdle ∧
      ({ State.reset with lastHighValid := true } : State).lastHigh = highByte 0x00FF#15 ∧
      ({ State.reset with lastHighValid := true } : State).NoResetFor 26) ∧
    (State.reset.LinesIdle ∧ State.reset.lastHighValid = false ∧ State.reset.NoResetFor 52) ∧
    (({ State.reset with lastHighValid := true } : State).LinesIdle ∧
      ({ State.reset with lastHighValid := true } : State).lastHigh ≠ highByte 0x0100#15 ∧
      ({ State.reset with lastHighValid := true } : State).NoResetFor 52) := by decide

theorem witness_AddressLinesCarryTheLastOperand :
    State.reset.Inv ∧ State.reset.NeverReset ∧ (∃ t, exec (.seta 0x7FFF#15) State.reset = .next t) ∧
    (∃ t, exec (.wrb 0x7FFF#15 0x00#8) State.reset = .next t) ∧ (∃ t, exec (.rdb 0x0000#15) State.reset = .next t) ∧
    (∃ t, exec .sdpd State.reset = .next t) ∧ (∃ t, exec .sdpe State.reset = .next t) ∧
    (∃ t, exec (.setd .hostDrives) State.reset = .next t) ∧ (∃ t, exec (.dwr 0x00#8) (driving (device false []) []) = .next t) ∧
    (driving (device false []) []).NeverReset ∧ (∃ t, exec .drd State.reset = .next t) ∧
    (∃ t, exec .wait State.reset = .next t) ∧ (∃ t, step { State.reset with busy := true } = .next t) :=
  ⟨by decide, by decide, next_of_isSome (by decide), next_of_isSome (by decide), next_of_isSome (by decide),
    next_of_isSome (by decide), next_of_isSome (by decide), next_of_isSome (by decide), next_of_isSome (by decide),
    by decide, next_of_isSome (by decide), next_of_isSome (by decide), next_of_isSome (by decide)⟩

theorem witness_SetdTurnsTheBusInOrder :
    (State.reset.dir = .deviceDrives ∧ State.reset.NoResetFor 2) ∧
    ((driving (device false []) []).dir = .hostDrives ∧ (driving (device false []) []).NoResetFor 2) := by decide

theorem witness_DwrDrivesTheByteAndRecordsItsTopBit :
    ((driving (device false []) []).dir = .hostDrives ∧ (driving (device false []) []).NoResetFor 1) ∧
    (State.reset.dir ≠ .hostDrives ∧ State.reset.build.safetyBuild = false) ∧
    (State.powerOn { Build.base with safetyBuild := true } (device false [])).dir ≠ .hostDrives ∧
    (State.powerOn { Build.base with safetyBuild := true } (device false [])).build.safetyBuild = true := by decide

theorem witness_DrdReturnsTheLiveByte :
    (State.reset.dir = .deviceDrives ∧ State.reset.ddir = .inputs ∧ State.reset.oeN = false ∧ State.reset.NoResetFor 1 ∧
      0x00#8 = (State.reset.passTimes 1).dev.read State.reset.addressLines State.reset.draws) ∧
    ((driving (device false []) []).dir ≠ .deviceDrives ∧ (driving (device false []) []).build.safetyBuild = false) ∧
    ({ driving (device false []) [] with build := { Build.base with safetyBuild := true } } : State).dir ≠ .deviceDrives := by
  decide

theorem witness_WrbDeliversOneByteToTheDevice :
    State.reset.LinesIdle ∧ State.reset.DirectionTrue ∧ State.reset.CacheTrue ∧
    State.reset.NoResetFor (wrbCost State.reset 0x7FFF#15) := by decide

theorem witness_RdbReturnsWhatTheDeviceDrives :
    State.reset.LinesIdle ∧ State.reset.DirectionTrue ∧ State.reset.CacheTrue ∧
    53 = setaCost State.reset 0x7FFF#15 + setdCost State.reset .deviceDrives + 1 ∧ State.reset.NoResetFor 53 ∧
    0x00#8 = (State.reset.passTimes 53).dev.read 0x7FFF#15 State.reset.draws := by decide

/-- A build that consults the deadline, the deadline not coming. -/
def patient : State :=
  { start (device false []) [quiet, quiet, quiet] with build := { Build.base with deadlineEn := true } }

theorem witness_WaitEndsAtAMatchingFirstSample :
    (State.reset.DirectionTrue ∧ 1 = setdCost State.reset .deviceDrives + lookCost State.reset + 1 ∧
      State.reset.NoResetFor 1 ∧ 0x00#8 = (State.reset.passTimes 1).dev.read State.reset.addressLines State.reset.draws ∧
      (0x00#8).getLsbD 7 = State.reset.pollBit) ∧
    (patient.DirectionTrue ∧ 2 = setdCost patient .deviceDrives + lookCost patient + 1 ∧ patient.NoResetFor 2 ∧
      (patient.passTimes (setdCost patient .deviceDrives + 1)).deadlineExpired = false ∧
      0x00#8 = (patient.passTimes 2).dev.read patient.addressLines patient.draws ∧
      (0x00#8).getLsbD 7 = patient.pollBit) := by decide

/-- A WAIT in progress whose samples mismatch, in a build with the given bounds. -/
def polling (limit : Option Nat) (deadlineEn : Bool) (env : List EnvSlot) : State :=
  { start (device false []) env with
    busy := true, pollBit := true, build := { Build.base with pollLimit := limit, deadlineEn := deadlineEn } }

theorem witness_PollIterationFollowsTheLoop :
    ((polling none true [{ quiet with deadline := true }]).busy = true ∧
      (polling none true [{ quiet with deadline := true }]).NoResetFor 1 ∧
      (polling none true [{ quiet with deadline := true }]).passTime.deadlineExpired = true) ∧
    (∀ limit ∈ [none, some 1, some 2],
      (polling limit true [quiet, quiet]).dir = .deviceDrives ∧ (polling limit true [quiet, quiet]).DirectionTrue ∧
      (polling limit true [quiet, quiet]).NoResetFor (lookCost (polling limit true [quiet, quiet]) + 1) ∧
      (polling limit true [quiet, quiet]).passTime.deadlineExpired = false ∧
      ((polling limit true [quiet, quiet]).passTimes 2).dev.read 0x0000#15 0 = 0x00#8 ∧
      (0x00#8).getLsbD 7 ≠ (polling limit true [quiet, quiet]).pollBit) ∧
    (1 ≤ (polling (some 1) true []).polls + 1 ∧ (polling (some 2) true []).polls + 1 < 2) ∧
    (0x00#8).getLsbD 7 = ({ polling none true [quiet, quiet] with pollBit := false } : State).pollBit := by decide

/-- X3. -/
theorem witness_UnboundedWaitNeverEnds :
    (polling none false []).DirectionTrue ∧ (polling none false []).NeverReset ∧
    (after (waitFor 2 (polling none false []))).map
      (fun t => (newEvents (polling none false []) t, t.polls)) =
    some ([.sample 0x00#8, .sample 0x00#8, .sample 0x00#8], 3) ∧ (0x00#8).getLsbD 7 ≠ (polling none false []).pollBit := by
  decide

/-- X4. -/
theorem witness_PollLimitRaisesUnexpectedToggleBit :
    (polling (some 3) false []).DirectionTrue ∧ (polling (some 3) false []).NeverReset ∧
    (after (waitFor 2 (polling (some 3) false []))).map
      (fun t => (newEvents (polling (some 3) false []) t, t.polls, t.rspWord)) =
    some ([.sample 0x00#8, .sample 0x00#8, .sample 0x00#8], 3, 0x0300#16) ∧
    (0x00#8).getLsbD 7 ≠ (polling (some 3) false []).pollBit := by decide

theorem witness_BlockedWriteShowsOnlyInTheWait :
    (start (device true []) []).Inv ∧ (start (device true []) []).NeverReset ∧
    (start (device true []) []).dev.sdp = true ∧ (start (device true []) []).dev.phase = .idle ∧
    (Memory.read [] 0).getLsbD 7 ≠ (0x80#8).getLsbD 7 ∧ (Memory.read [] 0).getLsbD 7 = (0x7F#8).getLsbD 7 := by decide

/-- A device that has just stored 0x00 at the address the lines point at. -/
def written (env : List EnvSlot) : State :=
  driving { device false [] with phase := .loading, pending := true } env

theorem witness_WaitObservesTheEndOfAStoredWrite :
    (written [quiet, quiet, done]).DirectionTrue ∧ (written [quiet, quiet, done]).NeverReset ∧
    (written [quiet, quiet, done]).dev.pending = true ∧ (written [quiet, quiet, done]).WriteObserved ∧
    (after (waitFor 2 (written [quiet, quiet, done]))).map (fun t => (t.busy, t.rspWord, t.dev.phase)) =
      some (false, 0x0000#16, .idle) ∧
    ((written [quiet, quiet, done]).slotAt 2).windowElapse = true ∧
    ((written [quiet, quiet, done]).slotAt 2).programDone = true := by decide

theorem witness_SdpSequencesAreTheirWrites :
    State.reset.Inv ∧ State.reset.NoResetFor (writesCost { State.reset with sq := 0 } sdpDisableWrites + lookCost State.reset) ∧
    State.reset.NoResetFor (writesCost { State.reset with sq := 0 } sdpEnableWrites + lookCost State.reset) := by decide

theorem witness_SdpdEndState : State.reset.Inv ∧ State.reset.NoResetFor 307 := by decide

theorem witness_SdpeEndState : State.reset.Inv ∧ State.reset.NoResetFor 168 := by decide

theorem witness_SdpSequencesMoveTheLatch :
    ∀ sdp ∈ [true, false], (start (device sdp []) (List.replicate 307 quiet)).Inv ∧
      (start (device sdp []) (List.replicate 307 quiet)).NoResetFor 307 ∧
      (start (device sdp []) (List.replicate 307 quiet)).SeqInWindow sdpDisableWrites ∧
      (start (device sdp []) (List.replicate 307 quiet)).SeqInWindow sdpEnableWrites ∧
      ((start (device sdp []) (List.replicate 307 quiet)).deviceAtFirstPulse sdpDisableWrites).phase ≠ .programming ∧
      ((start (device sdp []) (List.replicate 307 quiet)).deviceAtFirstPulse sdpEnableWrites).cmd = 0 := by decide

/-- A device whose window elapses before the first pulse of the sequence: the pulse finds it Idle. -/
theorem witness_SdpSequencesMoveTheLatch_late :
    let s := start { device true [] with phase := .loading, cmd := 3 }
      ({ quiet with windowElapse := true } :: List.replicate 306 quiet)
    s.Ready ∧ s.SeqInWindow sdpDisableWrites ∧ (s.deviceAtFirstPulse sdpDisableWrites).phase = .idle ∧
    (s.deviceAtFirstPulse sdpDisableWrites).cmd = 0 ∧ (after (exec .sdpd s)).map (fun t => t.dev.sdp) = some false := by decide

theorem witness_WritingCommandsNeverSeeTheDevice :
    ∀ i ∈ [Instr.seta 0x0100#15, .setd .hostDrives, .wrb 0x0100#15 0x42#8, .sdpd, .sdpe],
      i ≠ .drd ∧ i ≠ .wait ∧ (after (exec i State.reset)).isSome = true := by decide

theorem witness_SdpSequenceCosts :
    (∃ t, exec .sdpd State.reset = .next t) ∧ (∃ t, exec .sdpe State.reset = .next t) ∧ State.reset.lastHighValid = false ∧
    State.reset.Inv ∧ State.reset.NeverReset ∧
    (let s : State := { State.reset with lastHigh := 0x55#8, lastHighValid := true, qh := 0x55#8 }
     s.Inv ∧ s.NeverReset ∧ s.lastHigh = 0x55#8 ∧ (after (exec .sdpd s)).map (fun t => t.trace.length) = some 280 ∧
     (after (exec .sdpe s)).map (fun t => t.trace.length) = some 141) :=
  ⟨next_of_isSome (by decide), next_of_isSome (by decide), by decide, by decide, by decide, by decide⟩

theorem witness_device_statements :
    ({ device false [] with phase := .programming, pending := true } : Device).phase = .programming ∧
    Memory.wf (device false []).mem = true ∧ (device false []).phase ≠ .programming ∧ (device true []).sdp = true ∧
    (device false []).sdp = false ∧ (device false []).kind = .reference ∧ (device false []).pending = false ∧
    ({ device false [] with phase := .loading, pending := true } : Device).phase = .loading := by decide

theorem witness_step_statements :
    ({ State.reset with commander := [0x500000A5#32] } : State).Inv ∧
    (∃ t, step { State.reset with commander := [0x500000A5#32] } = .next t) :=
  ⟨by decide, next_of_isSome (by decide)⟩

/-- Both commands that a base build refuses. -/
theorem witness_InvariantRulesOutStops :
    exec (.dwr 0x12#8) State.reset = .refused .dwrWrongDirection ∧
    exec .drd (driving (device false []) []) = .refused .drdWrongDirection := ⟨rfl, rfl⟩

theorem witness_FaultsComeFromTheirOperations :
    (State.reset.rspValid = false ∧ (after (exec .sdpe State.reset)).map (fun t => t.rspValid) = some true) ∧
    ((polling (some 1) false []).Inv ∧ (polling (some 1) false []).rspValid = false ∧
      (after (step (polling (some 1) false []))).map (fun t => (t.rspValid, t.rspWord)) = some (true, 0x0300#16)) := by decide

theorem witness_BaseDesignReportsNoFault :
    State.reset.build = Build.base ∧ State.reset.NeverReset ∧ (∃ t, exec .wait State.reset = .next t) ∧
    ∃ t, step { State.reset with busy := true } = .next t :=
  ⟨rfl, by decide, next_of_isSome (by decide), next_of_isSome (by decide)⟩

theorem witness_NonStoringCommandsKeepMemory :
    State.reset.weN = true ∧ (∃ t, exec (.rdb 0x0001#15) State.reset = .next t) ∧
    (∃ t, step { State.reset with busy := true } = .next t) :=
  ⟨rfl, next_of_isSome (by decide), next_of_isSome (by decide)⟩

theorem witness_StoringCommandsKeepOtherCells :
    State.reset.Inv ∧ (∃ t, exec (.wrb 0x0001#15 0x42#8) State.reset = .next t) ∧ (∃ t, exec .sdpd State.reset = .next t) ∧
    (∃ t, exec .sdpe State.reset = .next t) ∧ (∀ p ∈ sdpDisableWrites ++ sdpEnableWrites, 0 ≠ p.1.toNat) :=
  ⟨by decide, next_of_isSome (by decide), next_of_isSome (by decide), next_of_isSome (by decide),
    by simp [sdpDisableWrites, sdpEnableWrites]⟩

theorem witness_FirstWriteForgetsTheUnspecifiedRegisters :
    State.reset.LinesIdle ∧ State.reset.DirectionTrue ∧ State.reset.lastHighValid = false ∧ State.reset.NoResetFor 57 := by
  decide

theorem witness_ResetAbandonsAWait :
    (polling none false [{ quiet with rst := true }]).busy = true ∧
    (polling none false [{ quiet with rst := true }]).dir = .deviceDrives ∧
    (polling none false [{ quiet with rst := true }]).weN = true ∧
    ((polling none false [{ quiet with rst := true }]).slotAt 0).rst = true ∧
    pollSlots (polling none true [quiet, { quiet with rst := true }]) = 2 ∧
    (polling none true [quiet, { quiet with rst := true }]).NoResetFor 1 ∧
    ((polling none true [quiet, { quiet with rst := true }]).slotAt 1).rst = true := by decide

theorem witness_ResetInsideAWritePulseEndsIt :
    let s := start (device false []) (List.replicate 56 quiet ++ [{ quiet with rst := true }])
    s.Inv ∧ wrbCost s 0x0000#15 = 56 + 1 ∧ s.NoResetFor 56 ∧ (s.slotAt 56).rst = true := by decide

/-- P1, the device done at the first poll. -/
theorem witness_WriteWaitReadRoundTrip :
    let s := start (device false [(0x0000, 0xFF#8)]) (List.replicate 59 quiet ++ [done])
    s.Inv ∧ s.NeverReset ∧ s.busy = false ∧ s.dev.kind = .reference ∧ s.dev.phase = .idle ∧ s.dev.sdp = false ∧
    ((after (exec (.wrb 0x0000#15 0xA5#8) s)).bind (fun s1 => after (waitFor 0 s1))).map
      (fun s2 => (s2.busy, s2.rspWord)) = some (false, responseWord .ok 0x00#8) := by decide

theorem witness_UnlockThenWriteStoresTheByte :
    let s := start (device true []) (List.replicate 306 quiet)
    s.Ready ∧ s.NeverReset ∧ s.SeqInWindow sdpDisableWrites ∧ s.dev.phase = .idle ∧ s.dev.sdp = true := by decide

theorem witness_LockThenWriteLeavesEveryByte :
    let s := start (device false []) (List.replicate 167 quiet)
    s.Ready ∧ s.NeverReset ∧ s.SeqInWindow sdpEnableWrites ∧
    (s.deviceAtFirstPulse sdpEnableWrites).phase ≠ .programming ∧ (s.deviceAtFirstPulse sdpEnableWrites).cmd = 0 := by decide

theorem witness_AssemblerNeverTruncates : 0x7FFF < 0x8000 ∧ 0xFF < 0x100 ∧ 0x7FFF ≤ 0x7FFF ∧ 0xFF ≤ 0xFF := by decide

theorem witness_DumpRowsEnumerateEveryByte :
    (List.replicate 256 0x00#8).length = 256 ∧ (dumpRows 0 (List.replicate 256 0x00#8) 16)[15]?.isSome = true := by decide

/-- Rule R219: the bytes of two reads in order, the second past the end of the address space; rule R220: their place in a row. -/
theorem test_collect :
    (collect ((dumpReads 0x7FFF 2).map encode) (start (device false [(0x0000, 0x42#8), (0x7FFF, 0xA5#8)]) [])).map
      (fun r => r.1) = some [0xA5#8, 0x42#8] ∧
    (dumpRows 0x0100 ((List.range 32).map (BitVec.ofNat 8)) 2).map (fun r => (r.1, r.2.headD 0x00#8)) =
      [(0x0100, 0x00#8), (0x0110, 0x10#8)] := by decide

theorem witness_LiveDevice_statements :
    State.reset.dev.kind = .reference ∧ (written []).DirectionTrue ∧ (written []).NeverReset ∧
    (written []).dev.pending = true ∧ (written []).WriteObserved ∧ (written []).build = Build.base := by decide

/-- The first and the last slot of each command. -/
theorem witness_ResetInsideACommandAbandonsIt :
    let at_ := fun n => start (device false []) (List.replicate n quiet ++ [{ quiet with rst := true }])
    (∀ n ∈ [0, 51, 56], (at_ n).Ready ∧ (at_ n).NoResetFor n ∧ ((at_ n).slotAt n).rst = true) ∧
    slotsOf (at_ 51) (.seta 0x7FFF#15) = 52 ∧ slotsOf (at_ 0) (.setd .hostDrives) = 2 ∧ slotsOf (at_ 0) .drd = 1 ∧
    slotsOf (at_ 56) (.wrb 0x7FFF#15 0x00#8) = 57 ∧ slotsOf (at_ 0) (.rdb 0x7FFF#15) = 53 ∧ slotsOf (at_ 0) .wait = 1 ∧
    slotsOf (at_ 0) .sdpd = 306 ∧ slotsOf (at_ 0) .sdpe = 167 ∧ slotsOf (driving (device false []) []) (.dwr 0x00#8) = 1 := by
  decide

/-- The last slot before the pulse of a WRB opens. -/
theorem witness_ResetInsideACommandAbandonsIt_wrb :
    let s := start (device false []) (List.replicate 55 quiet ++ [{ quiet with rst := true }])
    s.Ready ∧ 55 + 1 < wrbCost s 0x7FFF#15 ∧ 55 < slotsOf s (.wrb 0x7FFF#15 0x00#8) ∧ s.NoResetFor 55 ∧
    (s.slotAt 55).rst = true := by decide

/-- The second write of SDPE: before its pulse is open, and inside it. -/
theorem witness_ResetInsideASequenceKeepsItsPulses :
    ∀ k ∈ [0, 53, 54],
      let s := start (device false []) (List.replicate (57 + k) quiet ++ [{ quiet with rst := true }])
      s.Ready ∧ sdpEnableWrites = [(0x5555#15, 0xAA#8)] ++ (0x2AAA#15, 0x55#8) :: [(0x5555#15, 0xA0#8)] ∧
      writesCost { s with sq := 0 } [(0x5555#15, 0xAA#8)] = 57 ∧
      wrbCost (State.afterWrites { s with sq := 0 } 0 [(0x5555#15, 0xAA#8)]) 0x2AAA#15 = 54 + 1 ∧
      s.NoResetFor (57 + k) ∧ (s.slotAt (57 + k)).rst = true := by decide

/-- The look at the deadline that ends SDPD. -/
theorem witness_ResetInsideASequenceKeepsItsPulses_look :
    let s : State := { start (device false []) (List.replicate 306 quiet ++ [{ quiet with rst := true }]) with
      build := { Build.base with deadlineEn := true } }
    s.Ready ∧ writesCost { s with sq := 0 } sdpDisableWrites = 306 ∧ s.NoResetFor 306 ∧ (s.slotAt 306).rst = true := by decide

/-- Rule R264: a reset inside the second pulse of SDPE ends it: both bytes are stored and the counter is at 2; one slot pair earlier
only the first write has reached the device. -/
theorem test_reset_in_sequence :
    (after (exec .sdpe (start (device false []) (List.replicate 111 quiet ++ [{ quiet with rst := true }])))).map
      (fun s => (s.dev.mem, s.dev.cmd, s.dir, s.sq)) =
      some ([(0x2AAA, 0x55#8), (0x5555, 0xAA#8)], 2, .deviceDrives, 0) ∧
    (after (exec .sdpe (start (device false []) (List.replicate 110 quiet ++ [{ quiet with rst := true }])))).map
      (fun s => (s.dev.mem, s.dev.cmd)) = some ([(0x5555, 0xAA#8)], 1) := by decide

/-- The deadline expired at the first look, with the bus to turn; a first sample that matches, and one that does not, in a build that
looks, with no limit and with limits of 1 and 2. -/
theorem witness_FirstIterationOfWaitFollowsTheLoop :
    (let s : State := { driving (device false []) [quiet, quiet, { quiet with deadline := true }] with
      build := { Build.base with deadlineEn := true } }
     2 = setdCost s .deviceDrives ∧ s.NoResetFor (2 + 1) ∧ (s.passTimes (2 + 1)).deadlineExpired = true ∧
     (after (exec .wait s)).map (fun t => (t.rspWord, t.polls, t.dir, t.trace)) =
       some (0x0100#16, 0, .deviceDrives, [.ddir .inputs, .oe false])) ∧
    (∀ limit ∈ [none, some 1, some 2], ∀ bit ∈ [true, false],
      let s : State := { start (device false []) [quiet, quiet] with
        pollBit := bit, build := { Build.base with pollLimit := limit, deadlineEn := true } }
      s.DirectionTrue ∧ 0 = setdCost s .deviceDrives ∧ 2 = 0 + lookCost s + 1 ∧ s.NoResetFor 2 ∧
      (s.passTimes 1).deadlineExpired = false ∧ 0x00#8 = (s.passTimes 2).dev.read s.addressLines s.draws) ∧
    (0x00#8).getLsbD 7 = false := by decide

theorem witness_ResetOfAnIdleBlockTakesTheResetState :
    let s := start (device false []) [{ quiet with rst := true }]
    s.busy = false ∧ s.commander = [] ∧ s.weN = true ∧ (s.slotAt 0).rst = true := by decide

theorem witness_DumpShowsTheBytesOfTheDevice :
    State.reset.Inv ∧ State.reset.NeverReset ∧ State.reset.busy = false ∧ State.reset.dev.kind = .reference ∧
    State.reset.dev.phase = .idle := by decide

end Sys2Proof.Tests
end

section
/-! SUPPORT. The family of 00_scope.md: the build parameters and the kind of device are constants of a run, and the machine
right after reset meets the invariant. -/

namespace Sys2Proof.Machine

/-! ## The constants of a run: no pin event and no reset writes them (rule R31; log 14) -/

@[simp] theorem pinEvent_build (s : State) (e : PinEvent) : (s.pinEvent e).build = s.build := by
  cases e <;> simp only [State.pinEvent, State.effect] <;> split <;> rfl

@[simp] theorem pinEvent_kind (s : State) (e : PinEvent) : (s.pinEvent e).dev.kind = s.dev.kind := by
  by_cases he : e = .we true
  · subst he
    simp only [State.pinEvent, State.effect]
    split
    · exact writePulse_kind _ _ _
    · rfl
  · exact congrArg Device.kind (effect_dev he)

@[simp] theorem pinEvents_build (s : State) (es : List PinEvent) : (s.pinEvents es).build = s.build := by
  induction es generalizing s with
  | nil => rfl
  | cons e es ih => rw [pinEvents_cons, ih, pinEvent_build]

@[simp] theorem pinEvents_kind (s : State) (es : List PinEvent) : (s.pinEvents es).dev.kind = s.dev.kind := by
  induction es generalizing s with
  | nil => rfl
  | cons e es ih => rw [pinEvents_cons, ih, pinEvent_kind]

@[simp] theorem resetBlock_build (s : State) : s.resetBlock.build = s.build := pinEvents_build s resetEvents

@[simp] theorem resetBlock_kind (s : State) : s.resetBlock.dev.kind = s.dev.kind := pinEvents_kind s resetEvents

/-- The constants of a run have the given values. -/
def State.HasConstants (b : Build) (k : DeviceKind) (s : State) : Prop := s.build = b ∧ s.dev.kind = k

/-- An update that writes neither constant keeps their values. -/
theorem State.HasConstants.congr {b : Build} {k : DeviceKind} {s t : State} (hb : t.build = s.build)
    (hk : t.dev.kind = s.dev.kind) (h : s.HasConstants b k) : t.HasConstants b k :=
  ⟨hb.trans h.1, hk.trans h.2⟩

/-- Time and write pulses move the device but not its kind; every other write of a step is of some other field. -/
theorem hasConstants_keptByStep (b : Build) (k : DeviceKind) : KeptByStep true (State.HasConstants b k) where
  passTime s := .congr (passTime_build s) (environment_kind s.dev (s.slotAt 0))
  pinEvent s e _ := .congr (pinEvent_build s e) (pinEvent_kind s e)
  resetBlock s := .congr (resetBlock_build s) (resetBlock_kind s)
  cache _ _ h := h
  direction _ _ h := h
  pollBit _ _ h := h
  position _ _ _ _ h := h
  respond _ _ _ h := h
  polling _ h := h
  accept _ h := h

/-! ## The invariant at power-up -/

theorem powerOn_linesIdle (b : Build) (d : Device) : (State.powerOn b d).LinesIdle := ⟨rfl, rfl, rfl, rfl⟩

/-- The cache is invalid, so it claims nothing of the chain, whatever the chain holds (rule R25). -/
theorem powerOn_cacheTrue (b : Build) (d : Device) : (State.powerOn b d).CacheTrue :=
  fun hvalid => absurd hvalid Bool.false_ne_true

theorem powerOn_directionTrue (b : Build) (d : Device) : (State.powerOn b d).DirectionTrue := by
  simp [State.DirectionTrue, State.powerOn]

theorem powerOn_responseLegal (b : Build) (d : Device) : (State.powerOn b d).ResponseLegal := by
  have hzero : (0x0000#16).extractLsb' 12 4 = 0#4 ∧ ((0x0000#16).extractLsb' 8 4).toNat ≤ 4 := by decide
  exact hzero

/-- No command is in progress. -/
theorem powerOn_waitTrue (b : Build) (d : Device) : (State.powerOn b d).WaitTrue :=
  fun hbusy => absurd hbusy Bool.false_ne_true

/-- At power-up the device is Idle with nothing pending and its counter at 0 (rule R71). -/
theorem device_powerOn_coherent (sdp : Bool) (m : Memory) : (Device.powerOn sdp m).Coherent :=
  ⟨fun _ => ⟨rfl, rfl⟩, fun hprog => absurd hprog Phase.noConfusion⟩

/-- The block's part of the invariant holds at power-up before any device; the rest is the device's own. -/
theorem powerOn_inv (b : Build) {d : Device} (hcoherent : d.Coherent) (hwf : Memory.wf d.mem = true) :
    (State.powerOn b d).Inv :=
  ⟨⟨powerOn_linesIdle b d, powerOn_cacheTrue b d, powerOn_directionTrue b d, hcoherent, hwf,
    powerOn_responseLegal b d⟩, powerOn_waitTrue b d⟩

/-- Settles O39: what a step keeps (`step_keeps`), at the constants that the state before the step has. -/
theorem stepLeavesTheBuildAlone : Obligations.StepLeavesTheBuildAlone := by
  unfold Obligations.StepLeavesTheBuildAlone
  intro s t hstep
  have hs : s.HasConstants s.build s.dev.kind := ⟨rfl, rfl⟩
  exact step_keeps (hasConstants_keptByStep s.build s.dev.kind) hs hstep

/-- Settles O35: `State.reset` is the power-up of the base build before a device with an empty memory, which is canonical. -/
theorem resetMeetsTheInvariant : Obligations.ResetMeetsTheInvariant := by
  unfold Obligations.ResetMeetsTheInvariant
  have hpowerOn : ∀ (b : Build) (sdp : Bool) (m : Memory), Memory.wf m = true →
      (State.powerOn b (Device.powerOn sdp m)).Inv :=
    fun b sdp m hwf => powerOn_inv b (device_powerOn_coherent sdp m) hwf
  exact ⟨hpowerOn Build.base false [] rfl, hpowerOn⟩

end Sys2Proof.Machine
end

section
/-! SUPPORT. The family of 10_state.md, first part: every command is one operation, and everything a command or a poll can do from an
operation boundary leads to an operation boundary, along a trace without contention and with guarded write pulses. -/

namespace Sys2Proof.Machine

/-! ## Commands as operations -/

/-- The operation that a command performs. -/
def operation : Instr → Op Progress
  | .seta a => endsPlain (seta a)
  | .setd m => endsPlain (setd m)
  | .dwr d => endsPlain (dwr d)
  | .drd => endsWith drd
  | .wrb a d => endsPlain (wrb a d)
  | .rdb a => endsWith (rdb a)
  | .wait => wait
  | .sdpd => endsPlain sdpd
  | .sdpe => endsPlain sdpe

theorem exec_eq_perform (i : Instr) (s : State) : exec i s = perform (operation i) s := by cases i <;> rfl

/-- Everything a command's end can be (rules R102, R236, R260). -/
theorem perform_cases {m : Op Progress} {s t : State} (h : perform m s = .next t) :
    (∃ d u, m s = .ok (.finished d) u ∧ t = u.respond .ok d) ∨
    (∃ u, m s = .ok .polling u ∧ t = { u with busy := true }) ∨
    (∃ st info u, m s = .raised st info u ∧ t = u.respond st info) ∨
    m s = .abandoned t := by
  unfold perform at h
  cases hm : m s with
  | ok p u =>
    rw [hm] at h
    cases p with
    | finished d => exact .inl ⟨d, u, rfl, by simpa using h.symm⟩
    | polling => exact .inr (.inl ⟨u, rfl, by simpa using h.symm⟩)
  | raised st info u => rw [hm] at h; exact .inr (.inr (.inl ⟨st, info, u, rfl, by simpa [raise_eq] using h.symm⟩))
  | abandoned u => rw [hm] at h; exact .inr (.inr (.inr (by simpa using h)))
  | fault f => rw [hm] at h; cases h
  | refused r => rw [hm] at h; cases h

theorem perform_abandoned {m : Op Progress} {s v : State} (h : m s = .abandoned v) : perform m s = .next v := by
  simp only [perform, h]

/-- A command without a loop that runs to its end is answered (rule R102). -/
theorem perform_endsPlain_ok {m : Op Unit} {s t : State} (h : m s = .ok () t) :
    perform (endsPlain m) s = .next (t.respond .ok 0x00#8) := by
  simp only [perform, endsPlain, Op.andThen, h, done_apply]

theorem andThen_eq_ok {α β : Type} {m : Op α} {k : α → Op β} {s t : State} {b : β}
    (h : Op.andThen m k s = .ok b t) : ∃ a u, m s = .ok a u ∧ k a u = .ok b t := by
  unfold Op.andThen at h
  cases hm : m s with
  | ok a u => rw [hm] at h; exact ⟨a, u, rfl, h⟩
  | raised st info u => rw [hm] at h; cases h
  | abandoned u => rw [hm] at h; cases h
  | fault f => rw [hm] at h; cases h
  | refused r => rw [hm] at h; cases h

/-! ## What a direction says of the pins -/

/-- `ddir` in a direction (rule R44). -/
def ddirOf : Direction → PinDir
  | .hostDrives => .outputs
  | .deviceDrives => .inputs

/-- `oe_n` in a direction (rule R44). -/
def oeNOf : Direction → Bool
  | .hostDrives => true
  | .deviceDrives => false

theorem directionTrue_iff (s : State) : s.DirectionTrue ↔ s.ddir = ddirOf s.dir ∧ s.oeN = oeNOf s.dir := by
  unfold State.DirectionTrue
  cases s.dir <;> cases s.ddir <;> cases s.oeN <;> simp [ddirOf, oeNOf]

/-- A direction has one driver (rule R43). -/
theorem not_contended_of_directionTrue {s : State} (h : s.DirectionTrue) : s.contended = false := by
  obtain ⟨hd, ho⟩ := (directionTrue_iff s).mp h
  rw [State.contended, hd, ho]
  cases s.dir <;> rfl

/-! ## Disciplined traces -/

/-- The events lead the pins from one direction to another with `we_n` 1 at both ends, and add nothing to what the trace discipline
asks of the events after them (rules R43, R45). -/
structure Leads (m : Direction) (es : List PinEvent) (m' : Direction) : Prop where
  bus : ∀ fs, busSafeAlong (ddirOf m) (oeNOf m) (es ++ fs) = busSafeAlong (ddirOf m') (oeNOf m') fs
  pulses : ∀ fs, pulsesGuarded (ddirOf m) (oeNOf m) true (es ++ fs) = pulsesGuarded (ddirOf m') (oeNOf m') true fs

theorem Leads.refl (m : Direction) : Leads m [] m := ⟨fun _ => rfl, fun _ => rfl⟩

theorem Leads.trans {m m' m'' : Direction} {es fs : List PinEvent} (h : Leads m es m') (h' : Leads m' fs m'') :
    Leads m (es ++ fs) m'' where
  bus gs := by rw [List.append_assoc, h.bus, h'.bus]
  pulses gs := by rw [List.append_assoc, h.pulses, h'.pulses]

theorem Leads.busSafe {m m' : Direction} {es : List PinEvent} (h : Leads m es m') :
    busSafeAlong (ddirOf m) (oeNOf m) es = true := by
  have hend := h.bus []
  rw [List.append_nil] at hend
  rw [hend]
  cases m' <;> rfl

theorem Leads.guarded {m m' : Direction} {es : List PinEvent} (h : Leads m es m') :
    pulsesGuarded (ddirOf m) (oeNOf m) true es = true := by
  have hend := h.pulses []
  rw [List.append_nil] at hend
  rw [hend]
  rfl

/-- The events that move neither `ddir` nor `oe_n` nor `we_n`. -/
def PinEvent.Quiet : PinEvent → Prop
  | .oe _ => False
  | .we _ => False
  | .ddir _ => False
  | _ => True

theorem leads_quiet_one (m : Direction) {e : PinEvent} (h : e.Quiet) : Leads m [e] m := by
  cases e with
  | oe b => exact h.elim
  | we b => exact h.elim
  | ddir d => exact h.elim
  | _ => constructor <;> intro fs <;> cases m <;> simp [busSafeAlong, pulsesGuarded, ddirOf, oeNOf]

theorem leads_quiet (m : Direction) : ∀ {es : List PinEvent}, (∀ e ∈ es, e.Quiet) → Leads m es m
  | [], _ => .refl m
  | e :: _, h => (leads_quiet_one m (h e (by simp))).trans (leads_quiet m (fun x hx => h x (by simp [hx])))

theorem setaEvents_quiet (s : State) (a : Addr) : ∀ e ∈ setaEvents s a, e.Quiet := by
  have hshift : ∀ bs : List Bool, ∀ e ∈ bs.flatMap shiftEvents, e.Quiet := by
    intro bs e he
    obtain ⟨b, _, hb⟩ := List.mem_flatMap.mp he
    simp only [shiftEvents, List.mem_cons, List.not_mem_nil, or_false] at hb
    rcases hb with rfl | rfl | rfl <;> trivial
  have hlatch : ∀ e ∈ latchHighEvents ++ latchLowEvents, e.Quiet := by
    simp [latchHighEvents, latchLowEvents, PinEvent.Quiet]
  intro e he
  unfold setaEvents at he
  split at he <;> simp only [List.mem_append] at he
  · exact he.elim (hshift _ e) (fun h => hlatch e (List.mem_append_right _ h))
  · exact he.elim (fun h => h.elim (hshift _ e) (fun h => hlatch e (List.mem_append_left _ h)))
      (fun h => hlatch e (List.mem_append_right _ h))

theorem setdEvents_leads (s : State) (m : Direction) : Leads s.dir (setdEvents s m) m := by
  unfold setdEvents
  split
  · rename_i h; rw [h]; exact .refl m
  · rename_i h
    cases m <;> cases hd : s.dir
    · exact absurd hd h
    · constructor <;> intro fs <;> simp [busSafeAlong, pulsesGuarded, ddirOf, oeNOf]
    · constructor <;> intro fs <;> simp [busSafeAlong, pulsesGuarded, ddirOf, oeNOf]
    · exact absurd hd h

/-- The write pulse opens with the host alone driving and nothing happens inside it (rule R45). -/
theorem pulse_leads : Leads .hostDrives [.we false, .we true] .hostDrives := by
  constructor <;> intro fs <;> simp [busSafeAlong, pulsesGuarded, ddirOf, oeNOf]

theorem wrbEvents_leads (s : State) (a : Addr) (d : Byte) : Leads s.dir (wrbEvents s a d) .hostDrives :=
  ((leads_quiet s.dir (setaEvents_quiet s a)).trans (setdEvents_leads s .hostDrives)).trans
    ((leads_quiet_one .hostDrives (e := .dout d) trivial).trans pulse_leads)

/-! ### A reset part-way -/

/-- `ddir` after an event (rule R38). -/
def ddirAfter (d : PinDir) : PinEvent → PinDir
  | .ddir m => m
  | _ => d

/-- `oe_n` after an event (rule R38). -/
def oeNAfter (o : Bool) : PinEvent → Bool
  | .oe v => v
  | _ => o

theorem busSafeAlong_cons (d : PinDir) (o : Bool) (e : PinEvent) (es : List PinEvent) :
    busSafeAlong d o (e :: es) = (!(d == .outputs && !o) && busSafeAlong (ddirAfter d e) (oeNAfter o e) es) := by
  cases e <;> rfl

/-- The pin writes of a reset bring safe lines back to DeviceDrives: `ddir` falls before `oe_n` does (rule R262). -/
theorem busSafeAlong_resetEvents {d : PinDir} {o : Bool} (h : (!(d == .outputs && !o)) = true) (fs : List PinEvent) :
    busSafeAlong d o (resetEvents ++ fs) = busSafeAlong .inputs false fs := by
  have hdevice : ∀ o : Bool, (!(PinDir.inputs == PinDir.outputs && !o)) = true := fun _ => rfl
  cases fs <;>
    simp only [resetEvents, List.cons_append, List.nil_append, busSafeAlong_cons, ddirAfter, oeNAfter, h, hdevice,
      Bool.true_and]

theorem busSafeAlong_take_reset (es : List PinEvent) : ∀ {d : PinDir} {o : Bool} (k : Nat) (fs : List PinEvent),
    busSafeAlong d o es = true →
    busSafeAlong d o (es.take k ++ (resetEvents ++ fs)) = busSafeAlong .inputs false fs := by
  induction es with
  | nil => intro d o k fs h; rw [List.take_nil]; exact busSafeAlong_resetEvents h fs
  | cons e es ih =>
    intro d o k fs h
    rw [busSafeAlong_cons, Bool.and_eq_true] at h
    obtain ⟨hsafe, hrest⟩ := h
    cases k with
    | zero => exact busSafeAlong_resetEvents hsafe fs
    | succ k =>
      rw [List.take_succ_cons, List.cons_append, busSafeAlong_cons, hsafe, Bool.true_and]
      exact ih k fs hrest

theorem pulsesGuarded_take_reset (es : List PinEvent) : ∀ {d : PinDir} {o w : Bool} (k : Nat) (fs : List PinEvent),
    pulsesGuarded d o w es = true →
    pulsesGuarded d o w (es.take k ++ (resetEvents ++ fs)) = pulsesGuarded .inputs false true fs := by
  have hreset : ∀ (d : PinDir) (o w : Bool) (fs : List PinEvent),
      pulsesGuarded d o w (resetEvents ++ fs) = pulsesGuarded .inputs false true fs := by
    intro d o w fs; cases w <;> simp [resetEvents, pulsesGuarded]
  induction es with
  | nil => intro d o w k fs _; rw [List.take_nil]; exact hreset d o w fs
  | cons e es ih =>
    intro d o w k fs h
    cases k with
    | zero => exact hreset d o w fs
    | succ k =>
      rw [List.take_succ_cons, List.cons_append]
      cases w with
      | true =>
        cases e with
        | we b =>
          cases b with
          | false =>
            rw [pulsesGuarded, Bool.and_eq_true] at h
            rw [pulsesGuarded, h.1, Bool.true_and]
            exact ih k fs h.2
          | true => exact ih k fs h
        | _ => exact ih k fs h
      | false =>
        cases e with
        | we b =>
          cases b with
          | false => simp [pulsesGuarded] at h
          | true => exact ih k fs h
        | _ => simp [pulsesGuarded] at h

/-- A reset in the middle of a disciplined trace ends it in DeviceDrives (rules R262, R264). -/
theorem Leads.reset {m m' : Direction} {es : List PinEvent} (h : Leads m es m') (k : Nat) :
    Leads m (es.take k ++ resetEvents) .deviceDrives where
  bus fs := by rw [List.append_assoc]; exact busSafeAlong_take_reset es k fs h.busSafe
  pulses fs := by rw [List.append_assoc]; exact pulsesGuarded_take_reset es k fs h.guarded

/-! ## From boundary to boundary -/

/-- What holds of the block at every operation boundary (rules R40, R41, R44). -/
abbrev State.AtBoundary (s : State) : Prop := s.LinesIdle ∧ s.DirectionTrue ∧ s.CacheTrue

/-- `u` is at a boundary, and a disciplined trace leads to it from `s`. -/
structure Follows (s u : State) : Prop where
  boundary : u.AtBoundary
  course : ∃ es, u.trace = s.trace ++ es ∧ Leads s.dir es u.dir

theorem Follows.refl {s : State} (h : s.AtBoundary) : Follows s s := ⟨h, [], by simp, .refl _⟩

theorem Follows.step {s u t : State} {es : List PinEvent} (h : Follows s u) (hb : t.AtBoundary)
    (ht : t.trace = u.trace ++ es) (hl : Leads u.dir es t.dir) : Follows s t := by
  obtain ⟨fs, htrace, hfs⟩ := h.course
  exact ⟨hb, fs ++ es, by rw [ht, htrace, List.append_assoc], hfs.trans hl⟩

/-- A reset after the first `k` events of a disciplined trace. -/
theorem Follows.reset {s u v : State} {es : List PinEvent} {m : Direction} (h : Follows s u) (hl : Leads u.dir es m)
    (k : Nat) (hv : v.trace = u.trace ++ es.take k) : Follows s v.resetBlock ∧ v.resetBlock.busy = false := by
  obtain ⟨hlines, hcache, hdir, _⟩ := resetBlock_boundary v
  obtain ⟨_, _, _, _, hd, _, hbusy, _, _, _, _, _, _, _, _, _, _, _, htrace⟩ := resetBlock_fields v
  refine ⟨h.step ⟨hlines, hdir, hcache⟩ (es := es.take k ++ resetEvents) ?_ (by rw [hd]; exact hl.reset k), hbusy⟩
  rw [htrace, hv, List.append_assoc]

/-- A reset before any event. -/
theorem Follows.reset_now {s u v : State} (h : Follows s u) (hv : v.trace = u.trace) :
    Follows s v.resetBlock ∧ v.resetBlock.busy = false :=
  h.reset (.refl _) 0 (by rw [hv]; simp)

/-- Whatever way the operation ends, it ends at a boundary that a disciplined trace leads to; where it is abandoned the block is
idle. -/
def Op.Follows {α : Type} (s : State) (m : Op α) : Prop := ∀ u, Machine.Follows s u →
  match m u with
  | .ok _ t => Machine.Follows s t
  | .raised _ _ t => Machine.Follows s t
  | .abandoned t => Machine.Follows s t ∧ t.busy = false
  | .fault _ => True
  | .refused _ => True

theorem follows_done {α : Type} {s : State} (a : α) : Op.Follows s (Op.done a) := fun _ h => h

theorem follows_andThen {α β : Type} {s : State} {m : Op α} {k : α → Op β} (h : Op.Follows s m)
    (hk : ∀ a, Op.Follows s (k a)) : Op.Follows s (Op.andThen m k) := by
  intro u hu
  have hm := h u hu
  simp only [Op.andThen]
  cases hr : m u with
  | ok a t => rw [hr] at hm; exact hk a t hm
  | raised st info t => rw [hr] at hm; exact hm
  | abandoned t => rw [hr] at hm; exact hm
  | fault f => trivial
  | refused r => trivial

theorem follows_inOrder {s : State} {ms : List (Op Unit)} (h : ∀ m ∈ ms, Op.Follows s m) :
    Op.Follows s (inOrder ms) := by
  induction ms with
  | nil => exact follows_done ()
  | cons m ms ih => exact follows_andThen (h m (by simp)) (fun _ => ih (fun x hx => h x (by simp [hx])))

/-- An operation with a closed form follows its events. -/
theorem follows_of_runs {s : State} {m : Op Unit} (h : ∀ u : State, u.AtBoundary →
    ∃ es t, Runs m u es t ∧ t.AtBoundary ∧ Leads u.dir es t.dir) : Op.Follows s m := by
  intro u hu
  obtain ⟨es, t, hruns, hb, hl⟩ := h u hu.boundary
  rcases hruns.cases with ⟨_, hm⟩ | ⟨k, v, _, hm, hv⟩
  · rw [hm]; exact hu.step hb hruns.trace hl
  · rw [hm]; exact hu.reset hl k hv

/-! ### The operations -/

theorem afterSeta_boundary {s : State} (h : s.AtBoundary) (a : Addr) : (s.afterSeta a).AtBoundary := by
  obtain ⟨hlines, hdir, hcache⟩ := h
  obtain ⟨f1, f2, f3, f4, _, _, f7, f8, f9, _⟩ := afterSeta_fields s a
  refine ⟨?_, ?_, afterSeta_cacheTrue hcache a⟩
  · simpa only [State.LinesIdle, f4, f7, f8, f9] using hlines
  · simpa only [State.DirectionTrue, f1, f2, f3] using hdir

theorem afterSetd_boundary {s : State} (h : s.AtBoundary) (m : Direction) : (s.afterSetd m).AtBoundary := by
  obtain ⟨hlines, hdir, hcache⟩ := h
  obtain ⟨f1, _, f3, f4, f5, f6, f7, _, _, f10, f11, f12, _⟩ := afterSetd_fields s m
  refine ⟨?_, afterSetd_directionTrue hdir m, ?_⟩
  · simpa only [State.LinesIdle, f7, f10, f11, f12] using hlines
  · simpa only [State.CacheTrue, f1, f3, f4, f5, f6] using hcache

theorem passTimes_boundary {s : State} (h : s.AtBoundary) (n : Nat) : (s.passTimes n).AtBoundary := by
  rw [passTimes_eq]; exact h

theorem follows_seta (s : State) (a : Addr) : Op.Follows s (seta a) := by
  refine follows_of_runs (fun u hu => ?_)
  have hb := afterSeta_boundary (passTimes_boundary hu (setaCost u a)) a
  obtain ⟨⟨hck, hl, hh, _⟩, _⟩ := hu
  refine ⟨_, _, seta_runs hck hl hh a, hb, ?_⟩
  rw [(afterSeta_fields _ a).1, passTimes_dir]
  exact leads_quiet u.dir (setaEvents_quiet u a)

theorem follows_setd (s : State) (m : Direction) : Op.Follows s (setd m) := by
  refine follows_of_runs (fun u hu =>
    ⟨_, _, setd_runs u m, afterSetd_boundary (passTimes_boundary hu (setdCost u m)) m, ?_⟩)
  rw [afterSetd_dir]
  exact setdEvents_leads u m

theorem follows_update {s : State} {f : State → State} (h : ∀ u, Follows s u → Follows s (f u)) :
    Op.Follows s (update f) := h

theorem follows_wrongDirection {α : Type} (s : State) (r : Refusal) : Op.Follows s (wrongDirection (α := α) r) := by
  intro u hu
  unfold wrongDirection
  cases u.build.safetyBuild
  · trivial
  · exact hu

theorem follows_dwr (s : State) (d : Byte) : Op.Follows s (dwr d) := by
  intro u hu
  by_cases hdir : u.dir = .hostDrives
  · have hruns := dwr_runs hdir d
    have hl : Leads u.dir [.dout d] u.dir := leads_quiet_one u.dir trivial
    rcases hruns.cases with ⟨_, hm⟩ | ⟨k, v, _, hm, hv⟩
    · rw [hm]; exact hu.step (passTimes_boundary hu.boundary 1) hruns.trace hl
    · rw [hm]; exact hu.reset hl k hv
  · have hm : dwr d u = wrongDirection .dwrWrongDirection u := by simp only [dwr, if_neg hdir]
    rw [hm]; exact follows_wrongDirection s _ u hu

theorem follows_wrb (s : State) (a : Addr) (d : Byte) : Op.Follows s (wrb a d) := by
  refine follows_of_runs (fun u hu => ?_)
  obtain ⟨hlines, hdir, hcache⟩ := hu
  refine ⟨_, _, wrb_runs hlines hdir (fun hv => (hcache hv).1) a d, afterWrb_ready hlines hdir hcache a d, ?_⟩
  obtain ⟨_, _, hhost, _⟩ := afterWrb_fields u a d
  rw [hhost]
  exact wrbEvents_leads u a d

/-- A sample is taken with the device alone driving (rules R37, R43). -/
theorem follows_drd (s : State) : Op.Follows s drd := by
  intro u hu
  by_cases hdir : u.dir = .deviceDrives
  · rcases drd_cases hdir (not_contended_of_directionTrue hu.boundary.2.1) with ⟨_, hm⟩ | hm
    · rw [hm]
      exact hu.step (passTimes_boundary hu.boundary 1) rfl (leads_quiet_one u.dir trivial)
    · rw [hm]; exact hu.reset_now rfl
  · have hm : drd u = wrongDirection .drdWrongDirection u := by simp only [drd, if_neg hdir]
    rw [hm]; exact follows_wrongDirection s _ u hu

/-- Everything a look at the deadline can be (rule R232). -/
theorem lookDeadline_cases (s : State) :
    (s.NoResetFor (lookCost s) ∧ lookDeadline s =
      .ok (s.build.deadlineEn && (s.passTimes (lookCost s)).deadlineExpired) (s.passTimes (lookCost s))) ∨
    (lookCost s = 1 ∧ (s.slotAt 0).rst = true ∧ lookDeadline s = .abandoned s.passTime.resetBlock) := by
  cases hd : s.build.deadlineEn with
  | false => exact .inl ⟨fun k hk => by simp [lookCost, hd] at hk, by simp [lookDeadline, lookCost, hd]⟩
  | true =>
    have hcost : lookCost s = 1 := by simp [lookCost, hd]
    rw [hcost]
    cases hr : (s.slotAt 0).rst with
    | false =>
      refine .inl ⟨fun k hk => ?_, by simp [lookDeadline, hd, afterSlot, hr, passTimes_succ]⟩
      obtain rfl : k = 0 := by omega
      exact hr
    | true => exact .inr ⟨rfl, rfl, by simp [lookDeadline, hd, afterSlot, hr]⟩

theorem follows_lookDeadline (s : State) : Op.Follows s lookDeadline := by
  intro u hu
  rcases lookDeadline_cases u with ⟨_, hm⟩ | ⟨_, _, hm⟩
  · rw [hm]
    exact hu.step (passTimes_boundary hu.boundary _) (es := []) (by simp) (by rw [passTimes_dir]; exact .refl _)
  · rw [hm]; exact hu.reset_now rfl

/-- Judging a sample moves nothing but the loop's own variables (rule R188). -/
theorem judgeSample_cases (v : Byte) (s : State) :
    judgeSample v s = .ok (.finished 0x00#8) { s with pollByte := v } ∨
    judgeSample v s = .raised .unexpectedToggleBit v { s with pollByte := v, polls := s.polls + 1 } ∨
    judgeSample v s = .ok .polling { s with pollByte := v, polls := s.polls + 1 } := by
  unfold judgeSample
  split
  · exact .inl rfl
  · split
    · exact .inr (.inl rfl)
    · exact .inr (.inr rfl)

theorem follows_judgeSample (s : State) (v : Byte) : Op.Follows s (judgeSample v) := by
  intro u hu
  rcases judgeSample_cases v u with hm | hm | hm <;> rw [hm] <;> exact ⟨hu.boundary, hu.course⟩

theorem follows_pollOnce (s : State) : Op.Follows s pollOnce := by
  refine follows_andThen (follows_lookDeadline s) (fun expired u hu => ?_)
  cases expired with
  | true => exact hu
  | false => exact follows_andThen (follows_drd s) (follows_judgeSample s) u hu

theorem follows_rdb (s : State) (a : Addr) : Op.Follows s (rdb a) := by
  refine follows_andThen (follows_inOrder ?_) (fun _ => follows_drd s)
  simp only [List.forall_mem_cons]
  exact ⟨follows_seta s a, follows_setd s _, by simp⟩

theorem follows_wait (s : State) : Op.Follows s wait := by
  refine follows_andThen (follows_inOrder ?_) (fun _ => follows_pollOnce s)
  simp only [List.forall_mem_cons]
  exact ⟨follows_setd s _, follows_update (fun u hu => ⟨hu.boundary, hu.course⟩), by simp⟩

theorem follows_setSq (s : State) (n : Fin 7) : Op.Follows s (setSq n) :=
  follows_update (fun _ hu => ⟨hu.boundary, hu.course⟩)

theorem follows_issueWrites (s : State) (ws : List (Addr × Byte)) : ∀ done : Fin 7, Op.Follows s (issueWrites done ws) := by
  induction ws with
  | nil => intro done; exact follows_done ()
  | cons w rest ih =>
    intro done
    refine follows_inOrder ?_
    simp only [List.forall_mem_cons]
    exact ⟨follows_wrb s w.1 w.2, follows_setSq s _, ih _, by simp⟩

theorem follows_sequence (s : State) (ws : List (Addr × Byte)) (info : Byte) :
    Op.Follows s (inOrder [setSq 0, issueWrites 0 ws, sequenceDeadline info]) := by
  have hdeadline : Op.Follows s (sequenceDeadline info) := by
    refine follows_andThen (follows_lookDeadline s) (fun expired u hu => ?_)
    cases expired <;> exact hu
  refine follows_inOrder ?_
  simp only [List.forall_mem_cons]
  exact ⟨follows_setSq s 0, follows_issueWrites s ws 0, hdeadline, by simp⟩

theorem follows_operation (s : State) (i : Instr) : Op.Follows s (operation i) := by
  have hplain : ∀ {m : Op Unit}, Op.Follows s m → Op.Follows s (endsPlain m) :=
    fun h => follows_andThen h (fun _ => follows_done _)
  have hwith : ∀ {m : Op Byte}, Op.Follows s m → Op.Follows s (endsWith m) :=
    fun h => follows_andThen h (fun _ => follows_done _)
  cases i with
  | seta a => exact hplain (follows_seta s a)
  | setd m => exact hplain (follows_setd s m)
  | dwr d => exact hplain (follows_dwr s d)
  | drd => exact hwith (follows_drd s)
  | wrb a d => exact hplain (follows_wrb s a d)
  | rdb a => exact hwith (follows_rdb s a)
  | wait => exact follows_wait s
  | sdpd => exact hplain (follows_sequence s _ _)
  | sdpe => exact hplain (follows_sequence s _ _)

/-! ### Only a WAIT polls on, in DeviceDrives -/

theorem pollOnce_polling {s u : State} (h : pollOnce s = .ok .polling u) : u.dir = .deviceDrives := by
  obtain ⟨expired, t, hlook, h⟩ := andThen_eq_ok h
  cases expired with
  | true => cases h
  | false =>
    obtain ⟨v, x, hdrd, hjudge⟩ := andThen_eq_ok (m := drd) (k := judgeSample) h
    have hx : x.dir = .deviceDrives := by
      by_cases hdir : t.dir = .deviceDrives
      · simp only [drd, hdir, if_true, sampleLines, afterSlot] at hdrd
        split at hdrd
        · cases hdrd
        · split at hdrd
          · cases hdrd
          · cases hdrd; exact hdir
      · rw [drd_wrong hdir] at hdrd
        split at hdrd <;> cases hdrd
    rcases judgeSample_cases v x with hj | hj | hj <;> rw [hj] at hjudge <;> cases hjudge
    exact hx

theorem operation_polling {i : Instr} {s u : State} (h : operation i s = .ok .polling u) : u.dir = .deviceDrives := by
  have hplain : ∀ {m : Op Unit}, endsPlain m s ≠ .ok .polling u := by
    intro m hm
    obtain ⟨_, _, _, hdone⟩ := andThen_eq_ok hm
    cases hdone
  have hwith : ∀ {m : Op Byte}, endsWith m s ≠ .ok .polling u := by
    intro m hm
    obtain ⟨_, _, _, hdone⟩ := andThen_eq_ok hm
    cases hdone
  cases i with
  | wait =>
    obtain ⟨_, t, _, hpoll⟩ := andThen_eq_ok h
    exact pollOnce_polling hpoll
  | drd => exact absurd h hwith
  | rdb a => exact absurd h hwith
  | _ => exact absurd h hplain

/-! ### Commands and steps -/

theorem perform_follows {m : Op Progress} {s u t : State} (hm : Op.Follows s m)
    (hpoll : ∀ v, m u = .ok .polling v → v.dir = .deviceDrives) (hu : Follows s u) (h : perform m u = .next t) :
    Follows s t ∧ t.WaitTrue := by
  have hend := hm u hu
  rcases perform_cases h with ⟨d, v, hv, rfl⟩ | ⟨v, hv, rfl⟩ | ⟨st, info, v, hv, rfl⟩ | hv <;> rw [hv] at hend
  · exact ⟨⟨hend.boundary, hend.course⟩, fun hb => absurd hb Bool.false_ne_true⟩
  · exact ⟨⟨hend.boundary, hend.course⟩, fun _ => hpoll v hv⟩
  · exact ⟨⟨hend.boundary, hend.course⟩, fun hb => absurd hb Bool.false_ne_true⟩
  · exact ⟨hend.1, fun hb => absurd (hend.2.symm.trans hb) Bool.false_ne_true⟩

/-- Every step ends at a boundary that a disciplined trace leads to, resets included (rules R40 to R45). -/
theorem step_follows {s t : State} (hs : s.AtBoundary) (h : step s = .next t) : Follows s t ∧ (s.WaitTrue → t.WaitTrue) := by
  have hrefl := Follows.refl hs
  rcases step_cases h with ⟨_, h⟩ | ⟨hbusy, _, rfl⟩ | ⟨w, ws, _, _, ⟨i, _, h⟩ | ⟨e, _, rfl⟩⟩
  · obtain ⟨hf, hw⟩ := perform_follows (follows_pollOnce s) (fun _ => pollOnce_polling) hrefl h
    exact ⟨hf, fun _ => hw⟩
  · unfold State.idleSlot
    split
    · obtain ⟨hf, hb⟩ := hrefl.reset_now (v := s.passTime) rfl
      exact ⟨hf, fun _ hbusy' => absurd (hb.symm.trans hbusy') Bool.false_ne_true⟩
    · exact ⟨⟨hrefl.boundary, hrefl.course⟩, fun hw => hw⟩
  · rw [exec_eq_perform] at h
    obtain ⟨hf, hw⟩ := perform_follows (follows_operation s i) (fun _ => operation_polling)
      (u := s.accept) ⟨hrefl.boundary, hrefl.course⟩ h
    exact ⟨hf, fun _ => hw⟩
  · exact ⟨⟨hrefl.boundary, hrefl.course⟩, fun _ hb => absurd hb Bool.false_ne_true⟩

/-! ### The device and the response -/

/-- The parts of the invariant that are not of the block's pins and caches (rules R71 to R75, R84, R104). -/
abbrev State.DeviceSound (s : State) : Prop := s.dev.Coherent ∧ Memory.wf s.dev.mem = true ∧ s.ResponseLegal

theorem responseWord_legal (st : Status) (d : Byte) :
    (responseWord st d).extractLsb' 12 4 = 0#4 ∧ ((responseWord st d).extractLsb' 8 4).toNat ≤ 4 := by
  refine ⟨?_, ?_⟩
  · cases st <;> revert d <;> decide
  · rw [responseWord_status]; cases st <;> decide

@[simp] theorem pinEvent_rspWord (s : State) (e : PinEvent) : (s.pinEvent e).rspWord = s.rspWord := by
  cases e <;> simp only [State.pinEvent, State.effect] <;> split <;> rfl

/-- A write pulse keeps the device's forms, whatever stands on the lines. -/
theorem deviceSound_writePulse {s t : State} (h : s.DeviceSound) {a : Addr} {v : Byte} (hd : t.dev = s.dev.writePulse a v)
    (hr : t.rspWord = s.rspWord) : t.DeviceSound := by
  obtain ⟨hcoherent, hwf, hlegal⟩ := h
  refine ⟨by rw [hd]; exact writePulse_coherent hcoherent a v, by rw [hd]; exact writePulse_wf hwf a v, ?_⟩
  simpa only [State.ResponseLegal, hr] using hlegal

theorem deviceSound_congr {s t : State} (h : s.DeviceSound) (hd : t.dev = s.dev) (hr : t.rspWord = s.rspWord) :
    t.DeviceSound := by
  simpa only [State.DeviceSound, State.ResponseLegal, hd, hr] using h

theorem deviceSound_keptByStep : KeptByStep true State.DeviceSound where
  passTime s h := ⟨environment_coherent h.1 _, by rw [passTime_dev, environment_mem]; exact h.2.1, h.2.2⟩
  pinEvent s e _ h := by
    by_cases he : e = .we true
    · subst he
      cases hw : s.weN
      · exact deviceSound_writePulse h (a := s.addressLines) (v := s.dataLines)
          (by simp [State.pinEvent, State.effect, hw]) (pinEvent_rspWord s _)
      · exact deviceSound_congr h (by simp [State.pinEvent, State.effect, hw]) (pinEvent_rspWord s _)
    · exact deviceSound_congr h (effect_dev he) (pinEvent_rspWord s e)
  resetBlock s h := by
    obtain ⟨_, _, _, _, _, _, _, _, _, _, hr, _, _, _, _, _, _, hd, _⟩ := resetBlock_fields s
    cases hw : s.weN <;> rw [hw] at hd
    · exact deviceSound_writePulse h hd hr
    · exact deviceSound_congr h hd hr
  cache _ _ h := h
  direction _ _ h := h
  pollBit _ _ h := h
  position _ _ _ _ h := h
  respond _ st d h := ⟨h.1, h.2.1, responseWord_legal st d⟩
  polling _ h := h
  accept _ h := h

/-! ### The statements -/

theorem inv_iff (s : State) : s.Inv ↔ s.AtBoundary ∧ s.DeviceSound ∧ s.WaitTrue := by
  constructor
  · rintro ⟨⟨hlines, hcache, hdir, hdevice⟩, hwait⟩
    exact ⟨⟨hlines, hdir, hcache⟩, hdevice, hwait⟩
  · rintro ⟨⟨hlines, hdir, hcache⟩, hdevice, hwait⟩
    exact ⟨⟨hlines, hcache, hdir, hdevice⟩, hwait⟩

/-- Settles O34: the block's part by the boundary every step ends at, the device's part by what every step keeps. -/
theorem stepKeepsTheInvariant : Obligations.StepKeepsTheInvariant := by
  unfold Obligations.StepKeepsTheInvariant
  intro s t hs hstep
  obtain ⟨hboundary, hdevice, hwait⟩ := (inv_iff s).mp hs
  obtain ⟨hfollows, hwait'⟩ := step_follows hboundary hstep
  exact (inv_iff t).mpr ⟨hfollows.boundary, step_keeps deviceSound_keptByStep hdevice hstep, hwait' hwait⟩

/-- What a step appends to the trace leads from the old direction to the new one. -/
theorem step_newEvents {s t : State} (hs : s.Inv) (h : step s = .next t) :
    t.trace = s.trace ++ newEvents s t ∧ Leads s.dir (newEvents s t) t.dir := by
  obtain ⟨es, htrace, hleads⟩ := (step_follows ((inv_iff s).mp hs).1 h).1.course
  have hes : newEvents s t = es := by rw [newEvents, htrace, List.drop_left]
  rw [hes]
  exact ⟨htrace, hleads⟩

/-- Settles O36: the trace of a step is disciplined from the pins that its direction gives. -/
theorem busIsNeverDrivenByBothSides : Obligations.BusIsNeverDrivenByBothSides := by
  unfold Obligations.BusIsNeverDrivenByBothSides
  intro s t hs hstep
  obtain ⟨htrace, hleads⟩ := step_newEvents hs hstep
  obtain ⟨hddir, hoe⟩ := (directionTrue_iff s).mp ((inv_iff s).mp hs).1.2.1
  refine ⟨htrace, ?_⟩
  rw [hddir, hoe]
  exact hleads.busSafe

/-- Settles O37: likewise for the write pulses, `we_n` being 1 between steps. -/
theorem writePulsesAreGuarded : Obligations.WritePulsesAreGuarded := by
  unfold Obligations.WritePulsesAreGuarded
  intro s t hs hstep
  obtain ⟨⟨_, _, _, hwe⟩, hdir, _⟩ := ((inv_iff s).mp hs).1
  obtain ⟨hddir, hoe⟩ := (directionTrue_iff s).mp hdir
  rw [hddir, hoe, hwe]
  exact (step_newEvents hs hstep).2.guarded

end Sys2Proof.Machine
end

section
/-! SUPPORT. The family of 10_state.md, second part: what the address lines and the chain hold after a command (rules R42, R191), and
what the first write after a reset does not depend on (rules R49, R50, R146). -/

namespace Sys2Proof.Machine

/-! ## The closed forms, where no reset comes -/

theorem noResetFor_of_neverReset {s : State} (h : s.NeverReset) (n : Nat) : s.NoResetFor n :=
  fun k _ => neverReset_slotAt h k

/-- Once its first piece has run, a command is the rest of it. -/
theorem perform_andThen_ok {α : Type} {m : Op α} {k : α → Op Progress} {s u : State} {a : α} (h : m s = .ok a u) :
    perform (Op.andThen m k) s = perform (k a) u := by
  simp only [perform, andThen_ok h]

/-- Everything the writes of a sequence can do, from the start of the command (rules R200, R201). -/
theorem sequence_runs {s : State} (h : s.AtBoundary) (ws : List (Addr × Byte)) :
    Runs (inOrder [setSq 0, issueWrites 0 ws]) s (writesEvents s ws) (State.afterWrites { s with sq := 0 } 0 ws) ∧
    (State.afterWrites { s with sq := 0 } 0 ws).AtBoundary := by
  obtain ⟨hlines, hdir, hcache⟩ := h
  obtain ⟨hruns, hboundary⟩ := issueWrites_runs ws (s := { s with sq := 0 }) 0 hlines hdir hcache
  have hstart : Runs (setSq 0) s [] { s with sq := 0 } := runs_update rfl rfl rfl
  have h := hstart.inOrder_cons (hruns.inOrder_cons (runs_nil _))
  rw [writesEvents_sq, List.nil_append, List.append_nil] at h
  exact ⟨h, hboundary⟩

/-- A sequence is its writes and then the look at the deadline (rule R208). -/
theorem endsPlain_sequence (ws : List (Addr × Byte)) (info : Byte) :
    endsPlain (inOrder [setSq 0, issueWrites 0 ws, sequenceDeadline info]) =
      Op.andThen (inOrder [setSq 0, issueWrites 0 ws]) (fun _ => endsPlain (sequenceDeadline info)) := by
  have h := inOrder_append [setSq 0, issueWrites 0 ws] [sequenceDeadline info]
  rw [inOrder_single] at h
  rw [show [setSq 0, issueWrites 0 ws, sequenceDeadline info] =
    [setSq 0, issueWrites 0 ws] ++ [sequenceDeadline info] from rfl, h, endsPlain, andThen_assoc]
  rfl

/-- RDB is its addressing and then the sample (rule R185). -/
theorem endsWith_rdb (a : Addr) :
    endsWith (rdb a) = Op.andThen (inOrder [seta a, setd .deviceDrives]) (fun _ => endsWith drd) := by
  rw [endsWith, rdb, andThen_assoc]
  rfl

/-! ## The address lines after an addressing command -/

/-- The address lines and the low stage hold an address (rule R42). -/
def State.Carries (s : State) (a : Addr) : Prop := s.addressLines = a ∧ s.sl = lowByte a ∧ s.ql = lowByte a

theorem afterSeta_carries {s : State} (h : s.CacheTrue) (a : Addr) : (s.afterSeta a).Carries a := by
  refine ⟨afterSeta_addressLines (fun hv => (h hv).1) a, ?_⟩
  unfold State.afterSeta
  split <;> exact ⟨rfl, rfl⟩

theorem afterSetd_carries {s : State} {a : Addr} (h : s.Carries a) (m : Direction) : (s.afterSetd m).Carries a := by
  obtain ⟨hsl, _, hql, hqh, _⟩ := afterSetd_fields s m
  simpa only [State.Carries, State.addressLines, hsl, hql, hqh] using h

theorem afterWrb_carries {s : State} (h : s.AtBoundary) (a : Addr) (d : Byte) : (s.afterWrb a d).Carries a := by
  obtain ⟨hlines, hdir, hcache⟩ := h
  obtain ⟨hsl, hql, _, _, hhigh, hvalid⟩ := afterWrb_chain s a d
  obtain ⟨hqh, _⟩ := (afterWrb_ready hlines hdir hcache a d).2.2 hvalid
  exact ⟨by rw [State.addressLines, hqh, hhigh, hql, joinLines_parts], hsl, hql⟩

/-- The count of the writes done is no part of a boundary. -/
theorem atBoundary_sq {s : State} (h : s.AtBoundary) (n : Fin 7) : State.AtBoundary { s with sq := n } := h

theorem carries_sq {s : State} {a : Addr} (h : s.Carries a) (n : Fin 7) : State.Carries { s with sq := n } a := h

theorem respond_carries {s : State} {a : Addr} (h : s.Carries a) (st : Status) (d : Byte) : (s.respond st d).Carries a := h

/-- A sequence leaves the address of its last write. -/
theorem afterWrites_concat_carries (ws : List (Addr × Byte)) (a : Addr) (d : Byte) : ∀ (s : State) (done : Fin 7),
    s.AtBoundary → (s.afterWrites done (ws ++ [(a, d)])).Carries a := by
  induction ws with
  | nil => intro s done h; exact carries_sq (afterWrb_carries h a d) _
  | cons w rest ih =>
    intro s done h
    obtain ⟨hlines, hdir, hcache⟩ := h
    exact ih _ _ (atBoundary_sq (afterWrb_ready hlines hdir hcache w.1 w.2) _)

/-! ## The data bus leaves the chain alone -/

/-- The stages of both registers hold what they held in `s`. -/
def State.SameChain (s u : State) : Prop := u.sl = s.sl ∧ u.sh = s.sh ∧ u.ql = s.ql ∧ u.qh = s.qh

theorem State.SameChain.refl (s : State) : s.SameChain s := ⟨rfl, rfl, rfl, rfl⟩

theorem State.SameChain.carries {s u : State} {a : Addr} (h : s.SameChain u) (hs : s.Carries a) : u.Carries a := by
  obtain ⟨hsl, _, hql, hqh⟩ := h
  simpa only [State.Carries, State.addressLines, hsl, hql, hqh] using hs

/-- The pin events of the data bus (rules R161, R165, R168). -/
def PinEvent.OnDataBus : PinEvent → Prop
  | .oe _ => True
  | .ddir _ => True
  | .dout _ => True
  | .sample _ => True
  | _ => False

theorem sameChain_pinEvent {s u : State} {e : PinEvent} (he : e.OnDataBus) (h : s.SameChain u) :
    s.SameChain (u.pinEvent e) := by
  cases e with
  | ser b => exact he.elim
  | sck b => exact he.elim
  | rckL b => exact he.elim
  | rckH b => exact he.elim
  | we b => exact he.elim
  | _ => exact h

/-- A reset does not clear the chain (rule R262; log 8). -/
theorem sameChain_resetBlock {s u : State} (h : s.SameChain u) : s.SameChain u.resetBlock := by
  obtain ⟨_, _, _, _, _, _, _, _, _, _, _, _, _, hsl, hsh, hql, hqh, _⟩ := resetBlock_fields u
  simpa only [State.SameChain, hsl, hsh, hql, hqh] using h

theorem keepsChain_afterSlot {α : Type} {s : State} {k : Op α} (h : Op.Keeps s.SameChain k) :
    Op.Keeps s.SameChain (afterSlot k) := by
  intro u hu
  unfold afterSlot
  by_cases hr : (u.slotAt 0).rst = true
  · simp only [hr, if_true]; exact sameChain_resetBlock hu
  · simp only [hr, Bool.false_eq_true, if_false]; exact h u.passTime hu

theorem keepsChain_emit (s : State) {e : PinEvent} (he : e.OnDataBus) : Op.Keeps s.SameChain (emit e) :=
  keepsChain_afterSlot (fun _ hu => sameChain_pinEvent he hu)

theorem keepsChain_setd (s : State) (m : Direction) : Op.Keeps s.SameChain (setd m) := by
  refine keeps_ite (c := fun u => u.dir = m) (keeps_done ()) ?_
  have hcache : Op.Keeps s.SameChain (cacheDirection m) := keeps_update (fun _ hu => hu)
  cases m <;> refine keeps_inOrder ?_ <;> simp only [List.forall_mem_cons]
  · exact ⟨keepsChain_emit s trivial, keepsChain_emit s trivial, hcache, by simp⟩
  · exact ⟨keepsChain_emit s trivial, keepsChain_emit s trivial, hcache, by simp⟩

theorem keepsChain_dwr (s : State) (d : Byte) : Op.Keeps s.SameChain (dwr d) := by
  refine keeps_ite (c := fun u => u.dir = .hostDrives) (keeps_inOrder ?_) (keeps_wrongDirection _)
  simp only [List.forall_mem_cons]
  exact ⟨keepsChain_emit s trivial, keeps_update (fun _ hu => hu), by simp⟩

theorem keepsChain_drd (s : State) : Op.Keeps s.SameChain drd := by
  refine keeps_ite (c := fun u => u.dir = .deviceDrives) (keepsChain_afterSlot (fun u hu => ?_)) (keeps_wrongDirection _)
  by_cases hc : u.contended = true
  · simp only [hc, if_true]
  · simp only [hc, Bool.false_eq_true, if_false]; exact sameChain_pinEvent trivial hu

theorem keepsChain_lookDeadline (s : State) : Op.Keeps s.SameChain lookDeadline :=
  keeps_ite (c := fun u => u.build.deadlineEn = true) (keepsChain_afterSlot (fun _ hu => hu)) (keeps_done false)

theorem keepsChain_pollOnce (s : State) : Op.Keeps s.SameChain pollOnce := by
  refine keeps_andThen (keepsChain_lookDeadline s) (fun expired u hu => ?_)
  cases expired with
  | true => exact hu
  | false =>
    refine keeps_andThen (keepsChain_drd s) (fun v x hx => ?_) u hu
    rcases judgeSample_cases v x with hj | hj | hj <;> rw [hj] <;> exact hx

theorem keepsChain_wait (s : State) : Op.Keeps s.SameChain wait := by
  refine keeps_andThen (keeps_inOrder ?_) (fun _ => keepsChain_pollOnce s)
  simp only [List.forall_mem_cons]
  exact ⟨keepsChain_setd s _, keeps_update (fun _ hu => hu), by simp⟩

theorem keepsChain_sequenceDeadline (s : State) (info : Byte) : Op.Keeps s.SameChain (sequenceDeadline info) := by
  refine keeps_andThen (keepsChain_lookDeadline s) (fun expired u hu => ?_)
  cases expired <;> exact hu

/-- The end of a command leaves the chain alone. -/
theorem perform_sameChain {m : Op Progress} {s t : State} (hm : Op.Keeps s.SameChain m) (h : perform m s = .next t) :
    s.SameChain t :=
  perform_keeps hm (fun _ _ _ hu => hu) (fun _ hu => hu) (.refl s) h

/-! ### The commands that address, and the statement -/

theorem exec_seta_carries {s t : State} {a : Addr} (hs : s.AtBoundary) (hr : s.NeverReset)
    (h : exec (.seta a) s = .next t) : t.Carries a := by
  have ⟨⟨hck, hl, hh, _⟩, _⟩ := hs
  have hok := (seta_runs hck hl hh a).ends (noResetFor_of_neverReset hr _)
  rw [exec_eq_perform, operation, perform_endsPlain_ok hok] at h
  cases h
  exact respond_carries (afterSeta_carries (passTimes_boundary hs (setaCost s a)).2.2 a) _ _

theorem exec_wrb_carries {s t : State} {a : Addr} {d : Byte} (hs : s.AtBoundary) (hr : s.NeverReset)
    (h : exec (.wrb a d) s = .next t) : t.Carries a := by
  obtain ⟨hlines, hdir, hcache⟩ := hs
  have hok := (wrb_runs hlines hdir (fun hv => (hcache hv).1) a d).ends (noResetFor_of_neverReset hr _)
  rw [exec_eq_perform, operation, perform_endsPlain_ok hok] at h
  cases h
  exact respond_carries (afterWrb_carries ⟨hlines, hdir, hcache⟩ a d) _ _

theorem exec_rdb_carries {s t : State} {a : Addr} (hs : s.AtBoundary) (hr : s.NeverReset)
    (h : exec (.rdb a) s = .next t) : t.Carries a := by
  have ⟨⟨hck, hl, hh, _⟩, _⟩ := hs
  have hok := (addressing_runs hck hl hh a .deviceDrives).ends (noResetFor_of_neverReset hr _)
  rw [exec_eq_perform, operation, endsWith_rdb, perform_andThen_ok hok] at h
  refine (perform_sameChain (keeps_endsWith (keepsChain_drd _)) h).carries ?_
  exact afterSetd_carries (afterSeta_carries (passTimes_boundary hs _).2.2 a) .deviceDrives

theorem perform_sequence_carries {s t : State} (hs : s.AtBoundary) (hr : s.NeverReset) {ws : List (Addr × Byte)}
    {a : Addr} {d : Byte} {info : Byte}
    (h : perform (endsPlain (inOrder [setSq 0, issueWrites 0 (ws ++ [(a, d)]), sequenceDeadline info])) s = .next t) :
    t.Carries a := by
  have hok := (sequence_runs hs (ws ++ [(a, d)])).1.ends (noResetFor_of_neverReset hr _)
  rw [endsPlain_sequence, perform_andThen_ok hok] at h
  refine (perform_sameChain (keeps_endsPlain (keepsChain_sequenceDeadline _ info)) h).carries ?_
  exact afterWrites_concat_carries ws a d { s with sq := 0 } 0 hs

theorem State.Ready.atBoundary {s : State} (h : s.Ready) : s.AtBoundary := by
  obtain ⟨hlines, hcache, hdir, _⟩ := h
  exact ⟨hlines, hdir, hcache⟩

/-- Settles O10: the commands that address by their closed forms, the others by what the data bus leaves of the chain. -/
theorem addressLinesCarryTheLastOperand : Obligations.AddressLinesCarryTheLastOperand := by
  unfold Obligations.AddressLinesCarryTheLastOperand
  refine ⟨?_, ?_, ?_⟩
  · intro s t a d hs hr h
    have hb := hs.atBoundary
    rcases h with h | h | h
    · exact exec_seta_carries hb hr h
    · exact exec_wrb_carries hb hr h
    · exact exec_rdb_carries hb hr h
  · intro s t hs hr h
    have hb := hs.atBoundary
    have hcarries : t.Carries 0x5555#15 := by
      rcases h with h | h
      · exact perform_sequence_carries hb hr (ws := sdpDisableWrites.take 5) (d := 0x20#8) h
      · exact perform_sequence_carries hb hr (ws := sdpEnableWrites.take 2) (d := 0xA0#8) h
    obtain ⟨hlines, hsl, hql⟩ := hcarries
    exact ⟨hlines, hsl, hql⟩
  · intro s t m d _ h
    have hchain : s.SameChain t := by
      rcases h with h | h | h | h | ⟨hbusy, h⟩
      · exact perform_sameChain (keeps_endsPlain (keepsChain_setd s m)) h
      · exact perform_sameChain (keeps_endsPlain (keepsChain_dwr s d)) h
      · exact perform_sameChain (keeps_endsWith (keepsChain_drd s)) h
      · exact perform_sameChain (keepsChain_wait s) h
      · rw [step, if_pos hbusy] at h
        exact perform_sameChain (keepsChain_pollOnce s) h
    obtain ⟨hsl, hsh, hql, hqh⟩ := hchain
    exact ⟨by rw [State.addressLines, hqh, hql]; rfl, hsl, hsh, hql, hqh⟩

/-! ## The first write after a reset -/

/-- Other values in the registers that rules R49 and R50 leave unspecified after a reset. -/
def State.withUnspecified (s : State) (sl sh ql qh lastHigh dout : Byte) (pollBit : Bool) : State :=
  { s with sl := sl, sh := sh, ql := ql, qh := qh, lastHigh := lastHigh, dout := dout, pollBit := pollBit }

section
variable (s : State) (sl sh ql qh lastHigh dout : Byte) (pollBit : Bool)

theorem passTimes_withUnspecified (n : Nat) : (s.withUnspecified sl sh ql qh lastHigh dout pollBit).passTimes n =
    (s.passTimes n).withUnspecified sl sh ql qh lastHigh dout pollBit := by
  induction n generalizing s with
  | zero => rfl
  | succ n ih => exact ih s.passTime

/-- With the cache invalid SETA writes both registers and the cached byte whole (rule R146). -/
theorem afterSeta_withUnspecified (h : s.lastHighValid = false) (a : Addr) :
    (s.withUnspecified sl sh ql qh lastHigh dout pollBit).afterSeta a =
      { s.afterSeta a with dout := dout, pollBit := pollBit } := by
  have hskip : ∀ u : State, u.lastHighValid = false → skipsHigh u a = false := fun u hu => by simp [skipsHigh, hu]
  have hs := hskip s h
  have hs' := hskip (s.withUnspecified sl sh ql qh lastHigh dout pollBit) h
  unfold State.afterSeta State.afterSetaFull
  simp only [setaEvents, hs, hs', Bool.false_eq_true, if_false]
  rfl

/-- SETD neither reads nor writes what DWR overwrites. -/
theorem afterDwr_afterSetd_forgets (m : Direction) (d : Byte) :
    (State.afterSetd { s with dout := dout, pollBit := pollBit } m).afterDwr d = (s.afterSetd m).afterDwr d := by
  unfold State.afterSetd
  by_cases h : s.dir = m
  · subst h; simp only [if_true]; rfl
  · simp only [h, if_false]
    cases m <;> rfl

/-- WRB with the cache invalid writes all of those registers and reads none of them (rules R49, R50, R146). -/
theorem afterWrb_withUnspecified (h : s.lastHighValid = false) (a : Addr) (d : Byte) :
    (s.withUnspecified sl sh ql qh lastHigh dout pollBit).afterWrb a d = s.afterWrb a d := by
  have hcost : wrbCost (s.withUnspecified sl sh ql qh lastHigh dout pollBit) a = wrbCost s a := by
    simp [wrbCost, setaCost, setdCost, skipsHigh, State.withUnspecified, h]
  unfold State.afterWrb State.afterAddressing
  rw [hcost, passTimes_withUnspecified, afterSeta_withUnspecified _ _ _ _ _ _ _ _ (by simpa using h),
    afterDwr_afterSetd_forgets]

end

/-- WRB takes at most 57 slots (rule R285). -/
theorem wrbCost_le (s : State) (a : Addr) : wrbCost s a ≤ 57 := by
  unfold wrbCost setaCost setdCost
  split <;> split <;> omega

/-- Between operations with the cache invalid, WRB ends in the state of rule R182. -/
theorem exec_wrb_cacheInvalid {s : State} (hlines : s.LinesIdle) (hdir : s.DirectionTrue) (hvalid : s.lastHighValid = false)
    (hr : s.NoResetFor 57) (a : Addr) (d : Byte) :
    exec (.wrb a d) s = .next ((s.afterWrb a d).respond .ok 0x00#8) := by
  have hcache : s.lastHighValid = true → s.qh = s.lastHigh := fun hv => absurd (hvalid.symm.trans hv) Bool.false_ne_true
  rw [exec_eq_perform]
  refine perform_endsPlain_ok ((wrb_runs hlines hdir hcache a d).ends (noResetFor_mono hr ?_))
  rw [wrbEvents_length]
  exact wrbCost_le s a

/-- Settles O45: both runs end in the closed form of WRB, which forgets the unspecified registers. -/
theorem firstWriteForgetsTheUnspecifiedRegisters : Obligations.FirstWriteForgetsTheUnspecifiedRegisters := by
  unfold Obligations.FirstWriteForgetsTheUnspecifiedRegisters
  intro s a d sl sh ql qh lastHigh dout pollBit hlines hdir hvalid hr
  have hother := exec_wrb_cacheInvalid (s := s.withUnspecified sl sh ql qh lastHigh dout pollBit) hlines hdir hvalid hr a d
  rw [afterWrb_withUnspecified _ _ _ _ _ _ _ _ hvalid] at hother
  exact hother.trans (exec_wrb_cacheInvalid hlines hdir hvalid hr a d).symm

end Sys2Proof.Machine
end

section
/-! SUPPORT. The family of 10_state.md, third part: what a reset in any slot leaves (rules R46 to R52, R260, R262, R264). -/

namespace Sys2Proof.Machine

/-! ## The state after a reset -/

theorem resetBlock_atReset (s : State) : s.resetBlock.AtReset := by
  obtain ⟨⟨hck, hl, hh, hwe⟩, hser, hoe, hddir, hdir, hvalid, hbusy, hsq, hpolls, hrsp, _⟩ := resetBlock_fields s
  exact ⟨hvalid, hdir, hddir, hoe, hwe, hck, hl, hh, hser, hbusy, hsq, hpolls, by rw [State.cmdReady, hbusy]; rfl, hrsp⟩

theorem resetBlock_rspWord (s : State) : s.resetBlock.rspWord = s.rspWord := by
  obtain ⟨_, _, _, _, _, _, _, _, _, _, h, _⟩ := resetBlock_fields s
  exact h

theorem resetBlock_commander (s : State) : s.resetBlock.commander = s.commander := by
  obtain ⟨_, _, _, _, _, _, _, _, _, _, _, h, _⟩ := resetBlock_fields s
  exact h

theorem resetBlock_trace (s : State) : s.resetBlock.trace = s.trace ++ resetEvents := by
  obtain ⟨_, _, _, _, _, _, _, _, _, _, _, _, _, _, _, _, _, _, h⟩ := resetBlock_fields s
  exact h

/-- Outside a write pulse a reset does not reach the device (rule R52). -/
theorem resetBlock_dev_of_closed {s : State} (h : s.weN = true) : s.resetBlock.dev = s.dev := by
  obtain ⟨_, _, _, _, _, _, _, _, _, _, _, _, _, _, _, _, _, hd, _⟩ := resetBlock_fields s
  rw [hd, h]; rfl

/-- Inside a write pulse a reset ends it, and the device reacts (rule R264). -/
theorem resetBlock_dev_of_open {s : State} (h : s.weN = false) :
    s.resetBlock.dev = s.dev.writePulse s.addressLines s.dataLines := by
  obtain ⟨_, _, _, _, _, _, _, _, _, _, _, _, _, _, _, _, _, hd, _⟩ := resetBlock_fields s
  rw [hd, h]; rfl

/-- Settles O44: the values are those of the definition, field by field. -/
theorem resetStateHoldsTheStatedValues : Obligations.ResetStateHoldsTheStatedValues := by
  unfold Obligations.ResetStateHoldsTheStatedValues
  intro b d
  exact ⟨rfl, rfl, rfl, rfl, rfl, rfl, rfl, rfl, rfl, rfl, rfl, rfl, rfl, rfl, rfl⟩

/-- Settles O58: an idle step with a reset in its slot is that slot and then the reset. -/
theorem resetOfAnIdleBlockTakesTheResetState : Obligations.ResetOfAnIdleBlockTakesTheResetState := by
  unfold Obligations.ResetOfAnIdleBlockTakesTheResetState
  intro s hbusy hcommander hwe hrst
  have hstep : step s = .next s.passTime.resetBlock := by simp [step, hbusy, hcommander, State.idleSlot, hrst]
  obtain ⟨hsl, hsh, hql, hqh⟩ := sameChain_resetBlock (s := s) (u := s.passTime) (.refl s)
  exact ⟨_, hstep, resetBlock_atReset _, hsl, hsh, hql, hqh, resetBlock_dev_of_closed hwe, resetBlock_rspWord _⟩

/-! ## Slots that reach the device, the inputs and the trace alone -/

/-- `u` differs from `x` in the block's registers and in pins other than `we_n` only, and the trace has not lost an event: what the
outside world made of the one it made of the other. -/
structure AgreesOutside (x u : State) : Prop where
  dev : u.dev = x.dev
  env : u.env = x.env
  tick : u.tick = x.tick
  deadline : u.deadlineExpired = x.deadlineExpired
  build : u.build = x.build
  weN : u.weN = x.weN
  trace : ∃ es, u.trace = x.trace ++ es

theorem AgreesOutside.refl (x : State) : AgreesOutside x x := ⟨rfl, rfl, rfl, rfl, rfl, rfl, [], by simp⟩

theorem AgreesOutside.trans {x y z : State} (h : AgreesOutside x y) (h' : AgreesOutside y z) : AgreesOutside x z where
  dev := h'.dev.trans h.dev
  env := h'.env.trans h.env
  tick := h'.tick.trans h.tick
  deadline := h'.deadline.trans h.deadline
  build := h'.build.trans h.build
  weN := h'.weN.trans h.weN
  trace := by
    obtain ⟨es, hes⟩ := h.trace
    obtain ⟨fs, hfs⟩ := h'.trace
    exact ⟨es ++ fs, by rw [hfs, hes, List.append_assoc]⟩

theorem AgreesOutside.slotAt {x u : State} (h : AgreesOutside x u) (k : Nat) : u.slotAt k = x.slotAt k :=
  slotAt_congr h.env h.tick (by rw [h.dev]) k

theorem AgreesOutside.passTime {x u : State} (h : AgreesOutside x u) : AgreesOutside x.passTime u.passTime where
  dev := by rw [passTime_dev, passTime_dev, h.dev, h.slotAt]
  env := by rw [passTime_env, passTime_env, h.env]
  tick := by rw [passTime_tick, passTime_tick, h.tick]
  deadline := by simp only [State.passTime, h.deadline, h.slotAt]
  build := h.build
  weN := h.weN
  trace := h.trace

theorem AgreesOutside.passTimes {x u : State} (h : AgreesOutside x u) (n : Nat) :
    AgreesOutside (x.passTimes n) (u.passTimes n) := by
  induction n generalizing x u with
  | zero => exact h
  | succ n ih => exact ih h.passTime

/-- The slots after the first `m`, taken from a state that agrees with the one they lead to. -/
theorem AgreesOutside.after {s u v : State} {m n : Nat} (h : AgreesOutside (s.passTimes m) u)
    (h' : AgreesOutside (u.passTimes n) v) : AgreesOutside (s.passTimes (m + n)) v := by
  rw [passTimes_add]
  exact (h.passTimes n).trans h'

/-- A pin event other than those of `we_n` does not reach the outside. -/
theorem agreesOutside_pinEvent (x : State) {e : PinEvent} (he : ∀ b, e ≠ .we b) : AgreesOutside x (x.pinEvent e) := by
  refine ⟨effect_dev (he true), effect_env x e, effect_tick x e, ?_, pinEvent_build x e, ?_, [e], rfl⟩
  · cases e <;> simp only [State.pinEvent, State.effect] <;> split <;> rfl
  · cases e with
    | we b => exact absurd rfl (he b)
    | _ => simp only [State.pinEvent, State.effect] <;> split <;> rfl

theorem agreesOutside_afterSeta (x : State) (a : Addr) : AgreesOutside x (x.afterSeta a) := by
  unfold State.afterSeta
  split <;> exact ⟨rfl, rfl, rfl, rfl, rfl, rfl, _, rfl⟩

theorem agreesOutside_afterSetd (x : State) (m : Direction) : AgreesOutside x (x.afterSetd m) := by
  unfold State.afterSetd
  split
  · exact .refl x
  · cases m <;> exact ⟨rfl, rfl, rfl, rfl, rfl, rfl, _, rfl⟩

theorem agreesOutside_afterDwr (x : State) (d : Byte) : AgreesOutside x (x.afterDwr d) :=
  ⟨rfl, rfl, rfl, rfl, rfl, rfl, _, rfl⟩

theorem agreesOutside_waitStart (x : State) : AgreesOutside x x.waitStart := by
  have hposition : ∀ y : State, AgreesOutside y { y with polls := 0, pollByte := 0x00#8 } :=
    fun y => ⟨rfl, rfl, rfl, rfl, rfl, rfl, [], by simp⟩
  exact (agreesOutside_afterSetd x .deviceDrives).trans (hposition _)

/-! ## Where a reset stops an operation -/

/-- A reset in any of the first `n` slots abandons the operation; until then the device has only taken its own steps. -/
def Op.Stops {α : Type} (m : Op α) (s : State) (n : Nat) : Prop :=
  ∀ k, k < n → s.NoResetFor k → (s.slotAt k).rst = true →
    ∃ u : State, m s = .abandoned u.resetBlock ∧ AgreesOutside (s.passTimes (k + 1)) u

theorem stops_zero {α : Type} (m : Op α) (s : State) : m.Stops s 0 := fun _ hk => absurd hk (by omega)

theorem stops_congr {α : Type} {m m' : Op α} {s : State} {n : Nat} (h : m s = m' s) (hm : m'.Stops s n) : m.Stops s n := by
  unfold Op.Stops
  rw [h]
  exact hm

theorem stops_afterSlot {α : Type} (k : Op α) (s : State) : (afterSlot k).Stops s 1 := by
  intro j hj _ hrst
  obtain rfl : j = 0 := by omega
  exact ⟨s.passTime, by simp only [afterSlot, hrst, if_true], .refl _⟩

theorem Op.Stops.andThen_left {α β : Type} {m : Op α} {s : State} {n : Nat} (h : m.Stops s n) (k : α → Op β) :
    (Op.andThen m k).Stops s n := by
  intro j hj hr hrst
  obtain ⟨u, hu, ha⟩ := h j hj hr hrst
  exact ⟨u, andThen_abandoned hu, ha⟩

/-- One piece after another: the second takes the slots after those of the first. -/
theorem Op.Stops.andThen {α β : Type} {m : Op α} {k : α → Op β} {s : State} {n n' : Nat} (h : m.Stops s n)
    (hk : s.NoResetFor n → ∃ a u, m s = .ok a u ∧ AgreesOutside (s.passTimes n) u ∧ (k a).Stops u n') :
    (Op.andThen m k).Stops s (n + n') := by
  intro j hj hr hrst
  by_cases hjn : j < n
  · exact h.andThen_left k j hjn hr hrst
  · obtain ⟨a, u, hm, hu, hstops⟩ := hk (noResetFor_mono hr (by omega))
    have hslot : ∀ i, (u.slotAt i).rst = (s.slotAt (n + i)).rst := fun i => by rw [hu.slotAt, slotAt_passTimes]
    obtain ⟨v, hv, hav⟩ := hstops (j - n) (by omega) (fun i hi => by rw [hslot]; exact hr _ (by omega))
      (by rwa [hslot, show n + (j - n) = j by omega])
    refine ⟨v, (andThen_ok hm).trans hv, ?_⟩
    have hafter := hu.after hav
    rwa [show n + (j - n + 1) = j + 1 by omega] at hafter

theorem stops_emits (es : List PinEvent) : ∀ {s : State}, (∀ e ∈ es, ∀ b, e ≠ .we b) → (emits es).Stops s es.length := by
  induction es with
  | nil => intro s _; exact stops_zero _ s
  | cons e es ih =>
    intro s hes
    rw [emits_cons, List.length_cons, Nat.add_comm]
    refine (stops_afterSlot _ s).andThen (fun hr => ?_)
    exact ⟨(), _, emit_ok (hr 0 (by omega)), agreesOutside_pinEvent _ (hes e (by simp)),
      ih (fun x hx => hes x (by simp [hx]))⟩

/-! ### The operations without a write pulse -/

theorem stops_seta (s : State) (a : Addr) : (seta a).Stops s (setaCost s a) := by
  have hquiet : ∀ e ∈ setaEvents s a, ∀ b, e ≠ .we b := by
    intro e he b hb
    subst hb
    exact setaEvents_quiet s a _ he
  have hstops := stops_emits (setaEvents s a) (s := s) hquiet
  rw [setaEvents_length] at hstops
  cases hk : skipsHigh s a with
  | true =>
    have hseta : seta a s = emits (setaEvents s a) s := by simp only [seta, setaEvents, hk, if_true, setaSkip_eq]
    exact stops_congr hseta hstops
  | false =>
    have hseta : seta a s = Op.andThen (emits (setaEvents s a)) (fun _ => cacheHigh (highByte a)) s := by
      simp only [seta, setaEvents, hk, Bool.false_eq_true, if_false, setaFull_eq]
    exact stops_congr hseta (hstops.andThen_left _)

theorem stops_setd (s : State) (m : Direction) : (setd m).Stops s (setdCost s m) := by
  by_cases h : s.dir = m
  · rw [setdCost, if_pos h]
    exact stops_zero _ s
  · have hquiet : ∀ e ∈ setdEvents s m, ∀ b, e ≠ .we b := by
      cases m <;> simp [setdEvents, h]
    have hstops := stops_emits (setdEvents s m) (s := s) hquiet
    rw [setdEvents_length] at hstops
    have hsetd : setd m s = turnBus m s := by simp only [setd, if_neg h]
    rw [turnBus_eq m s h] at hsetd
    exact stops_congr hsetd (hstops.andThen_left _)

theorem stops_dwr {s : State} (h : s.dir = .hostDrives) (d : Byte) : (dwr d).Stops s 1 := by
  have hdwr : dwr d s = inOrder [emit (.dout d), recordPollBit d] s := by simp only [dwr, if_pos h]
  exact stops_congr hdwr ((stops_afterSlot _ s).andThen_left _)

theorem stops_drd {s : State} (h : s.dir = .deviceDrives) : drd.Stops s 1 := by
  have hdrd : drd s = sampleLines s := by simp only [drd, if_pos h]
  exact stops_congr hdrd (stops_afterSlot _ s)

theorem stops_lookDeadline (s : State) : lookDeadline.Stops s (lookCost s) := by
  intro k hk hr hrst
  rcases lookDeadline_cases s with ⟨hno, _⟩ | ⟨hcost, _, hlook⟩
  · exact absurd ((hno k hk).symm.trans hrst) Bool.false_ne_true
  · obtain rfl : k = 0 := by omega
    exact ⟨s.passTime, hlook, .refl _⟩

/-- A poll takes the slot of the look and, where that finds no expired deadline, the slot of the sample. -/
theorem stops_pollOnce {s : State} (h : s.dir = .deviceDrives) : pollOnce.Stops s (pollSlots s) := by
  refine (stops_lookDeadline s).andThen (fun hr => ?_)
  rcases lookDeadline_cases s with ⟨_, hlook⟩ | ⟨hcost, hrst, _⟩
  · refine ⟨_, _, hlook, .refl _, ?_⟩
    have hexpired : (s.build.deadlineEn && s.passTime.deadlineExpired) =
        (s.build.deadlineEn && (s.passTimes (lookCost s)).deadlineExpired) := by
      cases hd : s.build.deadlineEn
      · rfl
      · simp only [lookCost, hd, if_true]; rfl
    rw [hexpired]
    cases s.build.deadlineEn && (s.passTimes (lookCost s)).deadlineExpired with
    | true => exact stops_zero _ _
    | false => exact (stops_drd (by rwa [passTimes_dir])).andThen_left judgeSample
  · exact absurd ((hr 0 (by omega)).symm.trans hrst) Bool.false_ne_true

theorem pollSlots_congr {x u : State} (h : AgreesOutside x u) : pollSlots u = pollSlots x := by
  simp only [pollSlots, lookCost, h.build, h.passTime.deadline]

theorem stops_wait (s : State) : wait.Stops s (slotsOf s .wait) := by
  have hsetd := (stops_setd s .deviceDrives).andThen_left (fun _ => inOrder [startPolling])
  refine Op.Stops.andThen (m := inOrder [setd .deviceDrives, startPolling]) hsetd (fun hr => ?_)
  have hok := (setd_runs s .deviceDrives).ends (by rwa [setdEvents_length])
  have hagree := agreesOutside_waitStart (s.passTimes (setdCost s .deviceDrives))
  refine ⟨(), (s.passTimes (setdCost s .deviceDrives)).waitStart, ?_, hagree, ?_⟩
  · rw [inOrder_cons, andThen_ok hok]; rfl
  · rw [← pollSlots_congr hagree]
    exact stops_pollOnce (afterSetd_dir (s.passTimes (setdCost s .deviceDrives)) .deviceDrives)

/-- The part RDB and WRB share (rules R182, R185). -/
theorem stops_addressing {s : State} (h : s.LinesIdle) (a : Addr) (m : Direction) :
    (inOrder [seta a, setd m]).Stops s (setaCost s a + setdCost s m) := by
  obtain ⟨hck, hl, hh, _⟩ := h
  refine (stops_seta s a).andThen (fun hr => ?_)
  have hok := (seta_runs hck hl hh a).ends (by rwa [setaEvents_length])
  have hcost : setdCost s m = setdCost ((s.passTimes (setaCost s a)).afterSeta a) m := by
    rw [setdCost_afterSeta, setdCost_passTimes]
  rw [hcost]
  exact ⟨(), _, hok, agreesOutside_afterSeta _ a, (stops_setd _ m).andThen_left _⟩

/-- After the addressing the outside is what the slots made of it. -/
theorem addressing_ok {s : State} (h : s.LinesIdle) (a : Addr) (m : Direction)
    (hr : s.NoResetFor (setaCost s a + setdCost s m)) :
    inOrder [seta a, setd m] s = .ok () ((s.passTimes (setaCost s a + setdCost s m)).afterAddressing a m) ∧
    AgreesOutside (s.passTimes (setaCost s a + setdCost s m))
      ((s.passTimes (setaCost s a + setdCost s m)).afterAddressing a m) := by
  obtain ⟨hck, hl, hh, _⟩ := h
  refine ⟨(addressing_runs hck hl hh a m).ends ?_, (agreesOutside_afterSeta _ a).trans (agreesOutside_afterSetd _ m)⟩
  rwa [List.length_append, setaEvents_length, setdEvents_length]

theorem stops_rdb {s : State} (h : s.LinesIdle) (a : Addr) : (endsWith (rdb a)).Stops s (slotsOf s (.rdb a)) := by
  rw [endsWith_rdb]
  refine (stops_addressing h a .deviceDrives).andThen (fun hr => ?_)
  obtain ⟨hok, hagree⟩ := addressing_ok h a .deviceDrives hr
  exact ⟨(), _, hok, hagree, (stops_drd (afterSetd_dir _ _)).andThen_left _⟩

/-- A command without a write pulse, in all its slots. -/
theorem stops_operation {s : State} (h : s.LinesIdle) {i : Instr} (h1 : ∀ a d, i ≠ .wrb a d) (h2 : i ≠ .sdpd)
    (h3 : i ≠ .sdpe) : (operation i).Stops s (slotsOf s i) := by
  cases i with
  | seta a => exact (stops_seta s a).andThen_left _
  | setd m => exact (stops_setd s m).andThen_left _
  | dwr d =>
    by_cases hdir : s.dir = .hostDrives
    · rw [slotsOf, if_pos hdir]; exact (stops_dwr hdir d).andThen_left _
    · rw [slotsOf, if_neg hdir]; exact stops_zero _ s
  | drd =>
    by_cases hdir : s.dir = .deviceDrives
    · rw [slotsOf, if_pos hdir]; exact (stops_drd hdir).andThen_left _
    · rw [slotsOf, if_neg hdir]; exact stops_zero _ s
  | wrb a d => exact absurd rfl (h1 a d)
  | rdb a => exact stops_rdb h a
  | wait => exact stops_wait s
  | sdpd => exact absurd rfl h2
  | sdpe => exact absurd rfl h3

/-! ### WRB -/

/-- WRB is its set-up and then the write pulse (rule R182). -/
theorem wrb_eq (a : Addr) (d : Byte) :
    wrb a d = Op.andThen (inOrder [seta a, setd .hostDrives]) (fun _ => Op.andThen (dwr d) (fun _ => writeEnablePulse)) := by
  have h := inOrder_append [seta a, setd .hostDrives] [dwr d, writeEnablePulse]
  rw [inOrder_cons (dwr d), inOrder_single] at h
  exact h

theorem stops_pulse (s : State) : writeEnablePulse.Stops s 1 := (stops_afterSlot _ s).andThen_left _

/-- A reset in the second slot of the pulse finds it open (rule R264). -/
theorem pulse_reset_open {s : State} (hr : s.NoResetFor 1) (hrst : (s.slotAt 1).rst = true) :
    writeEnablePulse s = .abandoned ((s.passTimes 2).pinEvent (.we false)).resetBlock := by
  have hopen : emit (.we false) s = .ok () (s.passTime.pinEvent (.we false)) := emit_ok (hr 0 (by omega))
  have hslot : ((s.passTime.pinEvent (.we false)).slotAt 0).rst = true := by
    rw [slotAt_rst_congr (pinEvent_env _ _), slotAt_passTime]; exact hrst
  have hclose := emit_reset (e := .we true) hslot
  rw [← pinEvent_passTime (by simp)] at hclose
  rw [writeEnablePulse, inOrder_cons, andThen_ok hopen, inOrder_cons, andThen_ok (delay_apply _ _), inOrder_single]
  exact hclose

/-- With the host driving, the device reacts to the pulse that the reset ends as to any other (rules R67, R264). -/
theorem resetBlock_dev_of_pulse {x : State} (hddir : x.ddir = .outputs) (hoe : x.oeN = true) :
    (x.pinEvent (.we false)).resetBlock.dev = x.dev.writePulse x.addressLines x.dout := by
  rw [resetBlock_dev_of_open (by simp [State.pinEvent, State.effect])]
  simp [State.pinEvent, State.effect, State.dataLines, State.addressLines, hddir, hoe]

/-- The set-up of WRB: the address on its lines, the host driving the byte (rule R182). -/
def State.wrbSetUp (s : State) (a : Addr) (d : Byte) : State :=
  (((s.passTimes (setaCost s a + setdCost s .hostDrives)).afterAddressing a .hostDrives).passTimes 1).afterDwr d

theorem wrbSetUp_agrees (s : State) (a : Addr) (d : Byte) :
    AgreesOutside (s.passTimes (setaCost s a + setdCost s .hostDrives + 1)) (s.wrbSetUp a d) := by
  have hagree := (agreesOutside_afterSeta (s.passTimes (setaCost s a + setdCost s .hostDrives)) a).trans
    (agreesOutside_afterSetd _ .hostDrives)
  exact hagree.after (agreesOutside_afterDwr _ d)

theorem wrbSetUp_lines {s : State} (h : s.AtBoundary) (a : Addr) (d : Byte) :
    (s.wrbSetUp a d).addressLines = a ∧ (s.wrbSetUp a d).ddir = .outputs ∧ (s.wrbSetUp a d).oeN = true ∧
    (s.wrbSetUp a d).dout = d := by
  have hstart := passTimes_boundary h (setaCost s a + setdCost s .hostDrives)
  obtain ⟨_, hdir, _⟩ := afterSetd_boundary (afterSeta_boundary hstart a) .hostDrives
  obtain ⟨hddir, hoe⟩ := hdir.1.mp (afterSetd_dir _ _)
  obtain ⟨hlines, _⟩ := afterSetd_carries (afterSeta_carries hstart.2.2 a) .hostDrives
  unfold State.wrbSetUp State.afterAddressing
  generalize ((s.passTimes (setaCost s a + setdCost s .hostDrives)).afterSeta a).afterSetd .hostDrives = x at *
  exact ⟨hlines, hddir, hoe, rfl⟩

theorem wrb_setUp_ok {s : State} (h : s.LinesIdle) (a : Addr) (d : Byte)
    (hr : s.NoResetFor (setaCost s a + setdCost s .hostDrives + 1)) : wrb a d s = writeEnablePulse (s.wrbSetUp a d) := by
  obtain ⟨hok, hagree⟩ := addressing_ok h a .hostDrives (noResetFor_mono hr (by omega))
  have hdir : ((s.passTimes (setaCost s a + setdCost s .hostDrives)).afterAddressing a .hostDrives).dir = .hostDrives :=
    afterSetd_dir _ _
  have hdwr := (dwr_runs hdir d).ends (fun k hk => by rw [hagree.slotAt, slotAt_passTimes]; exact hr _ (by simpa using hk))
  rw [wrb_eq, andThen_ok hok]
  exact andThen_ok hdwr

/-- WRB up to the slot in which its pulse opens. -/
theorem stops_wrb {s : State} (h : s.LinesIdle) (a : Addr) (d : Byte) :
    (wrb a d).Stops s (setaCost s a + setdCost s .hostDrives + (1 + 1)) := by
  rw [wrb_eq]
  refine (stops_addressing h a .hostDrives).andThen (fun hr => ?_)
  obtain ⟨hok, hagree⟩ := addressing_ok h a .hostDrives hr
  have hdir := afterSetd_dir ((s.passTimes (setaCost s a + setdCost s .hostDrives)).afterSeta a) .hostDrives
  refine ⟨(), _, hok, hagree, (stops_dwr hdir d).andThen (fun hr' => ?_)⟩
  exact ⟨(), _, (dwr_runs hdir d).ends hr', agreesOutside_afterDwr _ d, stops_pulse _⟩

/-- A reset in the last slot of WRB falls inside its pulse. -/
theorem wrb_reset_inside {s : State} (h : s.AtBoundary) (a : Addr) (d : Byte) {c : Nat}
    (hc : c = setaCost s a + setdCost s .hostDrives + 1) (hr : s.NoResetFor (c + 1)) (hrst : (s.slotAt (c + 1)).rst = true) :
    ∃ u : State, wrb a d s = .abandoned u.resetBlock ∧ (∃ es, u.trace = s.trace ++ es) ∧
      u.resetBlock.dev = (s.passTimes (c + 2)).dev.writePulse a d := by
  subst hc
  have hagree := wrbSetUp_agrees s a d
  have hok := wrb_setUp_ok h.1 a d (noResetFor_mono hr (by omega))
  obtain ⟨hlines, hddir, hoe, hdout⟩ := wrbSetUp_lines h a d
  generalize s.wrbSetUp a d = x at *
  have hslot : ∀ j, (x.slotAt j).rst = (s.slotAt (setaCost s a + setdCost s .hostDrives + 1 + j)).rst :=
    fun j => by rw [hagree.slotAt, slotAt_passTimes]
  have hpulse := pulse_reset_open (s := x) (fun j hj => by rw [hslot]; exact hr _ (by omega)) (by rw [hslot]; exact hrst)
  have hlater := hagree.after (.refl (x.passTimes 2))
  have haddr : (x.passTimes 2).addressLines = a := by rw [← hlines]; simp [State.addressLines]
  obtain ⟨es, hes⟩ := hlater.trace
  refine ⟨_, hok.trans hpulse, ⟨es ++ [.we false], ?_⟩, ?_⟩
  · rw [pinEvent_trace, hes, passTimes_trace, List.append_assoc]
  · rw [resetBlock_dev_of_pulse (by rwa [passTimes_ddir]) (by rwa [passTimes_oeN]), haddr, passTimes_dout, hdout, hlater.dev]

/-- A reset in any slot of WRB (rules R52, R260, R264): before the pulse is open the device has only taken its own steps, inside it
the device reacts to the pulse. -/
theorem wrb_reset {s : State} (h : s.AtBoundary) (a : Addr) (d : Byte) {k : Nat} (hk : k < wrbCost s a)
    (hr : s.NoResetFor k) (hrst : (s.slotAt k).rst = true) :
    ∃ u : State, wrb a d s = .abandoned u.resetBlock ∧ (∃ es, u.trace = s.trace ++ es) ∧
      (k + 1 < wrbCost s a → u.resetBlock.dev = (s.passTimes (k + 1)).dev) ∧
      (k + 1 = wrbCost s a → u.resetBlock.dev = (s.passTimes (k + 1)).dev.writePulse a d) := by
  obtain ⟨_, _, _, hwe⟩ := h.1
  unfold wrbCost at hk ⊢
  by_cases hbefore : k + 1 < setaCost s a + setdCost s .hostDrives + 3
  · obtain ⟨u, hu, hagree⟩ := stops_wrb h.1 a d k (by omega) hr hrst
    refine ⟨u, hu, by simpa using hagree.trace, fun _ => ?_, fun hlast => absurd hbefore (by omega)⟩
    rw [resetBlock_dev_of_closed (by rw [hagree.weN, passTimes_weN, hwe]), hagree.dev]
  · obtain rfl : k = setaCost s a + setdCost s .hostDrives + 1 + 1 := by omega
    obtain ⟨u, hu, htrace, hdev⟩ := wrb_reset_inside h a d rfl hr hrst
    exact ⟨u, hu, htrace, fun hlt => absurd hlt hbefore, fun _ => hdev⟩

/-! ### The sequences -/

theorem writesCost_sq (s : State) (n : Fin 7) (ws : List (Addr × Byte)) : writesCost { s with sq := n } ws = writesCost s ws := by
  rw [← writesEvents_length, writesEvents_sq, writesEvents_length]

theorem afterWrites_build (ws : List (Addr × Byte)) : ∀ (s : State) (done : Fin 7),
    (s.afterWrites done ws).build = s.build := by
  induction ws with
  | nil => intro s done; rfl
  | cons w rest ih =>
    intro s done
    obtain ⟨_, _, _, _, _, _, _, hbuild, _⟩ := afterWrb_fields s w.1 w.2
    exact (ih _ _).trans hbuild

/-- A write that is abandoned abandons the sequence it stands in. -/
theorem issueWrites_abandoned (closed rest : List (Addr × Byte)) {a : Addr} {d : Byte} {v : State} :
    ∀ {s : State} (done : Fin 7), s.AtBoundary → s.NoResetFor (writesCost s closed) →
    wrb a d (s.afterWrites done closed) = .abandoned v →
    issueWrites done (closed ++ (a, d) :: rest) s = .abandoned v := by
  induction closed with
  | nil => intro s done _ _ hv; exact andThen_abandoned hv
  | cons w closed ih =>
    intro s done h hr hv
    obtain ⟨hlines, hdir, hcache⟩ := h
    have hruns := wrb_runs hlines hdir (fun hv => (hcache hv).1) w.1 w.2
    rw [writesCost] at hr
    have hok := hruns.ends (by rw [wrbEvents_length]; exact noResetFor_mono hr (by omega))
    have hboundary := afterWrb_ready hlines hdir hcache w.1 w.2
    have hslot := hruns.slotAt_rst
    rw [wrbEvents_length] at hslot
    rw [State.afterWrites] at hv
    generalize s.afterWrb w.1 w.2 = x at *
    have hrest : State.NoResetFor { x with sq := done + 1 } (writesCost { x with sq := done + 1 } closed) := by
      rw [writesCost_sq]
      exact (noResetFor_congr (s := x) rfl _).mpr (fun k hk => by rw [hslot]; exact hr _ (by omega))
    rw [List.cons_append, issueWrites, inOrder_cons, andThen_ok hok, inOrder_cons, setSq, andThen_ok (update_apply _ _),
      inOrder_single]
    exact ih (s := { x with sq := done + 1 }) (done + 1) hboundary hrest hv

/-- A reset in any slot of a write of a sequence stops the sequence as it stops that write. -/
theorem sequence_reset_write {s : State} (h : s.AtBoundary) {closed rest : List (Addr × Byte)} {a : Addr} {d info : Byte}
    {v : State} (hr : s.NoResetFor (writesCost s closed))
    (hv : wrb a d (State.afterWrites { s with sq := 0 } 0 closed) = .abandoned v) :
    endsPlain (inOrder [setSq 0, issueWrites 0 (closed ++ (a, d) :: rest), sequenceDeadline info]) s = .abandoned v := by
  have hr0 : State.NoResetFor { s with sq := 0 } (writesCost { s with sq := 0 } closed) := by
    rw [writesCost_sq]; exact (noResetFor_congr (s := s) (t := { s with sq := 0 }) rfl _).mpr hr
  have hwrites := issueWrites_abandoned closed rest (s := { s with sq := 0 }) 0 h hr0 hv
  rw [endsPlain_sequence]
  refine andThen_abandoned ?_
  rw [inOrder_cons, setSq, andThen_ok (update_apply _ _), inOrder_single]
  exact hwrites

/-- A reset in the slot of the look finds all writes done (rule R208). -/
theorem sequence_reset_look {s : State} (h : s.AtBoundary) {ws : List (Addr × Byte)} {info : Byte}
    (hen : s.build.deadlineEn = true) (hr : s.NoResetFor (writesCost s ws)) (hrst : (s.slotAt (writesCost s ws)).rst = true) :
    endsPlain (inOrder [setSq 0, issueWrites 0 ws, sequenceDeadline info]) s =
      .abandoned (State.afterWrites { s with sq := 0 } 0 ws).passTime.resetBlock := by
  obtain ⟨hruns, _⟩ := sequence_runs h ws
  have hok := hruns.ends (by rwa [writesEvents_length])
  have hslot := hruns.slotAt_rst 0
  rw [writesEvents_length, Nat.add_zero, hrst] at hslot
  have hbuild : (State.afterWrites { s with sq := 0 } 0 ws).build.deadlineEn = true := by rw [afterWrites_build]; exact hen
  rw [endsPlain_sequence, andThen_ok hok]
  refine andThen_abandoned (andThen_abandoned ?_)
  simp only [lookDeadline, hbuild, if_true, afterSlot, hslot]

/-- A reset in any slot of a sequence abandons it. -/
theorem sequence_reset {s : State} (h : s.AtBoundary) (ws : List (Addr × Byte)) (info : Byte) {n : Nat}
    (hn : n < writesCost s ws + lookCost s) (hr : s.NoResetFor n) (hrst : (s.slotAt n).rst = true) :
    ∃ u : State, endsPlain (inOrder [setSq 0, issueWrites 0 ws, sequenceDeadline info]) s = .abandoned u.resetBlock ∧
      ∃ es, u.trace = s.trace ++ es := by
  obtain ⟨hruns, _⟩ := sequence_runs h ws
  by_cases hw : n < writesCost s ws
  · obtain ⟨u, hu, htrace⟩ := hruns.stops n (by rwa [writesEvents_length]) hr hrst
    refine ⟨u, ?_, _, htrace⟩
    rw [endsPlain_sequence]
    exact andThen_abandoned hu
  · have hen : s.build.deadlineEn = true := by
      by_contra hen
      simp only [lookCost, hen, if_false] at hn
      omega
    obtain rfl : n = writesCost s ws := by
      simp only [lookCost, hen, if_true] at hn
      omega
    exact ⟨_, sequence_reset_look h hen hr hrst, _, hruns.trace⟩

/-! ### What an abandoned command leaves of the port -/

/-- The command port and the response word are as they were in `s`. -/
def State.SamePort (s u : State) : Prop := u.rspWord = s.rspWord ∧ u.commander = s.commander

@[simp] theorem pinEvent_commander (s : State) (e : PinEvent) : (s.pinEvent e).commander = s.commander := by
  cases e <;> simp only [State.pinEvent, State.effect] <;> split <;> rfl

theorem samePort_keptByEngine (s : State) : KeptByEngine true s.SamePort where
  passTime _ h := h
  pinEvent u e _ h := ⟨(pinEvent_rspWord u e).trans h.1, (pinEvent_commander u e).trans h.2⟩
  resetBlock u h := ⟨(resetBlock_rspWord u).trans h.1, (resetBlock_commander u).trans h.2⟩
  cache _ _ h := h
  direction _ _ h := h
  pollBit _ _ h := h
  position _ _ _ _ h := h

theorem keeps_operation {P : State → Prop} (hP : KeptByEngine true P) (i : Instr) : Op.Keeps P (operation i) := by
  cases i with
  | seta a => exact keeps_endsPlain (keeps_seta hP.toKept hP.cache a)
  | setd m => exact keeps_endsPlain (keeps_setd hP.toKept hP.direction m)
  | dwr d => exact keeps_endsPlain (keeps_dwr hP.toKept hP.pollBit d)
  | drd => exact keeps_endsWith (keeps_drd hP.toKept)
  | wrb a d => exact keeps_endsPlain (keeps_wrb hP a d)
  | rdb a => exact keeps_endsWith (keeps_rdb hP a)
  | wait => exact keeps_wait hP
  | sdpd => exact keeps_endsPlain (keeps_sequence hP _ _)
  | sdpe => exact keeps_endsPlain (keeps_sequence hP _ _)

/-- An operation that is abandoned leaves what it keeps. -/
theorem Op.Keeps.of_abandoned {α : Type} {P : State → Prop} {m : Op α} (h : Op.Keeps P m) {s v : State} (hs : P s)
    (hv : m s = .abandoned v) : P v := by
  have hend := h s hs
  rwa [hv] at hend

/-! ### The statements -/

/-- Settles O46: a poll stops in any of its slots with the device as its own steps left it; the chain and the port are kept. -/
theorem resetAbandonsAWait : Obligations.ResetAbandonsAWait := by
  unfold Obligations.ResetAbandonsAWait
  intro s n hbusy hdir hwe hn hr hrst
  obtain ⟨u, hu, hagree⟩ := stops_pollOnce hdir n hn hr hrst
  have hstep : step s = .next u.resetBlock := by
    rw [step, if_pos hbusy]; exact perform_abandoned hu
  obtain ⟨hsl, hsh, hql, hqh⟩ := (keepsChain_pollOnce s).of_abandoned (.refl s) hu
  obtain ⟨hrsp, hcommander⟩ := (keeps_pollOnce (samePort_keptByEngine s)).of_abandoned ⟨rfl, rfl⟩ hu
  refine ⟨_, hstep, resetBlock_atReset u, hsl, hsh, hql, hqh, ?_, hrsp, hcommander⟩
  rw [resetBlock_dev_of_closed (by rw [hagree.weN, passTimes_weN, hwe]), hagree.dev]

/-- A reset in any slot of any command: the operation is abandoned, and what it has done to the device where it is known. -/
theorem operation_reset {s : State} (h : s.AtBoundary) {i : Instr} {n : Nat} (hn : n < slotsOf s i) (hr : s.NoResetFor n)
    (hrst : (s.slotAt n).rst = true) :
    ∃ u : State, operation i s = .abandoned u.resetBlock ∧ (∃ es, u.trace = s.trace ++ es) ∧
      ((∀ a d, i ≠ .wrb a d) → i ≠ .sdpd → i ≠ .sdpe → u.resetBlock.dev = (s.passTimes (n + 1)).dev) ∧
      (∀ a d, i = .wrb a d → n + 1 < wrbCost s a → u.resetBlock.dev = (s.passTimes (n + 1)).dev) := by
  by_cases hquiet : (∀ a d, i ≠ .wrb a d) ∧ i ≠ .sdpd ∧ i ≠ .sdpe
  · obtain ⟨h1, h2, h3⟩ := hquiet
    obtain ⟨u, hu, hagree⟩ := stops_operation h.1 h1 h2 h3 n hn hr hrst
    obtain ⟨_, _, _, hwe⟩ := h.1
    refine ⟨u, hu, by simpa using hagree.trace, fun _ _ _ => ?_, fun a d hi => absurd hi (h1 a d)⟩
    rw [resetBlock_dev_of_closed (by rw [hagree.weN, passTimes_weN, hwe]), hagree.dev]
  · cases i with
    | wrb a d =>
      obtain ⟨u, hu, htrace, hdev, _⟩ := wrb_reset h a d hn hr hrst
      refine ⟨u, andThen_abandoned hu, htrace, fun h1 => absurd rfl (h1 a d), ?_⟩
      intro b e hi hlt
      obtain ⟨rfl, rfl⟩ := Instr.wrb.inj hi
      exact hdev hlt
    | sdpd =>
      obtain ⟨u, hu, htrace⟩ := sequence_reset h sdpDisableWrites 0x06#8 hn hr hrst
      exact ⟨u, hu, htrace, fun _ h2 => absurd rfl h2, fun _ _ hi => Instr.noConfusion hi⟩
    | sdpe =>
      obtain ⟨u, hu, htrace⟩ := sequence_reset h sdpEnableWrites 0x03#8 hn hr hrst
      exact ⟨u, hu, htrace, fun _ _ h3 => absurd rfl h3, fun _ _ hi => Instr.noConfusion hi⟩
    | _ => exact absurd ⟨by simp, by simp, by simp⟩ hquiet

/-- Settles O56: the operation is abandoned in the state after a reset, with the events of rule R262 last. -/
theorem resetInsideACommandAbandonsIt : Obligations.ResetInsideACommandAbandonsIt := by
  unfold Obligations.ResetInsideACommandAbandonsIt
  intro i s n hs hn hr hrst
  obtain ⟨u, hu, ⟨es, htrace⟩, hquiet, hwrb⟩ := operation_reset hs.atBoundary hn hr hrst
  obtain ⟨hrsp, hcommander⟩ := (keeps_operation (samePort_keptByEngine s) i).of_abandoned ⟨rfl, rfl⟩ hu
  have hexec : exec i s = .next u.resetBlock := by rw [exec_eq_perform]; exact perform_abandoned hu
  have hevents : newEvents s u.resetBlock = es ++ resetEvents := by
    rw [newEvents, resetBlock_trace, htrace, List.append_assoc, List.drop_left]
  exact ⟨_, hexec, resetBlock_atReset u, hrsp, hcommander, ⟨es, hevents⟩, hquiet, hwrb⟩

/-- A reset inside a sequence of any writes, in one of its writes or at the look. -/
theorem sequence_keepsItsPulses {i : Instr} {ws : List (Addr × Byte)} {info : Byte} {s : State} (hs : s.AtBoundary)
    (hi : operation i = endsPlain (inOrder [setSq 0, issueWrites 0 ws, sequenceDeadline info])) :
    (∀ (closed rest : List (Addr × Byte)) (a : Addr) (d : Byte) (u : State) (n k : Nat),
      ws = closed ++ (a, d) :: rest → u = State.afterWrites { s with sq := 0 } 0 closed →
      n = writesCost { s with sq := 0 } closed + k → k < wrbCost u a → s.NoResetFor n → (s.slotAt n).rst = true →
      ∃ t, exec i s = .next t ∧ t.AtReset ∧
        (k + 1 < wrbCost u a → t.dev = (u.passTimes (k + 1)).dev) ∧
        (k + 1 = wrbCost u a → t.dev = (u.passTimes (k + 1)).dev.writePulse a d)) ∧
    (∀ (u : State) (n : Nat), u = State.afterWrites { s with sq := 0 } 0 ws → n = writesCost { s with sq := 0 } ws →
      s.build.deadlineEn = true → s.NoResetFor n → (s.slotAt n).rst = true →
      ∃ t, exec i s = .next t ∧ t.AtReset ∧ t.dev = (u.passTimes 1).dev) := by
  have hexec : ∀ v : State, operation i s = .abandoned v → exec i s = .next v := fun v hv => by
    rw [exec_eq_perform]; exact perform_abandoned hv
  refine ⟨?_, ?_⟩
  · rintro closed rest a d u n k rfl rfl rfl hk hr hrst
    rw [writesCost_sq] at hr hrst
    obtain ⟨hruns, hboundary⟩ := sequence_runs hs closed
    have hslot := hruns.slotAt_rst
    rw [writesEvents_length] at hslot
    obtain ⟨v, hv, _, hbefore, hinside⟩ := wrb_reset hboundary a d hk
      (fun j hj => by rw [hslot]; exact hr _ (by omega)) (by rw [hslot]; exact hrst)
    have hstop := sequence_reset_write hs (rest := rest) (info := info) (noResetFor_mono hr (by omega)) hv
    exact ⟨_, hexec _ ((congrFun hi s).trans hstop), resetBlock_atReset v, hbefore, hinside⟩
  · rintro u n rfl rfl hen hr hrst
    rw [writesCost_sq] at hr hrst
    have hstop := sequence_reset_look hs (info := info) hen hr hrst
    obtain ⟨⟨_, _, _, hwe⟩, _⟩ := (sequence_runs hs ws).2
    exact ⟨_, hexec _ ((congrFun hi s).trans hstop), resetBlock_atReset _, resetBlock_dev_of_closed hwe⟩

/-- Settles O57: SDPD and SDPE are two sequences of writes. -/
theorem resetInsideASequenceKeepsItsPulses : Obligations.ResetInsideASequenceKeepsItsPulses := by
  unfold Obligations.ResetInsideASequenceKeepsItsPulses
  rintro i ws s hs (⟨rfl, rfl⟩ | ⟨rfl, rfl⟩)
  · exact sequence_keepsItsPulses hs.atBoundary (i := .sdpd) (info := 0x06#8) rfl
  · exact sequence_keepsItsPulses hs.atBoundary (i := .sdpe) (info := 0x03#8) rfl

end Sys2Proof.Machine
end

section
/-! SUPPORT. The family of 20_memory.md, first part: the device alone, in one pulse, one read, one slot (rules R72 to R76, R84), and
the idle block. -/

namespace Sys2Proof.Machine

/-! ## A write pulse -/

/-- Settles O29: `writePulse_programming`. -/
theorem pulseWhileProgrammingIsIgnored : Obligations.PulseWhileProgrammingIsIgnored := by
  unfold Obligations.PulseWhileProgrammingIsIgnored
  intro d a v hprogramming
  exact writePulse_programming hprogramming a v

/-- Settles O30: the fields after a pulse, for the latch off and on; a stored byte is read back where it went and nowhere else. -/
theorem pulseStoresWhenTheLatchIsOff : Obligations.PulseStoresWhenTheLatchIsOff := by
  unfold Obligations.PulseStoresWhenTheLatchIsOff
  intro d a v hwf hphase
  obtain ⟨hloading, hmem, hpending, hlast, _⟩ := writePulse_fields hphase a v
  refine ⟨hloading, fun hoff => ⟨?_, ?_, ?_, ?_⟩, fun hon => ⟨?_, ?_, ?_⟩⟩
  · rw [hmem, hoff]; exact read_write_same hwf a.toNat v
  · intro x hx; exact writePulse_read_other d v hx
  · rw [hpending, hoff]; rfl
  · rw [hlast, hoff]; rfl
  · rw [hmem, hon]; rfl
  · rw [hpending, hon]; rfl
  · rw [hlast, hon]; rfl

/-- The store rule moves neither the counter nor the latch (rule R73). -/
theorem store_cmd_sdp (d : Device) (a : Addr) (v : Byte) : (d.store a v).cmd = d.cmd ∧ (d.store a v).sdp = d.sdp := by
  unfold Device.store; split <;> exact ⟨rfl, rfl⟩

/-- What the first of some rows that fits makes of the counter and the latch (rule R74). -/
def recognisedBy (rows : List RecogniserRow) (cmd : Fin 6) (sdp : Bool) (a : Addr) (v : Byte) : Fin 6 × Bool :=
  (rows.find? (fun r => r.fits cmd a v)).elim (otherPair a v, sdp) (fun r => (r.after, r.latch.getD sdp))

theorem recognise_eq_recognisedBy (d : Device) (a : Addr) (v : Byte) :
    ((d.recognise a v).cmd, (d.recognise a v).sdp) = recognisedBy recogniserTable d.cmd d.sdp a v := by
  unfold Device.recognise recognisedBy
  cases recogniserTable.find? (fun r => r.fits d.cmd a v) <;> rfl

/-- The rows are tried in order. -/
theorem recognisedBy_cons (r : RecogniserRow) (rows : List RecogniserRow) (cmd : Fin 6) (sdp : Bool) (a : Addr) (v : Byte) :
    recognisedBy (r :: rows) cmd sdp a v =
      if cmd = r.before ∧ a = r.addr ∧ v = r.data then (r.after, r.latch.getD sdp)
      else recognisedBy rows cmd sdp a v := by
  have hfits : r.fits cmd a v = true ↔ cmd = r.before ∧ a = r.addr ∧ v = r.data := by
    simp only [RecogniserRow.fits, Bool.and_eq_true, beq_iff_eq, and_assoc, eq_comm (a := cmd), eq_comm (a := a),
      eq_comm (a := v)]
  unfold recognisedBy
  split
  · next h => rw [List.find?_cons_of_pos (p := fun r : RecogniserRow => r.fits cmd a v) (hfits.mpr h)]; rfl
  · next h => rw [List.find?_cons_of_neg (p := fun r : RecogniserRow => r.fits cmd a v) (fun hr => h (hfits.mp hr))]

theorem recognisedBy_nil (cmd : Fin 6) (sdp : Bool) (a : Addr) (v : Byte) :
    recognisedBy [] cmd sdp a v = if a = 0x5555#15 ∧ v = 0xAA#8 then (1, sdp) else (0, sdp) := by
  simp only [recognisedBy, List.find?_nil, Option.elim_none, otherPair, Bool.and_eq_true, beq_iff_eq]
  split <;> rfl

theorem writePulse_recognised {d : Device} (h : d.phase ≠ .programming) (a : Addr) (v : Byte) :
    ((d.writePulse a v).cmd, (d.writePulse a v).sdp) = recognisedBy recogniserTable d.cmd d.sdp a v := by
  obtain ⟨_, _, _, _, hcmd, hsdp⟩ := writePulse_fields h a v
  obtain ⟨hstoreCmd, hstoreSdp⟩ := store_cmd_sdp d a v
  rw [hcmd, hsdp, recognise_eq_recognisedBy, hstoreCmd, hstoreSdp]

/-- Settles O31: the rows are tried in the order of the table, and the last row is what is left. -/
theorem recogniserFollowsTheTable : Obligations.RecogniserFollowsTheTable := by
  unfold Obligations.RecogniserFollowsTheTable
  intro d a v hphase
  simp only [writePulse_recognised hphase, recogniserTable, recognisedBy_cons, recognisedBy_nil, Option.getD_none,
    Option.getD_some]

/-! ## A read -/

/-- Settles O32: a busy reference device answers with the inverse bit on top, any other with the cell. -/
theorem busyReadsInvertTheTopBit : Obligations.BusyReadsInvertTheTopBit := by
  unfold Obligations.BusyReadsInvertTheTopBit
  intro d a n hkind
  have hread : d.read a n = d.readReference a n := by rw [Device.read, hkind]
  rw [hread, Device.readReference]
  constructor
  · intro hpending hbusy
    have hb : (d.pending && d.phase != .idle) = true := by simp [hpending, hbusy]
    rw [if_pos hb, BitVec.getLsbD_append]
    simp
  · intro hrest
    have hb : ¬ (d.pending && d.phase != .idle) = true := by rcases hrest with h | h <;> simp [h]
    rw [if_neg hb]

/-! ## One slot -/

/-- Settles O33: each clause is one case of what a slot can do. -/
theorem deviceStepsOnlyWhereEnabled : Obligations.DeviceStepsOnlyWhereEnabled := by
  unfold Obligations.DeviceStepsOnlyWhereEnabled
  intro d x
  refine ⟨fun h => environment_idle h x, fun h hx => environment_loading h hx, ?_, ?_, ?_, ?_⟩
  · intro h hx hy
    simp [Device.environment, h, hx, hy, Device.windowElapse]
  · intro h hx hy
    cases hq : d.pending <;> simp [Device.environment, h, hx, hy, hq, Device.windowElapse, Device.programDone]
  · intro h hy
    simp [Device.environment, h, hy]
  · intro h hy
    simp [Device.environment, h, hy, Device.programDone]

/-- Settles O8: with no reset in its slot, an idle step is one slot passing. -/
theorem idleBlockHoldsItsPins : Obligations.IdleBlockHoldsItsPins := by
  unfold Obligations.IdleBlockHoldsItsPins
  intro s hbusy hcommander hr
  have hslot : (s.slotAt 0).rst = false := hr 0 (by omega)
  have hidle : s.idleSlot = s.passTime := by simp [State.idleSlot, hslot]
  have hstep : step s = .next s.idleSlot := by simp [step, hbusy, hcommander]
  rw [hstep, hidle]
  rfl

end Sys2Proof.Machine
end

section
/-! SUPPORT. The family of 20_memory.md, second part: the frames over the device's memory, resets included (rules R65, R73, R182,
R200), and what a WAIT of any number of polls keeps. -/

namespace Sys2Proof.Machine

/-! ## Commands without a write pulse -/

/-- `we_n` is 1, and latch and bytes of the device are as they were in `s`. -/
def State.SameMemory (s u : State) : Prop := u.weN = true ∧ u.dev.sdp = s.dev.sdp ∧ u.dev.mem = s.dev.mem

/-- The device's own steps move neither latch nor bytes; while `we_n` is 1 and does not move, neither pin events nor a reset do. -/
theorem sameMemory_keptByStep (s : State) : KeptByStep false s.SameMemory where
  passTime u h := by simpa [State.SameMemory] using h
  pinEvent u e he h := by
    have hagree := agreesOutside_pinEvent u (he rfl)
    simpa only [State.SameMemory, hagree.dev, hagree.weN] using h
  resetBlock u h := by
    obtain ⟨hwe, hmemory⟩ := h
    obtain ⟨_, _, _, _, hwe', _⟩ := resetBlock_atReset u
    exact ⟨hwe', by rwa [resetBlock_dev_of_closed hwe]⟩
  cache _ _ h := h
  direction _ _ h := h
  pollBit _ _ h := h
  position _ _ _ _ h := h
  respond _ _ _ h := h
  polling _ h := h
  accept _ h := h

/-- A further poll of a WAIT makes no write pulse. -/
theorem poll_keeps {p : Bool} {P : State → Prop} (hP : KeptByStep p P) {s t : State} (hbusy : s.busy = true) (hs : P s)
    (h : step s = .next t) : P t := by
  rw [step, if_pos hbusy] at h
  exact perform_keeps (keeps_pollOnce hP.toKeptByEngine) hP.respond hP.polling hs h

/-- Settles O42: latch and bytes are kept by every piece of a command that makes no write pulse. -/
theorem nonStoringCommandsKeepMemory : Obligations.NonStoringCommandsKeepMemory := by
  unfold Obligations.NonStoringCommandsKeepMemory
  intro i s t hwe h1 h2 h3 h
  have hs : s.SameMemory s := ⟨hwe, rfl, rfl⟩
  have ht : s.SameMemory t := by
    rcases h with h | ⟨hbusy, h⟩
    · exact exec_keeps_quiet (sameMemory_keptByStep s) h1 h2 h3 hs h
    · exact poll_keeps (sameMemory_keptByStep s) hbusy hs h
  obtain ⟨_, hsdp, hmem⟩ := ht
  exact ⟨hsdp, fun x => by rw [hmem]⟩

/-! ## Commands with write pulses -/

/-- At a boundary, with every byte of the device but those at the addresses of `ws` as it was in `s`. -/
def State.SameOutside (s : State) (ws : List (Addr × Byte)) (u : State) : Prop :=
  u.AtBoundary ∧ ∀ x, (∀ p ∈ ws, x ≠ p.1.toNat) → Memory.read u.dev.mem x = Memory.read s.dev.mem x

theorem resetBlock_atBoundary (s : State) : s.resetBlock.AtBoundary := by
  obtain ⟨hlines, hcache, hdir, _⟩ := resetBlock_boundary s
  exact ⟨hlines, hdir, hcache⟩

/-- Own steps of the device and then at most one pulse to an address of `ws`. -/
theorem sameOutside_congr {s u v : State} {ws : List (Addr × Byte)} {p : Addr × Byte} (hp : p ∈ ws) (h : s.SameOutside ws u)
    {n : Nat} (hv : v.AtBoundary)
    (hd : v.dev = (u.passTimes n).dev ∨ v.dev = (u.passTimes n).dev.writePulse p.1 p.2) : s.SameOutside ws v := by
  refine ⟨hv, fun x hx => ?_⟩
  rw [← h.2 x hx]
  rcases hd with hd | hd
  · rw [hd, passTimes_mem]
  · rw [hd, writePulse_read_other _ _ (hx p hp), passTimes_mem]

/-- WRB, ended or abandoned in any slot, writes the cell at its address at most. -/
theorem keepsOutside_wrb (s : State) {ws : List (Addr × Byte)} {p : Addr × Byte} (hp : p ∈ ws) :
    Op.Keeps (s.SameOutside ws) (wrb p.1 p.2) := by
  intro u hu
  have hb := hu.1
  obtain ⟨hlines, hdir, hcache⟩ := hb
  rcases noResetFor_or u (wrbCost u p.1) with hr | ⟨k, hk, hr, hrst⟩
  · have hok := (wrb_runs hlines hdir (fun hv => (hcache hv).1) p.1 p.2).ends (by rwa [wrbEvents_length])
    obtain ⟨_, _, _, _, _, _, _, _, _, hdev⟩ := afterWrb_fields u p.1 p.2
    rw [hok]
    exact sameOutside_congr hp hu (afterWrb_ready hlines hdir hcache p.1 p.2) (.inr hdev)
  · obtain ⟨v, hv, _, hbefore, hinside⟩ := wrb_reset hu.1 p.1 p.2 hk hr hrst
    rw [hv]
    refine sameOutside_congr hp hu (n := k + 1) (resetBlock_atBoundary v) ?_
    by_cases hlast : k + 1 < wrbCost u p.1
    · exact .inl (hbefore hlast)
    · exact .inr (hinside (by omega))

theorem keepsOutside_issueWrites (s : State) {ws : List (Addr × Byte)} (rest : List (Addr × Byte)) :
    ∀ done : Fin 7, (∀ p ∈ rest, p ∈ ws) → Op.Keeps (s.SameOutside ws) (issueWrites done rest) := by
  induction rest with
  | nil => intro done _; exact keeps_done ()
  | cons w rest ih =>
    intro done hrest
    refine keeps_inOrder ?_
    simp only [List.forall_mem_cons]
    exact ⟨keepsOutside_wrb s (hrest w (by simp)), keeps_update (fun _ hu => hu),
      ih _ (fun p hp => hrest p (by simp [hp])), by simp⟩

theorem keepsOutside_lookDeadline (s : State) (ws : List (Addr × Byte)) : Op.Keeps (s.SameOutside ws) lookDeadline := by
  intro u hu
  rcases lookDeadline_cases u with ⟨_, hlook⟩ | ⟨_, _, hlook⟩ <;> rw [hlook]
  · exact ⟨passTimes_boundary hu.1 _, fun x hx => by rw [passTimes_mem]; exact hu.2 x hx⟩
  · refine ⟨resetBlock_atBoundary _, fun x hx => ?_⟩
    obtain ⟨⟨_, _, _, hwe⟩, _⟩ := hu.1
    rw [resetBlock_dev_of_closed (by rwa [passTime_weN]), passTime_dev, environment_mem]
    exact hu.2 x hx

/-- A sequence, ended or abandoned in any slot, writes the cells at the addresses of its writes at most. -/
theorem keepsOutside_sequence (s : State) {ws rest : List (Addr × Byte)} (hrest : ∀ p ∈ rest, p ∈ ws) (info : Byte) :
    Op.Keeps (s.SameOutside ws) (inOrder [setSq 0, issueWrites 0 rest, sequenceDeadline info]) := by
  refine keeps_inOrder ?_
  simp only [List.forall_mem_cons]
  refine ⟨keeps_update (fun _ hu => hu), keepsOutside_issueWrites s rest 0 hrest,
    keeps_andThen (keepsOutside_lookDeadline s ws) (fun expired => ?_), by simp⟩
  cases expired <;> exact fun _ hu => hu

theorem perform_sameOutside {m : Op Unit} {s t : State} {ws : List (Addr × Byte)} (hs : s.Ready)
    (hm : Op.Keeps (s.SameOutside ws) m) (h : perform (endsPlain m) s = .next t) :
    ∀ x, (∀ p ∈ ws, x ≠ p.1.toNat) → Memory.read t.dev.mem x = Memory.read s.dev.mem x := by
  have hstart : s.SameOutside ws s := ⟨hs.atBoundary, fun _ _ => rfl⟩
  exact (perform_keeps (keeps_endsPlain hm) (fun _ _ _ hu => hu) (fun _ hu => hu) hstart h).2

/-- Settles O43: every pulse goes to the operand address of its WRB. -/
theorem storingCommandsKeepOtherCells : Obligations.StoringCommandsKeepOtherCells := by
  unfold Obligations.StoringCommandsKeepOtherCells
  refine ⟨?_, ?_⟩
  · intro s t a d hs h x hx
    exact perform_sameOutside hs (keepsOutside_wrb s (List.mem_singleton_self (a, d))) h x (by simpa using hx)
  · intro s t hs h
    rcases h with h | h
    · exact perform_sameOutside hs (keepsOutside_sequence s (fun p hp => List.mem_append_left _ hp) _) h
    · exact perform_sameOutside hs (keepsOutside_sequence s (fun p hp => List.mem_append_right _ hp) _) h

/-! ## What a WAIT of any number of polls keeps -/

/-- What each poll keeps, a run of polls keeps. -/
theorem pollOn_induct {P : State → Prop} (hpoll : ∀ s t, s.busy = true → P s → step s = .next t → P t) (n : Nat) :
    ∀ {s t : State}, P s → pollOn n s = .next t → P t := by
  induction n with
  | zero =>
    intro s t hs h
    simp only [pollOn, Host.Outcome.next.injEq] at h
    rwa [← h]
  | succ n ih =>
    intro s t hs h
    by_cases hbusy : s.busy = true
    · rw [pollOn, if_pos hbusy] at h
      cases hstep : step s with
      | next u => rw [hstep] at h; exact ih (hpoll s u hbusy hs hstep) h
      | fault f => rw [hstep] at h; cases h
      | refused r => rw [hstep] at h; cases h
    · rw [pollOn, if_neg hbusy, Host.Outcome.next.injEq] at h
      rwa [← h]

/-- What the first iteration establishes and each further poll keeps holds when a WAIT is left. -/
theorem waitFor_induct {P : State → Prop} {s t : State} (hfirst : ∀ u, exec .wait s = .next u → P u)
    (hpoll : ∀ u v, u.busy = true → P u → step u = .next v → P v) {n : Nat} (h : waitFor n s = .next t) : P t := by
  unfold waitFor at h
  cases hexec : exec .wait s with
  | next u => rw [hexec] at h; exact pollOn_induct hpoll n (hfirst u hexec) h
  | fault f => rw [hexec] at h; cases h
  | refused r => rw [hexec] at h; cases h

theorem waitFor_keeps {p : Bool} {P : State → Prop} (hP : KeptByStep p P) {s t : State} {n : Nat} (hs : P s)
    (h : waitFor n s = .next t) : P t :=
  waitFor_induct (fun _ hu => perform_keeps (keeps_wait hP.toKeptByEngine) hP.respond hP.polling hs hu)
    (fun _ _ hbusy hu hv => poll_keeps hP hbusy hu hv) h

/-- A WAIT leaves the block at a boundary (rules R40, R41, R44). -/
theorem waitFor_boundary {s t : State} {n : Nat} (hs : s.AtBoundary) (h : waitFor n s = .next t) : t.AtBoundary := by
  refine waitFor_induct (P := State.AtBoundary) (fun u hu => ?_) (fun u v _ hu hv => (step_follows hu hv).1.boundary) h
  exact (perform_follows (follows_operation s .wait) (fun _ => operation_polling (i := .wait)) (.refl hs) hu).1.boundary

@[simp] theorem resetBlock_env (s : State) : s.resetBlock.env = s.env := by
  simp [State.resetBlock, resetEvents, State.pinEvents]

/-- Slots are only ever taken from the list. -/
theorem neverReset_keptByStep : KeptByStep true State.NeverReset where
  passTime _ h := fun x hx => h x (List.mem_of_mem_tail hx)
  pinEvent s e _ h := by rwa [State.NeverReset, pinEvent_env]
  resetBlock s h := by rwa [State.NeverReset, resetBlock_env]
  cache _ _ h := h
  direction _ _ h := h
  pollBit _ _ h := h
  position _ _ _ _ h := h
  respond _ _ _ h := h
  polling _ h := h
  accept _ h := h

end Sys2Proof.Machine
end

section
/-! SUPPORT. The family of 20_memory.md, third part: the own steps of a live device come again and again (rules R84, R85), and a WAIT
on a stored write ends when the device is Idle (rules R76, R188, R191). -/

namespace Sys2Proof.Machine

/-! ## The device's own steps over many slots -/

/-- Once `WindowElapse` has come, or outside the window, the device is not Loading after a slot. -/
theorem environment_not_loading {d : Device} {x : EnvSlot} (h : d.phase ≠ .loading ∨ x.windowElapse = true) :
    (d.environment x).phase ≠ .loading := by
  cases hp : d.phase with
  | idle => rw [environment_idle hp, hp]; exact Phase.noConfusion
  | loading =>
    have helapse : x.windowElapse = true := h.resolve_left (not_not_intro hp)
    cases hq : d.pending <;> cases hy : x.programDone <;>
      simp [Device.environment, hp, helapse, hq, hy, Device.windowElapse, Device.programDone]
  | programming => cases hy : x.programDone <;> simp [Device.environment, hp, hy, Device.programDone]

/-- `ProgramDone`, in the same slot or later, makes such a device Idle. -/
theorem environment_programDone {d : Device} {x : EnvSlot} (h : d.phase ≠ .loading ∨ x.windowElapse = true)
    (hdone : x.programDone = true) : (d.environment x).phase = .idle := by
  cases hp : d.phase with
  | idle => rw [environment_idle hp, hp]
  | loading =>
    have helapse : x.windowElapse = true := h.resolve_left (not_not_intro hp)
    cases hq : d.pending <;>
      simp [Device.environment, hp, helapse, hdone, hq, Device.windowElapse, Device.programDone]
  | programming => simp [Device.environment, hp, hdone, Device.programDone]

theorem passTimes_succ_dev (s : State) (n : Nat) :
    (s.passTimes (n + 1)).dev = (s.passTimes n).dev.environment (s.slotAt n) := by
  rw [passTimes_succ', passTime_dev, slotAt_passTimes, Nat.add_zero]

/-- After a slot in which the window elapses and one, the same or later, in which the write ends, the device is Idle (rule R84). -/
theorem passTimes_dev_becomes_idle {s : State} {i j n : Nat} (hij : i ≤ j) (hjn : j < n)
    (helapse : (s.slotAt i).windowElapse = true) (hdone : (s.slotAt j).programDone = true) :
    (s.passTimes n).dev.phase = .idle := by
  have hleft : ∀ k, i < k → (s.passTimes k).dev.phase ≠ .loading := by
    intro k hk
    induction k, hk using Nat.le_induction with
    | base => rw [passTimes_succ_dev]; exact environment_not_loading (.inr helapse)
    | succ k _ ih => rw [passTimes_succ_dev]; exact environment_not_loading (.inl ih)
  have hidle : (s.passTimes (j + 1)).dev.phase = .idle := by
    rw [passTimes_succ_dev]
    refine environment_programDone ?_ hdone
    rcases Nat.lt_or_eq_of_le hij with h | rfl
    · exact .inl (hleft j h)
    · exact .inr helapse
  rw [show n = j + 1 + (n - (j + 1)) by omega, passTimes_add, passTimes_dev_idle hidle]
  exact hidle

/-! ## Fairness -/

/-- A slot that the environment has not listed, before a live device. -/
theorem slotAt_unlisted {s : State} (hkind : s.dev.kind = .reference) {j : Nat} (hj : s.env.length ≤ j) :
    (s.slotAt j).windowElapse = comesAt Config.windowGap (s.tick + j) ∧
    (s.slotAt j).programDone = comesAt Config.programGap (s.tick + j) := by
  rw [State.slotAt, List.getElem?_eq_none hj, hkind]
  exact ⟨rfl, rfl⟩

/-- Another chosen slot follows any slot, beyond the listed ones. -/
theorem comesAt_unlisted (s : State) (gap : Nat → Nat) (k : Nat) :
    ∃ j, k ≤ j ∧ s.env.length ≤ j ∧ comesAt gap (s.tick + j) = true := by
  obtain ⟨m, hm, hcomes⟩ := comesAt_again gap (s.tick + (k + s.env.length))
  exact ⟨m - s.tick, by omega, by omega, by rwa [show s.tick + (m - s.tick) = m by omega]⟩

/-- The own steps of a live device are weakly fair (rule R85). -/
theorem weaklyFair_of_reference {s : State} (hkind : s.dev.kind = .reference) : s.WeaklyFair := by
  intro k
  obtain ⟨i, hki, hi, helapse⟩ := comesAt_unlisted s Config.windowGap k
  obtain ⟨j, hkj, hj, hdone⟩ := comesAt_unlisted s Config.programGap k
  exact ⟨⟨i, hki, (slotAt_unlisted hkind hi).1.trans helapse⟩, ⟨j, hkj, (slotAt_unlisted hkind hj).2.trans hdone⟩⟩

/-- Settles O54: after the next `WindowElapse` and a `ProgramDone` that follows it the device is Idle. -/
theorem liveDeviceTakesItsSteps : Obligations.LiveDeviceTakesItsSteps := by
  unfold Obligations.LiveDeviceTakesItsSteps
  refine ⟨fun s hkind => weaklyFair_of_reference hkind, fun s hkind => ?_⟩
  have hfair := weaklyFair_of_reference hkind
  obtain ⟨⟨i, _, helapse⟩, _⟩ := hfair 0
  obtain ⟨_, ⟨j, hij, hdone⟩⟩ := hfair i
  exact ⟨j + 1, passTimes_dev_becomes_idle hij (Nat.lt_succ_self j) helapse hdone⟩

/-! ## What a poll observes of a stored write -/

/-- The last byte written was stored, is being written or is written, and the lines point at its cell (rule R191). -/
structure State.Observes (s : State) : Prop where
  stored : s.WriteObserved
  course : s.dev.pending = true ∨ s.dev.phase = .idle

/-- A slot does not end a pending write but by making the device Idle. -/
theorem environment_course {d : Device} (h : d.pending = true ∨ d.phase = .idle) (x : EnvSlot) :
    (d.environment x).pending = true ∨ (d.environment x).phase = .idle := by
  rcases environment_cases d x with he | ⟨hp, _, he⟩ | ⟨_, _, he⟩ | ⟨_, _, _, _, he⟩ <;> rw [he]
  · exact h
  · exact .inl (h.resolve_right (by rw [hp]; exact Phase.noConfusion))
  · exact .inr rfl
  · exact .inr rfl

theorem State.Observes.passTimes {s : State} (h : s.Observes) (n : Nat) : (s.passTimes n).Observes := by
  refine ⟨?_, ?_⟩
  · simpa [State.WriteObserved, State.addressLines] using h.stored
  · induction n with
    | zero => exact h.course
    | succ n ih => rw [passTimes_succ_dev]; exact environment_course ih _

/-- The observation rests on the device, the address lines and `poll_bit` alone. -/
theorem State.Observes.congr {s t : State} (h : s.Observes) (hdev : t.dev = s.dev) (hlines : t.addressLines = s.addressLines)
    (hbit : t.pollBit = s.pollBit) : t.Observes := by
  refine ⟨?_, by rw [hdev]; exact h.course⟩
  simpa only [State.WriteObserved, hdev, hlines, hbit] using h.stored

/-- A sample matches exactly when the device is Idle: a busy one inverts the bit of the last byte (rule R76). -/
theorem State.Observes.pollMatches_iff {s : State} (h : s.Observes) (draw : Nat) :
    pollMatches (s.dev.read s.addressLines draw) s.pollBit = true ↔ s.dev.phase = .idle := by
  obtain ⟨⟨hkind, hlast, hcell⟩, hcourse⟩ := h
  obtain ⟨hbusy, hrest⟩ := busyReadsInvertTheTopBit s.dev s.addressLines draw hkind
  rw [pollMatches, beq_iff_eq]
  constructor
  · intro hmatch
    by_contra hphase
    rw [hbusy (hcourse.resolve_right hphase) hphase, hlast] at hmatch
    exact absurd hmatch (by simp)
  · intro hidle
    rw [hrest (.inr hidle), hcell]

/-! ## One poll, where no reset comes -/

theorem passTimes_directionTrue {s : State} (h : s.DirectionTrue) (n : Nat) : (s.passTimes n).DirectionTrue := by
  rw [passTimes_eq]; exact h

theorem dataLines_of_deviceDrives {s : State} (hd : s.DirectionTrue) (hdir : s.dir = .deviceDrives) :
    s.dataLines = s.dev.read s.addressLines s.draws := by
  obtain ⟨hddir, hoe⟩ := hd.2.mp hdir
  rw [State.dataLines, hddir, hoe]

/-- DRD where no reset comes (rule R168). -/
theorem drd_ok {s : State} (hd : s.DirectionTrue) (hdir : s.dir = .deviceDrives) (hr : s.NoResetFor 1) :
    drd s = .ok (s.passTime.dev.read s.addressLines s.draws)
      (s.passTime.afterSample (s.passTime.dev.read s.addressLines s.draws)) := by
  have hslot : (s.slotAt 0).rst = false := hr 0 (by omega)
  have hcontended : s.passTime.contended = false := not_contended_of_directionTrue (s := s.passTime) hd
  have hlines : s.passTime.dataLines = s.passTime.dev.read s.addressLines s.draws :=
    dataLines_of_deviceDrives (s := s.passTime) hd hdir
  simp only [drd, if_pos hdir, sampleLines, afterSlot, hslot, hcontended, hlines, Bool.false_eq_true, if_false]
  rfl

/-- The byte of the next poll: the sample is taken in the slot after the look at the deadline (rules R188, R240). -/
def State.nextSample (s : State) : Byte := (s.passTimes (lookCost s + 1)).dev.read s.addressLines s.draws

/-- One iteration where no reset comes (rules R188, R240). -/
theorem pollOnce_eq {s : State} (hd : s.DirectionTrue) (hdir : s.dir = .deviceDrives) (hr : s.NeverReset) :
    pollOnce s =
      if s.build.deadlineEn && (s.passTimes (lookCost s)).deadlineExpired then
        .raised .timingViolation s.pollByte (s.passTimes (lookCost s))
      else judgeSample s.nextSample ((s.passTimes (lookCost s + 1)).afterSample s.nextSample) := by
  have hlook := (lookDeadline_cases s).resolve_right (fun h => by
    rw [neverReset_slotAt hr] at h; exact Bool.false_ne_true h.2.1)
  rw [pollOnce, andThen_ok hlook.2]
  split
  · rw [passTimes_pollByte]
  · have hsample := drd_ok (s := s.passTimes (lookCost s)) (passTimes_directionTrue hd _) (by rwa [passTimes_dir])
      (fun k _ => by rw [slotAt_passTimes]; exact neverReset_slotAt hr _)
    rw [andThen_ok hsample, ← passTimes_succ']
    simp only [State.nextSample, State.addressLines, passTimes_qh, passTimes_ql, passTimes_draws]

/-- A WAIT polls a stored write. -/
structure State.Polls (s : State) : Prop where
  direction : s.DirectionTrue
  deviceDrives : s.dir = .deviceDrives
  neverReset : s.NeverReset
  observes : s.Observes

/-- The variables of the loop and the passing of time are no part of that. -/
theorem State.Polls.again {s : State} (h : s.Polls) (n : Nat) (v : Byte) (p : Nat) (b : Bool) :
    State.Polls { (s.passTimes n).afterSample v with pollByte := v, polls := p, busy := b } where
  direction := passTimes_directionTrue h.direction n
  deviceDrives := (passTimes_dir s n).trans h.deviceDrives
  neverReset := by
    intro x hx
    simp only [State.afterSample, passTimes_env] at hx
    exact h.neverReset x (List.mem_of_mem_drop hx)
  observes := (h.observes.passTimes n).congr rfl rfl rfl

theorem nextSample_matches_iff {s : State} (h : s.Observes) :
    pollMatches s.nextSample s.pollBit = true ↔ (s.passTimes (lookCost s + 1)).dev.phase = .idle := by
  have hiff := (h.passTimes (lookCost s + 1)).pollMatches_iff s.draws
  simpa only [State.nextSample, State.addressLines, passTimes_qh, passTimes_ql, passTimes_pollBit] using hiff

theorem responseWord_ne_ok {st : Status} (h : st ≠ .ok) (d e : Byte) : responseWord st d ≠ responseWord .ok e := by
  intro heq
  have hcode := congrArg (BitVec.extractLsb' 8 4) heq
  rw [responseWord_status, responseWord_status] at hcode
  cases st with
  | ok => exact h rfl
  | _ => exact absurd hcode (by decide)

theorem judgeSample_match {v : Byte} {s : State} (h : pollMatches v s.pollBit = true) :
    judgeSample v s = .ok (.finished 0x00#8) { s with pollByte := v } := by
  rw [judgeSample, if_pos h]

/-- A mismatch ends the loop only in a build with a limit (rule R188). -/
theorem judgeSample_mismatch {v : Byte} {s : State} (h : ¬ pollMatches v s.pollBit = true) :
    (s.build.pollLimit ≠ none ∧
      judgeSample v s = .raised .unexpectedToggleBit v { s with pollByte := v, polls := s.polls + 1 }) ∨
    judgeSample v s = .ok .polling { s with pollByte := v, polls := s.polls + 1 } := by
  rw [judgeSample, if_neg h]
  by_cases hlimit : pollLimitReached s.build.pollLimit (s.polls + 1) = true
  · refine .inl ⟨fun hnone => ?_, if_pos hlimit⟩
    rw [hnone] at hlimit
    exact Bool.false_ne_true hlimit
  · exact .inr (if_neg hlimit)

theorem perform_finished {m : Op Progress} {s u : State} {d : Byte} (h : m s = .ok (.finished d) u) :
    perform m s = .next (u.respond .ok d) := by simp only [perform, h]

theorem perform_polling {m : Op Progress} {s u : State} (h : m s = .ok .polling u) :
    perform m s = .next { u with busy := true } := by simp only [perform, h]

theorem perform_raised {m : Op Progress} {s u : State} {st : Status} {d : Byte} (h : m s = .raised st d u) :
    perform m s = .next (u.respond st d) := by simp only [perform, h, raise_eq]

/-- The ends of a poll that observes a stored write: OK with the device Idle; one more poll while it is not; or a fault of a build
with bounds (rules R188, R191). -/
theorem poll_outcome {s m : State} (hs : s.Polls) (hm : m = s.passTimes (lookCost s + 1)) :
    ∃ t, perform pollOnce s = .next t ∧
      ((m.dev.phase = .idle ∧ t.busy = false ∧ t.rspValid = true ∧ t.rspWord = responseWord .ok 0x00#8 ∧ t.dev = m.dev) ∨
       (m.dev.phase ≠ .idle ∧ t.busy = true ∧ t.Polls ∧ AgreesOutside m t) ∨
       (t.busy = false ∧ t.rspWord ≠ responseWord .ok 0x00#8 ∧ (s.build.pollLimit ≠ none ∨ s.build.deadlineEn = true))) := by
  have hmatches := nextSample_matches_iff hs.observes
  rw [← hm] at hmatches
  have hbit : (m.afterSample s.nextSample).pollBit = s.pollBit := by rw [hm]; exact passTimes_pollBit s _
  have hbuild : (m.afterSample s.nextSample).build = s.build := by rw [hm]; exact passTimes_build s _
  have hagain := fun p => hs.again (lookCost s + 1) s.nextSample p true
  have hpoll := pollOnce_eq hs.direction hs.deviceDrives hs.neverReset
  rw [← hm] at hagain hpoll
  by_cases hexpired : (s.build.deadlineEn && (s.passTimes (lookCost s)).deadlineExpired) = true
  · rw [if_pos hexpired] at hpoll
    rw [Bool.and_eq_true] at hexpired
    exact ⟨_, perform_raised hpoll,
      .inr (.inr ⟨rfl, responseWord_ne_ok Status.noConfusion _ _, .inr hexpired.1⟩)⟩
  · rw [if_neg hexpired] at hpoll
    by_cases hmatch : pollMatches s.nextSample (m.afterSample s.nextSample).pollBit = true
    · rw [judgeSample_match hmatch] at hpoll
      rw [hbit] at hmatch
      exact ⟨_, perform_finished hpoll, .inl ⟨hmatches.mp hmatch, rfl, rfl, rfl, rfl⟩⟩
    · rcases judgeSample_mismatch hmatch with ⟨hlimit, hjudge⟩ | hjudge <;> rw [hjudge] at hpoll
      · rw [hbuild] at hlimit
        exact ⟨_, perform_raised hpoll,
          .inr (.inr ⟨rfl, responseWord_ne_ok Status.noConfusion _ _, .inl hlimit⟩)⟩
      · rw [hbit] at hmatch
        exact ⟨_, perform_polling hpoll, .inr (.inl ⟨fun hidle => hmatch (hmatches.mpr hidle), rfl, hagain _,
          ⟨rfl, rfl, rfl, rfl, rfl, rfl, _, rfl⟩⟩)⟩

/-! ## A whole WAIT -/

/-- Where no reset comes, WAIT is its start and then its first iteration (rule R188). -/
theorem exec_wait_eq {s : State} (hr : s.NeverReset) :
    exec .wait s = perform pollOnce (s.passTimes (setdCost s .deviceDrives)).waitStart := by
  have hsetd := (setd_runs s .deviceDrives).ends (noResetFor_of_neverReset hr _)
  have hstart : inOrder [setd .deviceDrives, startPolling] s = .ok () (s.passTimes (setdCost s .deviceDrives)).waitStart := by
    rw [inOrder_cons, andThen_ok hsetd, inOrder_single]
    rfl
  rw [exec_eq_perform, operation, wait, perform_andThen_ok hstart]

theorem waitStart_polls {s : State} (hd : s.DirectionTrue) (hr : s.NeverReset) (ho : s.Observes) (n : Nat) :
    (s.passTimes n).waitStart.Polls := by
  have ho' := ho.passTimes n
  have hd' := passTimes_directionTrue hd n
  have henv : (s.passTimes n).NeverReset := fun x hx => hr x (List.mem_of_mem_drop (by rwa [← passTimes_env]))
  generalize s.passTimes n = u at *
  obtain ⟨_, _, hql, hqh, _, _, _, _, hbit, _, _, _, hdev, hslots, _⟩ := afterSetd_fields u .deviceDrives
  refine ⟨afterSetd_directionTrue hd' .deviceDrives, afterSetd_dir u .deviceDrives, ?_, ho'.congr hdev ?_ hbit⟩
  · simpa only [State.waitStart, State.NeverReset, hslots] using henv
  · simp only [State.waitStart, State.addressLines, hql, hqh]

/-- While a WAIT goes on it polls; when it has ended with OK the device is Idle. -/
def State.WaitSound (s : State) : Prop :=
  (s.busy = true → s.Polls) ∧ (s.busy = false → s.rspWord = responseWord .ok 0x00#8 → s.dev.phase = .idle)

theorem poll_waitSound {s t : State} (hs : s.Polls) (h : perform pollOnce s = .next t) : t.WaitSound := by
  obtain ⟨u, hu, houtcome⟩ := poll_outcome hs rfl
  obtain rfl : u = t := by rw [hu] at h; exact Host.Outcome.next.inj h
  rcases houtcome with ⟨hidle, hbusy, _, _, hdev⟩ | ⟨_, hbusy, hpolls, _⟩ | ⟨hbusy, hrsp, _⟩
  · exact ⟨fun hb => absurd (hbusy.symm.trans hb) Bool.false_ne_true, fun _ _ => by rw [hdev]; exact hidle⟩
  · exact ⟨fun _ => hpolls, fun hb => absurd (hb.symm.trans hbusy) Bool.false_ne_true⟩
  · exact ⟨fun hb => absurd (hbusy.symm.trans hb) Bool.false_ne_true, fun _ hok => absurd hok hrsp⟩

/-- A WAIT on a stored write that ends with OK leaves the device Idle (rule R191). -/
theorem waitFor_ok_idle {n : Nat} {s t : State} (hd : s.DirectionTrue) (hr : s.NeverReset) (ho : s.Observes)
    (h : waitFor n s = .next t) (hbusy : t.busy = false) (hrsp : t.rspWord = responseWord .ok 0x00#8) :
    t.dev.phase = .idle := by
  have hsound : t.WaitSound := by
    refine waitFor_induct (fun u hu => ?_) (fun u v hb hu hv => ?_) h
    · rw [exec_wait_eq hr] at hu
      exact poll_waitSound (waitStart_polls hd hr ho _) hu
    · rw [step, if_pos hb] at hv
      exact poll_waitSound (hu.1 hb) hv
  exact hsound.2 hbusy hrsp

/-- A WAIT that has ended with OK, the device being Idle. -/
def State.WaitDone (t : State) : Prop :=
  t.busy = false ∧ t.rspValid = true ∧ t.rspWord = responseWord .ok 0x00#8 ∧ t.dev.phase = .idle

theorem pollOn_of_not_busy {s : State} (h : s.busy = false) (n : Nat) : pollOn n s = .next s := by
  cases n with
  | zero => rfl
  | succ n => rw [pollOn, h, if_neg Bool.false_ne_true]

/-- A build without bounds on a WAIT (rule R189). -/
def State.Unbounded (s : State) : Prop := s.build.pollLimit = none ∧ s.build.deadlineEn = false

/-- Without bounds a poll takes one slot, and WAIT is done if the device is Idle after it and polls on otherwise. -/
theorem poll_outcome_unbounded {s : State} (hs : s.Polls) (hb : s.Unbounded) :
    ∃ t, perform pollOnce s = .next t ∧
      ((s.passTime.dev.phase = .idle ∧ t.WaitDone) ∨
       (s.passTime.dev.phase ≠ .idle ∧ t.busy = true ∧ t.Polls ∧ AgreesOutside s.passTime t)) := by
  obtain ⟨hlimit, hdeadline⟩ := hb
  have hcost : lookCost s = 0 := by simp [lookCost, hdeadline]
  obtain ⟨t, ht, houtcome⟩ := poll_outcome (m := s.passTime) hs (by rw [hcost]; rfl)
  refine ⟨t, ht, ?_⟩
  rcases houtcome with ⟨hidle, hbusy, hvalid, hrsp, hdev⟩ | hgoes | ⟨_, _, hbound⟩
  · exact .inl ⟨hidle, hbusy, hvalid, hrsp, by rw [hdev]; exact hidle⟩
  · exact .inr hgoes
  · simp [hlimit, hdeadline] at hbound

/-- Without bounds a WAIT polls, one slot each, up to the slot after which the device is Idle. -/
theorem polls_until_idle (n : Nat) : ∀ {s : State}, s.Polls → s.Unbounded → (s.passTimes (n + 1)).dev.phase = .idle →
    ∃ u t, perform pollOnce s = .next u ∧ pollOn n u = .next t ∧ t.WaitDone := by
  induction n with
  | zero =>
    intro s hs hb hidle
    obtain ⟨u, hu, ⟨_, hdone⟩ | ⟨hphase, _⟩⟩ := poll_outcome_unbounded hs hb
    · exact ⟨u, u, hu, rfl, hdone⟩
    · exact absurd hidle hphase
  | succ n ih =>
    intro s hs hb hidle
    obtain ⟨u, hu, ⟨_, hdone⟩ | ⟨_, hbusy, hpolls, hagree⟩⟩ := poll_outcome_unbounded hs hb
    · have ⟨hended, _⟩ := hdone
      exact ⟨u, u, hu, pollOn_of_not_busy hended _, hdone⟩
    · have hlater : (u.passTimes (n + 1)).dev.phase = .idle := by
        rw [(hagree.passTimes (n + 1)).dev]; exact hidle
      have hbu : u.Unbounded := by rw [State.Unbounded, hagree.build]; exact hb
      obtain ⟨v, t, hv, ht, hdone⟩ := ih hpolls hbu hlater
      have hstep : step u = .next v := by rw [step, if_pos hbusy]; exact hv
      exact ⟨u, t, hu, by rw [pollOn, if_pos hbusy, hstep]; exact ht, hdone⟩

/-- A WAIT on a stored write ends within the slots in which the window elapses and the write ends (rule R191). -/
theorem waitFor_done {n i j : Nat} {s : State} (hd : s.DirectionTrue) (hr : s.NeverReset) (ho : s.Observes)
    (hb : s.Unbounded) (hij : i ≤ j) (hjn : j ≤ n) (helapse : (s.slotAt i).windowElapse = true)
    (hdone : (s.slotAt j).programDone = true) : ∃ t, waitFor n s = .next t ∧ t.WaitDone := by
  have hagree := agreesOutside_waitStart (s.passTimes (setdCost s .deviceDrives))
  have hidle : ((s.passTimes (setdCost s .deviceDrives)).waitStart.passTimes (n + 1)).dev.phase = .idle := by
    rw [(hagree.passTimes (n + 1)).dev, ← passTimes_add]
    exact passTimes_dev_becomes_idle hij (by omega) helapse hdone
  obtain ⟨u, t, hu, ht, hwait⟩ := polls_until_idle n (waitStart_polls hd hr ho _)
    (by rw [State.Unbounded, hagree.build, passTimes_build]; exact hb) hidle
  exact ⟨t, by rw [waitFor, exec_wait_eq hr, hu]; exact ht, hwait⟩

/-- Settles O21: the two halves of what WAIT observes. -/
theorem waitObservesTheEndOfAStoredWrite : Obligations.WaitObservesTheEndOfAStoredWrite := by
  unfold Obligations.WaitObservesTheEndOfAStoredWrite
  refine ⟨?_, ?_⟩
  · intro n s t hd hr hpending hobserved h hbusy hrsp
    exact waitFor_ok_idle hd hr ⟨hobserved, .inl hpending⟩ h hbusy hrsp
  · intro n i j s hd hr hpending hobserved hlimit hdeadline hij hjn helapse hdone
    exact waitFor_done hd hr ⟨hobserved, .inl hpending⟩ ⟨hlimit, hdeadline⟩ hij hjn helapse hdone

/-- Settles O55: weak fairness gives the slots in which the write ends. -/
theorem liveDeviceEndsTheWait : Obligations.LiveDeviceEndsTheWait := by
  unfold Obligations.LiveDeviceEndsTheWait
  intro s hd hr hpending hobserved hlimit hdeadline
  have ⟨hkind, _⟩ := hobserved
  have hfair := weaklyFair_of_reference hkind
  obtain ⟨⟨i, _, helapse⟩, _⟩ := hfair 0
  obtain ⟨_, ⟨j, hij, hdone⟩⟩ := hfair i
  exact ⟨j, waitFor_done hd hr ⟨hobserved, .inl hpending⟩ ⟨hlimit, hdeadline⟩ hij le_rfl helapse hdone⟩

end Sys2Proof.Machine
end

section
/-! SUPPORT. The family of 20_memory.md, fourth part: the SDP sequences as pulses on the device (rules R74, R85, R207), a write after a
sequence (scenario S7, property S5). -/

namespace Sys2Proof.Machine

/-! ## Several pulses, one after another -/

/-- The device after the pulses of some writes, no step of its own between them. -/
def Device.pulses (d : Device) (ws : List (Addr × Byte)) : Device := ws.foldl (fun d w => d.writePulse w.1 w.2) d

theorem pulses_cons (d : Device) (w : Addr × Byte) (ws : List (Addr × Byte)) :
    d.pulses (w :: ws) = (d.writePulse w.1 w.2).pulses ws := rfl

/-- What the pulses of some writes make of the counter and the latch (rule R74). -/
def recognisedAll (c : Fin 6 × Bool) (ws : List (Addr × Byte)) : Fin 6 × Bool :=
  ws.foldl (fun c w => recognisedBy recogniserTable c.1 c.2 w.1 w.2) c

/-- The writes whose pulses store their byte, from a counter and a latch: those that find the latch off (rule R73). -/
def storedAmong (c : Fin 6 × Bool) : List (Addr × Byte) → List (Addr × Byte)
  | [] => []
  | w :: ws => (if c.2 then [] else [w]) ++ storedAmong (recognisedBy recogniserTable c.1 c.2 w.1 w.2) ws

/-- The bytes after some writes. -/
def Memory.writeAll (m : Memory) (ws : List (Addr × Byte)) : Memory := ws.foldl (fun m w => m.write w.1.toNat w.2) m

/-- Everything several pulses do to a device that is not Programming. -/
theorem pulses_fields (ws : List (Addr × Byte)) : ∀ {d : Device}, d.phase ≠ .programming →
    ((d.pulses ws).cmd, (d.pulses ws).sdp) = recognisedAll (d.cmd, d.sdp) ws ∧
    (d.pulses ws).mem = d.mem.writeAll (storedAmong (d.cmd, d.sdp) ws) ∧
    (d.pulses ws).pending = (d.pending || !(storedAmong (d.cmd, d.sdp) ws).isEmpty) ∧
    (d.pulses ws).phase = (if ws.isEmpty then d.phase else .loading) := by
  induction ws with
  | nil => intro d _; exact ⟨rfl, rfl, (Bool.or_false _).symm, rfl⟩
  | cons w ws ih =>
    intro d hphase
    obtain ⟨hloading, hmem, hpending, _⟩ := writePulse_fields hphase w.1 w.2
    obtain ⟨hlatch, hbytes, hpend, hph⟩ := ih (d := d.writePulse w.1 w.2) (by rw [hloading]; exact Phase.noConfusion)
    rw [writePulse_recognised hphase] at hlatch hbytes hpend
    refine ⟨hlatch, hbytes.trans ?_, hpend.trans ?_, hph.trans ?_⟩
    · rw [hmem, storedAmong]; cases d.sdp <;> rfl
    · rw [hpending, storedAmong]; cases d.sdp <;> simp
    · rw [hloading]; cases ws <;> rfl

theorem read_write {m : Memory} (hw : Memory.wf m = true) (a x : Nat) (v : Byte) :
    Memory.read (m.write a v) x = if x = a then v else Memory.read m x := by
  split
  · next h => rw [h]; exact read_write_same hw a v
  · next h => exact read_write_other m v h

/-- The last write to a cell is the one that is read. -/
theorem read_writeAll (ws : List (Addr × Byte)) (x : Nat) : ∀ {m : Memory}, Memory.wf m = true →
    Memory.read (m.writeAll ws) x = ws.foldl (fun v w => if x = w.1.toNat then w.2 else v) (Memory.read m x) := by
  induction ws with
  | nil => intro m _; rfl
  | cons w ws ih =>
    intro m hw
    have h := ih (m := m.write w.1.toNat w.2) (wf_write hw w.2 (addr_inside w.1))
    rwa [read_write hw] at h

/-- With the latch on, no pulse stores its byte. -/
theorem writePulse_mem_of_latched {d : Device} (h : d.sdp = true) (a : Addr) (v : Byte) : (d.writePulse a v).mem = d.mem := by
  by_cases hp : d.phase = .programming
  · rw [writePulse_programming hp]
  · obtain ⟨_, hmem, _⟩ := writePulse_fields hp a v
    rw [hmem, h, if_pos rfl]

/-! ## The pulses of a sequence of writes -/

theorem afterWrb_dev (s : State) (a : Addr) (d : Byte) :
    (s.afterWrb a d).dev = (s.passTimes (wrbCost s a)).dev.writePulse a d := by
  obtain ⟨_, _, _, _, _, _, _, _, _, hdev⟩ := afterWrb_fields s a d
  exact hdev

/-- The slots after WRB are those after the slots it takes. -/
theorem afterWrb_slotAt (s : State) (a : Addr) (d : Byte) (k : Nat) :
    (s.afterWrb a d).slotAt k = s.slotAt (wrbCost s a + k) := by
  have hagree := ((agreesOutside_afterSeta (s.passTimes (wrbCost s a)) a).trans (agreesOutside_afterSetd _ .hostDrives)).trans
    (agreesOutside_afterDwr _ d)
  rw [← slotAt_passTimes]
  exact slotAt_congr (t := s.afterWrb a d) hagree.env hagree.tick (by rw [afterWrb_dev, writePulse_kind]) k

/-- Within the window a loading device sees the pulses alone. -/
theorem afterWrites_dev_loading (ws : List (Addr × Byte)) : ∀ {s : State} (done : Fin 7), s.dev.phase = .loading →
    s.NoElapseFor (writesCost s ws) → (s.afterWrites done ws).dev = s.dev.pulses ws := by
  induction ws with
  | nil => intro s _ _ _; rfl
  | cons w ws ih =>
    intro s done hloading hwindow
    have hdev := afterWrb_dev s w.1 w.2
    have hslot := afterWrb_slotAt s w.1 w.2
    rw [writesCost] at hwindow
    rw [passTimes_dev_loading hloading (fun k hk => hwindow k (by omega))] at hdev
    rw [State.afterWrites]
    generalize s.afterWrb w.1 w.2 = x at *
    have hx : x.dev.phase = .loading := by
      rw [hdev]; exact (writePulse_fields (by rw [hloading]; exact Phase.noConfusion) _ _).1
    refine (ih (s := { x with sq := done + 1 }) (done + 1) hx ?_).trans (by rw [hdev]; rfl)
    rw [writesCost_sq]
    exact fun k hk => (congrArg EnvSlot.windowElapse (hslot k)).trans (hwindow _ (by omega))

/-- Under `SeqInWindow` the device sees the pulses of a sequence alone, from what its first pulse finds (rule R85). -/
theorem afterWrites_dev {s : State} {w : Addr × Byte} {ws : List (Addr × Byte)} (done : Fin 7)
    (hphase : (s.deviceAtFirstPulse (w :: ws)).phase ≠ .programming) (hwindow : s.SeqInWindow (w :: ws)) :
    (s.afterWrites done (w :: ws)).dev = (s.deviceAtFirstPulse (w :: ws)).pulses (w :: ws) := by
  have hdev : (s.afterWrb w.1 w.2).dev = (s.deviceAtFirstPulse (w :: ws)).writePulse w.1 w.2 := afterWrb_dev s w.1 w.2
  have hloading : (s.afterWrb w.1 w.2).dev.phase = .loading := by rw [hdev]; exact (writePulse_fields hphase _ _).1
  have hquiet : (s.afterWrb w.1 w.2).NoElapseFor (writesCost (s.afterWrb w.1 w.2) ws) := by
    intro k hk
    rw [afterWrb_slotAt]
    exact hwindow _ (Nat.add_lt_add_left hk _) (Nat.le_add_right _ _)
  rw [State.afterWrites, pulses_cons, ← hdev]
  generalize s.afterWrb w.1 w.2 = x at *
  refine afterWrites_dev_loading ws (s := { x with sq := done + 1 }) (done + 1) hloading ?_
  rwa [writesCost_sq]

/-! ## The slots of a sequence -/

/-- The slots of WRB after a WRB: no turn of the bus, and one byte of the address where the high one repeats (rules R205, R285). -/
def nextWrbCost (a b : Addr) : Nat := if highByte a = highByte b then 29 else 55

theorem wrbCost_afterWrb (s : State) (a b : Addr) (d : Byte) : wrbCost (s.afterWrb a d) b = nextWrbCost a b := by
  obtain ⟨_, _, _, _, hhigh, hvalid⟩ := afterWrb_chain s a d
  obtain ⟨_, _, hdir, _⟩ := afterWrb_fields s a d
  simp only [wrbCost, setaCost, setdCost, skipsHigh, hhigh, hvalid, hdir, nextWrbCost, Bool.true_and, beq_iff_eq, if_true]
  split <;> rfl

/-- The slots of the writes after a WRB. -/
def nextWritesCost (a : Addr) : List (Addr × Byte) → Nat
  | [] => 0
  | w :: ws => nextWrbCost a w.1 + nextWritesCost w.1 ws

theorem writesCost_afterWrb (ws : List (Addr × Byte)) : ∀ (s : State) (a : Addr) (d : Byte),
    writesCost (s.afterWrb a d) ws = nextWritesCost a ws := by
  induction ws with
  | nil => intro s a d; rfl
  | cons w ws ih => intro s a d; rw [writesCost, nextWritesCost, wrbCost_afterWrb, ih]

theorem writesCost_cons_le (s : State) (w : Addr × Byte) (ws : List (Addr × Byte)) :
    writesCost s (w :: ws) ≤ 57 + nextWritesCost w.1 ws := by
  rw [writesCost, writesCost_afterWrb]
  exact Nat.add_le_add_right (wrbCost_le s w.1) _

theorem lookCost_le (s : State) : lookCost s ≤ 1 := by unfold lookCost; split <;> omega

/-! ## A sequence where no reset comes -/

/-- The look that ends a sequence, where no reset comes: one slot in a build that looks, and a response (rule R208). -/
theorem afterSequence_eq (s : State) (info : Byte) :
    ∃ st d, s.afterSequence info = (s.passTimes (lookCost s)).respond st d := by
  unfold State.afterSequence lookCost
  cases s.build.deadlineEn with
  | false => exact ⟨_, _, rfl⟩
  | true =>
    simp only [if_true]
    split
    · exact ⟨_, _, rfl⟩
    · exact ⟨_, _, rfl⟩

theorem perform_sequenceDeadline {s : State} (hr : s.NoResetFor (lookCost s)) (info : Byte) :
    perform (endsPlain (sequenceDeadline info)) s = .next (s.afterSequence info) := by
  rcases lookDeadline_cases s with ⟨_, hlook⟩ | ⟨hcost, hrst, _⟩
  · rw [endsPlain, sequenceDeadline, andThen_assoc, perform_andThen_ok hlook]
    unfold State.afterSequence lookCost
    cases s.build.deadlineEn with
    | false => rfl
    | true =>
      simp only [if_true, Bool.true_and]
      rw [show s.passTimes 1 = s.passTime from rfl]
      cases s.passTime.deadlineExpired <;> rfl
  · exact absurd ((hr 0 (by omega)).symm.trans hrst) Bool.false_ne_true

theorem lookCost_afterWrites (s : State) (ws : List (Addr × Byte)) :
    lookCost (State.afterWrites { s with sq := 0 } 0 ws) = lookCost s := by
  simp only [lookCost, afterWrites_build]

/-- Where no reset comes, a sequence is its writes and the look (rules R200, R201, R208). -/
theorem perform_sequence {s : State} (hs : s.AtBoundary) (ws : List (Addr × Byte)) (info : Byte)
    (hr : s.NoResetFor (writesCost s ws + lookCost s)) :
    perform (endsPlain (inOrder [setSq 0, issueWrites 0 ws, sequenceDeadline info])) s =
      .next ((State.afterWrites { s with sq := 0 } 0 ws).afterSequence info) := by
  obtain ⟨hruns, _⟩ := sequence_runs hs ws
  have hslot := hruns.slotAt_rst
  rw [writesEvents_length] at hslot
  have hok := hruns.ends (by rw [writesEvents_length]; exact noResetFor_mono hr (by omega))
  rw [endsPlain_sequence, perform_andThen_ok hok]
  refine perform_sequenceDeadline (fun k hk => ?_) info
  rw [lookCost_afterWrites] at hk
  rw [hslot]
  exact hr _ (by omega)

/-- Where no reset comes, a sequence ends at a boundary, with the device as its own steps in the slot of the look leave what the writes
made of it. -/
theorem exec_sequence {s : State} (hs : s.AtBoundary) {ws : List (Addr × Byte)} {i : Instr} {info : Byte}
    (hi : operation i = endsPlain (inOrder [setSq 0, issueWrites 0 ws, sequenceDeadline info]))
    (hr : s.NoResetFor (writesCost s ws + lookCost s)) :
    ∃ t, exec i s = .next t ∧ t.AtBoundary ∧
      t.dev = ((State.afterWrites { s with sq := 0 } 0 ws).passTimes (lookCost s)).dev := by
  obtain ⟨st, d, hlook⟩ := afterSequence_eq (State.afterWrites { s with sq := 0 } 0 ws) info
  have hexec := perform_sequence hs ws info hr
  rw [← hi, ← exec_eq_perform, hlook, lookCost_afterWrites] at hexec
  exact ⟨_, hexec, passTimes_boundary (sequence_runs hs ws).2 _, rfl⟩

/-- The count of the writes done is no part of what the first pulse finds. -/
theorem deviceAtFirstPulse_sq (s : State) (n : Fin 7) (ws : List (Addr × Byte)) :
    State.deviceAtFirstPulse { s with sq := n } ws = s.deviceAtFirstPulse ws := by
  have hagree : AgreesOutside s { s with sq := n } := ⟨rfl, rfl, rfl, rfl, rfl, rfl, [], by simp⟩
  cases ws with
  | nil => rfl
  | cons w ws => exact (hagree.passTimes (wrbCost s w.1)).dev

/-! ## The two sequences on the reference device's latch -/

/-- A sequence of writes that, from the counter at 0, moves the latch at its last pulse and not before (rule R74). -/
structure MovesLatch (ws : List (Addr × Byte)) (latch : Bool) : Prop where
  nonempty : ws.isEmpty = false
  moves : ∀ sdp, recognisedAll (0, sdp) ws = (0, latch)
  whenOn : storedAmong (0, true) ws = []
  whenOff : storedAmong (0, false) ws = ws

theorem disable_movesLatch : MovesLatch sdpDisableWrites false := ⟨rfl, by decide, by decide, by decide⟩

theorem enable_movesLatch : MovesLatch sdpEnableWrites true := ⟨rfl, by decide, by decide, by decide⟩

/-- The pulses of such a sequence: all are stored or none is (rules R73, R207). -/
theorem MovesLatch.pulses {ws : List (Addr × Byte)} {latch : Bool} (h : MovesLatch ws latch) {d : Device}
    (hphase : d.phase ≠ .programming) (hcmd : d.cmd = 0) :
    (d.pulses ws).sdp = latch ∧ (d.pulses ws).mem = (if d.sdp then d.mem else d.mem.writeAll ws) ∧
    (d.pulses ws).pending = (d.pending || !d.sdp) ∧ (d.pulses ws).phase = .loading := by
  obtain ⟨hlatch, hmem, hpending, hloading⟩ := pulses_fields ws hphase
  rw [hcmd] at hlatch hmem hpending
  rw [h.nonempty] at hloading
  rw [h.moves] at hlatch
  refine ⟨congrArg Prod.snd hlatch, hmem.trans ?_, hpending.trans ?_, hloading⟩
  · cases d.sdp
    · rw [h.whenOff]; rfl
    · rw [h.whenOn]; rfl
  · cases d.sdp
    · rw [h.whenOff, h.nonempty]
    · rw [h.whenOn]; rfl

/-- Such a sequence, run in its window where no reset comes (rule R207). -/
theorem exec_sequence_inWindow {s : State} (hs : s.AtBoundary) {ws : List (Addr × Byte)} {latch : Bool} {i : Instr} {info : Byte}
    (hmoves : MovesLatch ws latch) (hi : operation i = endsPlain (inOrder [setSq 0, issueWrites 0 ws, sequenceDeadline info]))
    (hr : s.NoResetFor (writesCost s ws + lookCost s)) (hwindow : s.SeqInWindow ws)
    (hphase : (s.deviceAtFirstPulse ws).phase ≠ .programming) (hcmd : (s.deviceAtFirstPulse ws).cmd = 0) :
    ∃ t x : State, exec i s = .next t ∧ t.AtBoundary ∧ t.dev = (x.passTimes (lookCost s)).dev ∧
      x.dev.sdp = latch ∧ x.dev.mem = (if s.dev.sdp then s.dev.mem else s.dev.mem.writeAll ws) ∧
      x.dev.pending = ((s.deviceAtFirstPulse ws).pending || !s.dev.sdp) ∧ x.dev.phase = .loading := by
  obtain ⟨t, hexec, hboundary, hdev⟩ := exec_sequence hs hi hr
  have hx : (State.afterWrites { s with sq := 0 } 0 ws).dev = (s.deviceAtFirstPulse ws).pulses ws := by
    cases ws with
    | nil => exact absurd hmoves.nonempty (by decide)
    | cons w ws =>
      rw [← deviceAtFirstPulse_sq s 0] at hphase ⊢
      refine afterWrites_dev 0 hphase (fun k hk => ?_)
      rw [writesCost_sq] at hk
      exact hwindow k hk
  have hsdp : (s.deviceAtFirstPulse ws).sdp = s.dev.sdp := passTimes_sdp s _
  have hmem : (s.deviceAtFirstPulse ws).mem = s.dev.mem := passTimes_mem s _
  obtain ⟨hlatch, hbytes, hpending, hloading⟩ := hmoves.pulses hphase hcmd
  rw [← hx] at hlatch hbytes hpending hloading
  rw [hsdp, hmem] at hbytes
  rw [hsdp] at hpending
  exact ⟨t, _, hexec, hboundary, hdev, hlatch, hbytes, hpending, hloading⟩

theorem sdpd_cost_le (s : State) : writesCost s sdpDisableWrites + lookCost s ≤ 307 := by
  have hwrites := writesCost_cons_le s (0x5555#15, 0xAA#8) sdpDisableWrites.tail
  have hnext : nextWritesCost 0x5555#15 sdpDisableWrites.tail = 249 := by decide
  rw [hnext] at hwrites
  exact Nat.add_le_add hwrites (lookCost_le s)

theorem sdpe_cost_le (s : State) : writesCost s sdpEnableWrites + lookCost s ≤ 168 := by
  have hwrites := writesCost_cons_le s (0x5555#15, 0xAA#8) sdpEnableWrites.tail
  have hnext : nextWritesCost 0x5555#15 sdpEnableWrites.tail = 110 := by decide
  rw [hnext] at hwrites
  exact Nat.add_le_add hwrites (lookCost_le s)

/-- What rule R207 says of a sequence that moves the latch, in the form of the statement. -/
theorem sequence_effect {s : State} (hs : s.Ready) {ws : List (Addr × Byte)} {latch : Bool} {i : Instr} {info : Byte}
    (hmoves : MovesLatch ws latch) (hi : operation i = endsPlain (inOrder [setSq 0, issueWrites 0 ws, sequenceDeadline info]))
    (hr : s.NoResetFor (writesCost s ws + lookCost s)) (hwindow : s.SeqInWindow ws)
    (hphase : (s.deviceAtFirstPulse ws).phase ≠ .programming) (hcmd : (s.deviceAtFirstPulse ws).cmd = 0) :
    ∃ t, exec i s = .next t ∧ t.dev.sdp = latch ∧
      (∀ x, Memory.read t.dev.mem x = if s.dev.sdp then Memory.read s.dev.mem x
        else ws.foldl (fun v w => if x = w.1.toNat then w.2 else v) (Memory.read s.dev.mem x)) ∧
      (s.build.deadlineEn = false →
        t.dev.phase = .loading ∧ t.dev.pending = ((s.deviceAtFirstPulse ws).pending || !s.dev.sdp)) := by
  obtain ⟨t, x, hexec, _, hdev, hlatch, hbytes, hpending, hloading⟩ :=
    exec_sequence_inWindow hs.atBoundary hmoves hi hr hwindow hphase hcmd
  obtain ⟨_, _, _, _, hwf, _⟩ := hs
  refine ⟨t, hexec, by rw [hdev, passTimes_sdp, hlatch], fun y => ?_, fun hdeadline => ?_⟩
  · rw [hdev, passTimes_mem, hbytes]
    cases s.dev.sdp
    · exact read_writeAll ws y hwf
    · rfl
  · have hcost : lookCost s = 0 := by simp [lookCost, hdeadline]
    rw [hdev, hcost]
    exact ⟨hloading, hpending⟩

/-- The cells after the writes of SDPD (rule R207). -/
theorem lastWritten_sdpDisable (x : Nat) (v : Byte) :
    sdpDisableWrites.foldl (fun v w => if x = w.1.toNat then w.2 else v) v =
      if x = 0x5555 then 0x20#8 else if x = 0x2AAA then 0x55#8 else v := by
  by_cases h5 : x = 0x5555
  · subst h5; rfl
  · by_cases h2 : x = 0x2AAA
    · subst h2; rfl
    · simp [sdpDisableWrites, h5, h2]

/-- The cells after the writes of SDPE (rule R207). -/
theorem lastWritten_sdpEnable (x : Nat) (v : Byte) :
    sdpEnableWrites.foldl (fun v w => if x = w.1.toNat then w.2 else v) v =
      if x = 0x5555 then 0xA0#8 else if x = 0x2AAA then 0x55#8 else v := by
  by_cases h5 : x = 0x5555
  · subst h5; rfl
  · by_cases h2 : x = 0x2AAA
    · subst h2; rfl
    · simp [sdpEnableWrites, h5, h2]

/-- Settles O25: both sequences move the latch at their last pulse and, in the window, the device sees their pulses alone. -/
theorem sdpSequencesMoveTheLatch : Obligations.SdpSequencesMoveTheLatch := by
  unfold Obligations.SdpSequencesMoveTheLatch
  intro s d hs hr hdisable henable hphase hcmd
  refine ⟨fun hwindow => ?_, fun hwindow => ?_⟩
  · rw [hdisable] at hphase hcmd ⊢
    obtain ⟨t, hexec, hlatch, hcells, hdev⟩ := sequence_effect (i := .sdpd) (info := 0x06#8) hs disable_movesLatch rfl
      (noResetFor_mono hr (sdpd_cost_le s)) hwindow hphase hcmd
    exact ⟨t, hexec, hlatch, fun x => by rw [hcells, lastWritten_sdpDisable], hdev⟩
  · rw [henable] at hphase hcmd ⊢
    obtain ⟨t, hexec, hlatch, hcells, hdev⟩ := sequence_effect (i := .sdpe) (info := 0x03#8) hs enable_movesLatch rfl
      (noResetFor_mono hr ((sdpe_cost_le s).trans (by decide))) hwindow hphase hcmd
    exact ⟨t, hexec, hlatch, fun x => by rw [hcells, lastWritten_sdpEnable], hdev⟩

/-! ## A write after a sequence -/

theorem exec_wrb_eq {s : State} (hs : s.AtBoundary) (hr : s.NeverReset) (a : Addr) (d : Byte) :
    exec (.wrb a d) s = .next ((s.afterWrb a d).respond .ok 0x00#8) := by
  obtain ⟨hlines, hdir, hcache⟩ := hs
  rw [exec_eq_perform]
  exact perform_endsPlain_ok ((wrb_runs hlines hdir (fun hv => (hcache hv).1) a d).ends (noResetFor_of_neverReset hr _))

/-- With no byte pending the device does not come to be Programming (rule R84). -/
theorem passTimes_nothing_pending {s : State} (hpending : s.dev.pending = false) (hphase : s.dev.phase ≠ .programming) (n : Nat) :
    (s.passTimes n).dev.pending = false ∧ (s.passTimes n).dev.phase ≠ .programming := by
  induction n with
  | zero => exact ⟨hpending, hphase⟩
  | succ n ih =>
    obtain ⟨hpend, hph⟩ := ih
    rw [passTimes_succ_dev]
    rcases environment_cases (s.passTimes n).dev (s.slotAt n) with he | ⟨_, _, he⟩ | ⟨hprog, _⟩ | ⟨_, hpend', _⟩
    · rw [he]; exact ⟨hpend, hph⟩
    · rw [he]; simp [Device.windowElapse, hpend]
    · exact absurd hprog hph
    · exact absurd (hpend.symm.trans hpend') Bool.false_ne_true

/-- Settles O49: after SDPD the latch is off and nothing is pending, so the pulse of the WRB finds the device not Programming. -/
theorem unlockThenWriteStoresTheByte : Obligations.UnlockThenWriteStoresTheByte := by
  unfold Obligations.UnlockThenWriteStoresTheByte
  intro s a d hs hr hwindow hidle hon
  have hb := hs.atBoundary
  have ⟨_, _, _, hsound⟩ := hs
  have ⟨⟨hatRest, _⟩, _⟩ := hsound
  obtain ⟨hpending, hcmd⟩ := hatRest hidle
  have hfirst : s.deviceAtFirstPulse sdpDisableWrites = s.dev := passTimes_dev_idle hidle _
  obtain ⟨t, x, hexec, hboundary, hdev, hlatch, _, hpend, hloading⟩ := exec_sequence_inWindow (i := .sdpd) (info := 0x06#8) hb
    disable_movesLatch rfl (noResetFor_of_neverReset hr _) hwindow (by rw [hfirst, hidle]; exact Phase.noConfusion)
    (by rw [hfirst, hcmd])
  rw [hfirst, hpending, hon] at hpend
  have hrt : t.NeverReset := exec_keeps neverReset_keptByStep hr hexec
  obtain ⟨hquiet, hafterLook⟩ := passTimes_nothing_pending hpend (by rw [hloading]; exact Phase.noConfusion) (lookCost s)
  rw [← hdev] at hquiet hafterLook
  obtain ⟨_, hphase⟩ := passTimes_nothing_pending hquiet hafterLook (wrbCost t a)
  have hoff : (t.passTimes (wrbCost t a)).dev.sdp = false := by rw [passTimes_sdp, hdev, passTimes_sdp, hlatch]
  obtain ⟨_, hwf, _⟩ : t.DeviceSound := exec_keeps deviceSound_keptByStep hsound hexec
  rw [← passTimes_mem t (wrbCost t a)] at hwf
  obtain ⟨_, hmem, _⟩ := writePulse_fields hphase a d
  refine ⟨t, _, hexec, exec_wrb_eq hboundary hrt a d, ?_⟩
  rw [respond_dev, afterWrb_dev, hmem, hoff, if_neg Bool.false_ne_true]
  exact read_write_same hwf a.toNat d

/-- Settles O50: after SDPE the latch is on, so the pulse of the WRB stores nothing. -/
theorem lockThenWriteLeavesEveryByte : Obligations.LockThenWriteLeavesEveryByte := by
  unfold Obligations.LockThenWriteLeavesEveryByte
  intro s a d hs hr hwindow hphase hcmd
  obtain ⟨t, x, hexec, hboundary, hdev, hlatch, _⟩ := exec_sequence_inWindow (i := .sdpe) (info := 0x03#8) hs.atBoundary
    enable_movesLatch rfl (noResetFor_of_neverReset hr _) hwindow hphase hcmd
  have hrt : t.NeverReset := exec_keeps neverReset_keptByStep hr hexec
  have hon : (t.passTimes (wrbCost t a)).dev.sdp = true := by rw [passTimes_sdp, hdev, passTimes_sdp, hlatch]
  refine ⟨t, _, hexec, exec_wrb_eq hboundary hrt a d, fun y => ?_⟩
  rw [respond_dev, afterWrb_dev, writePulse_mem_of_latched hon, passTimes_mem]

end Sys2Proof.Machine
end

section
/-! SUPPORT. The family of 20_memory.md, fifth part: a read of the idle reference device, and with it the round trip (rule R88) and the
bytes of a dump (rules R219, R220). -/

namespace Sys2Proof.Machine

/-! ## A read of the idle device -/

/-- RDB where no reset comes, of an idle reference device: it answers the stored byte and leaves the device as it was (rules R76, R185). -/
theorem exec_rdb_idle {s : State} (hs : s.AtBoundary) (hr : s.NeverReset) (hkind : s.dev.kind = .reference)
    (hidle : s.dev.phase = .idle) (a : Addr) :
    ∃ u : State, exec (.rdb a) s = .next (u.respond .ok (Memory.read s.dev.mem a.toNat)) ∧ u.dev = s.dev := by
  have ⟨hidleLines, _⟩ := hs
  obtain ⟨hok, hagree⟩ := addressing_ok hidleLines a .deviceDrives (noResetFor_of_neverReset hr _)
  have hstart := passTimes_boundary hs (setaCost s a + setdCost s .deviceDrives)
  have ⟨_, _, hcache⟩ := hstart
  obtain ⟨_, hdirection, _⟩ := afterSetd_boundary (afterSeta_boundary hstart a) .deviceDrives
  obtain ⟨hlines, _⟩ := afterSetd_carries (afterSeta_carries hcache a) .deviceDrives
  have hdir := afterSetd_dir ((s.passTimes (setaCost s a + setdCost s .deviceDrives)).afterSeta a) .deviceDrives
  have hdev : ((s.passTimes (setaCost s a + setdCost s .deviceDrives)).afterAddressing a .deviceDrives).dev = s.dev := by
    rw [hagree.dev, passTimes_dev_idle hidle]
  rw [exec_eq_perform, operation, endsWith_rdb, perform_andThen_ok hok]
  have hslot := hagree.slotAt
  unfold State.afterAddressing at *
  generalize ((s.passTimes (setaCost s a + setdCost s .deviceDrives)).afterSeta a).afterSetd .deviceDrives = x at *
  have hlater : x.passTime.dev = s.dev := by rw [passTime_dev, hdev, environment_idle hidle]
  have hsample := drd_ok hdirection hdir (fun k _ => by rw [hslot, slotAt_passTimes]; exact neverReset_slotAt hr _)
  rw [hlater, hlines, (busyReadsInvertTheTopBit s.dev a x.draws hkind).2 (.inr hidle)] at hsample
  exact ⟨_, perform_finished (andThen_ok hsample), hlater⟩

/-- The state after a WRB that an idle, unprotected reference device stored: the lines point at its cell (rules R73, R191). -/
theorem afterWrb_observes {s : State} (hs : s.AtBoundary) (hwf : Memory.wf s.dev.mem = true) (hkind : s.dev.kind = .reference)
    (hidle : s.dev.phase = .idle) (hoff : s.dev.sdp = false) (a : Addr) (d : Byte) :
    (s.afterWrb a d).Observes ∧ Memory.read (s.afterWrb a d).dev.mem a.toNat = d := by
  have hdev : (s.afterWrb a d).dev = s.dev.writePulse a d := by rw [afterWrb_dev, passTimes_dev_idle hidle]
  obtain ⟨_, hstores, _⟩ := pulseStoresWhenTheLatchIsOff s.dev a d hwf (by rw [hidle]; exact Phase.noConfusion)
  obtain ⟨hcell, _, hpending, hlast⟩ := hstores hoff
  obtain ⟨haddress, _⟩ := afterWrb_carries hs a d
  obtain ⟨_, hbit, _⟩ := afterWrb_fields s a d
  refine ⟨⟨⟨?_, ?_, ?_⟩, .inl ?_⟩, by rw [hdev]; exact hcell⟩
  · rw [hdev, writePulse_kind, hkind]
  · rw [hdev, hlast, hbit]
  · rw [hdev, haddress, hcell, hbit]
  · rw [hdev, hpending]

/-- Settles O48: WRB stores its byte, a WAIT that ends with OK leaves the device Idle with that byte, and RDB reads it. -/
theorem writeWaitReadRoundTrip : Obligations.WriteWaitReadRoundTrip := by
  unfold Obligations.WriteWaitReadRoundTrip
  intro s a d hs hr hkind hidle hoff
  have hb := hs.atBoundary
  obtain ⟨_, _, _, _, hwf, _⟩ := hs
  have ⟨hlines, hdirection, hcache⟩ := hb
  have hexec := exec_wrb_eq hb hr a d
  have hr1 := exec_keeps neverReset_keptByStep hr hexec
  obtain ⟨hobserves, hcell⟩ := afterWrb_observes hb hwf hkind hidle hoff a d
  have hb1 : (s.afterWrb a d).AtBoundary := afterWrb_ready hlines hdirection hcache a d
  refine ⟨_, hexec, fun n s2 hwait hbusy hrsp => ?_⟩
  generalize s.afterWrb a d = x at *
  have ⟨⟨_, _, _, hwe⟩, hdirection1, _⟩ := hb1
  have ⟨⟨hkind1, _⟩, _⟩ := hobserves
  have hidle2 := waitFor_ok_idle (s := x.respond .ok 0x00#8) hdirection1 hr1 (hobserves.congr rfl rfl rfl) hwait hbusy hrsp
  have hb2 := waitFor_boundary (s := x.respond .ok 0x00#8) hb1 hwait
  have hr2 := waitFor_keeps neverReset_keptByStep hr1 hwait
  obtain ⟨_, _, hmem2⟩ := waitFor_keeps (sameMemory_keptByStep x) (s := x.respond .ok 0x00#8) ⟨hwe, rfl, rfl⟩ hwait
  obtain ⟨_, hkind2⟩ :=
    waitFor_keeps (hasConstants_keptByStep x.build .reference) (s := x.respond .ok 0x00#8) ⟨rfl, hkind1⟩ hwait
  obtain ⟨u, hu, _⟩ := exec_rdb_idle hb2 hr2 hkind2 hidle2 a
  exact ⟨_, hu, by rw [respond_rspWord, hmem2, hcell]⟩

/-! ## A dump -/

theorem decode_encode_rdb (a : Addr) : decode (encode (.rdb a)) = .ok (.rdb a) := by
  obtain ⟨hop, hzero, haddr, hdata⟩ := Laws.EncodingShape.rdb a
  simp only [decode, hzero, if_true, decodeOp, hop, Instr.op, haddr, hdata, Instr.addrOperand, Instr.dataOperand]
  rfl

/-- An idle block before an idle reference device with the given bytes, where no reset comes: what each read of a dump finds and leaves. -/
structure State.Readable (m : Memory) (s : State) : Prop where
  boundary : s.AtBoundary
  neverReset : s.NeverReset
  idle : s.busy = false
  device : s.dev.kind = .reference ∧ s.dev.phase = .idle ∧ s.dev.mem = m

/-- One read of a dump. -/
theorem State.Readable.read {m : Memory} {s : State} (h : s.Readable m) (a : Addr) :
    ∃ t : State, step (s.present (encode (.rdb a))) = .next t ∧ t.answer = some (m.read a.toNat) ∧ t.Readable m := by
  obtain ⟨hboundary, hr, hbusy, hkind, hidle, hmem⟩ := h
  obtain ⟨u, hexec, hdev⟩ := exec_rdb_idle (s := { s with busy := true, rspValid := false, deadlineExpired := false })
    hboundary hr hkind hidle a
  have hstep := step_present hbusy (decode_encode_rdb a)
  rw [hexec] at hstep
  have hfollows := (step_follows (s := s.present (encode (.rdb a))) hboundary hstep).1
  have hr' := step_keeps neverReset_keptByStep (s := s.present (encode (.rdb a))) hr hstep
  rw [← hmem]
  exact ⟨_, hstep, answer_respond u _, hfollows.boundary, hr', rfl, by rw [respond_dev, hdev]; exact ⟨hkind, hidle, rfl⟩⟩

/-- The reads of a dump, one at a time. -/
theorem collect_reads {m : Memory} (as : List Addr) : ∀ {s : State}, s.Readable m →
    ∃ t, collect (as.map (fun a => encode (.rdb a))) s = some (as.map (fun a => m.read a.toNat), t) := by
  induction as with
  | nil => intro s _; exact ⟨s, rfl⟩
  | cons a as ih =>
    intro s hs
    obtain ⟨u, hstep, hanswer, hu⟩ := hs.read a
    obtain ⟨t, ht⟩ := ih hu
    exact ⟨t, by rw [List.map_cons, collect_cons hstep hanswer, ht]; rfl⟩

/-- The addresses of a dump. -/
theorem dumpReads_encoded (a n : Nat) : (dumpReads a n).map encode =
    ((List.range n).map (fun i => BitVec.ofNat 15 (a + i))).map (fun x => encode (.rdb x)) := by
  simp [dumpReads]

theorem dumpRows_length (n : Nat) : ∀ (base : Nat) (bytes : List Byte), (dumpRows base bytes n).length = n := by
  induction n with
  | zero => intro base bytes; rfl
  | succ n ih => intro base bytes; rw [dumpRows, List.length_cons, ih]

/-- Row `r` of a dump (rule R220). -/
theorem dumpRows_getElem? (n : Nat) : ∀ (base : Nat) (bytes : List Byte) (r : Nat), r < n →
    (dumpRows base bytes n)[r]? = some (base + 16 * r, (bytes.drop (16 * r)).take 16) := by
  induction n with
  | zero => intro base bytes r hr; exact absurd hr (by omega)
  | succ n ih =>
    intro base bytes r hr
    cases r with
    | zero => rfl
    | succ r =>
      have hnext : 16 * (r + 1) = 16 + 16 * r := by omega
      rw [dumpRows, List.getElem?_cons_succ, ih _ _ r (by omega), List.drop_drop, hnext, ← Nat.add_assoc]
      rfl

/-- Settles O59: the reads of a dump give its cells in order, and the rows cut them by sixteen. -/
theorem dumpShowsTheBytesOfTheDevice : Obligations.DumpShowsTheBytesOfTheDevice := by
  unfold Obligations.DumpShowsTheBytesOfTheDevice
  intro base a s hs hr hbusy hkind hidle
  obtain ⟨hready, _⟩ := hs
  obtain ⟨t, ht⟩ := collect_reads ((List.range Config.dumpLen).map (fun i => BitVec.ofNat 15 (a + i)))
    (s := s) (m := s.dev.mem) ⟨hready.atBoundary, hr, hbusy, hkind, hidle, rfl⟩
  rw [← dumpReads_encoded, List.map_map] at ht
  refine ⟨_, t, by rw [dump, ht]; rfl, dumpRows_length _ _ _, fun r hr' => ⟨_, dumpRows_getElem? _ _ _ r hr', ?_, ?_⟩⟩
  · simp only [List.length_take, List.length_drop, List.length_map, List.length_range, Config.dumpLen]
    omega
  · intro i hi
    have hlt : 16 * r + i < Config.dumpLen := by unfold Config.dumpLen; omega
    rw [List.getElem?_take_of_lt hi, List.getElem?_drop, List.getElem?_map, List.getElem?_range hlt, Option.map_some,
      Function.comp_apply, BitVec.toNat_ofNat, ← Nat.add_assoc]

end Sys2Proof.Machine
end

section
/-! SUPPORT. The family of 30_encoding.md, first part: a command word and its four fields, what the decoder reads, and the opcode map
(rules R103, R106, R107, R115). -/

namespace Sys2Proof

/-! ## A word and its fields -/

/-- The four fields partition the word (rule R103). -/
theorem append_fields (w : CmdWord) : opField w ++ zeroField w ++ addrField w ++ dataField w = w := by
  have hop : opField w ++ zeroField w = w.extractLsb' 23 9 :=
    BitVec.extractLsb'_append_extractLsb'_eq_extractLsb' rfl
  have haddr : w.extractLsb' 23 9 ++ addrField w = w.extractLsb' 8 24 :=
    BitVec.extractLsb'_append_extractLsb'_eq_extractLsb' rfl
  rw [hop, haddr]
  exact BitVec.extractLsb'_append_extractLsb' (w := 24) (len := 8)

theorem word_ext {v w : CmdWord} (hop : opField v = opField w) (hzero : zeroField v = zeroField w)
    (haddr : addrField v = addrField w) (hdata : dataField v = dataField w) : v = w := by
  rw [← append_fields v, hop, hzero, haddr, hdata, append_fields]

theorem encode_fields (i : Instr) : Laws.EncodingShape.Statement i := packWord_fields _ _ _

/-- The encoding of an instruction is the one word with its fields. -/
theorem eq_encode_iff (w : CmdWord) (i : Instr) :
    w = encode i ↔
      zeroField w = 0#5 ∧ opField w = i.op ∧ addrField w = i.addrOperand ∧ dataField w = i.dataOperand := by
  obtain ⟨hop, hzero, haddr, hdata⟩ := encode_fields i
  constructor
  · rintro rfl
    exact ⟨hzero, hop, haddr, hdata⟩
  · rintro ⟨hzero', hop', haddr', hdata'⟩
    exact word_ext (hop'.trans hop.symm) (hzero'.trans hzero.symm) (haddr'.trans haddr.symm) (hdata'.trans hdata.symm)

theorem dataHighField_eq (w : CmdWord) : dataHighField w = (dataField w).extractLsb' 1 7 := by
  apply BitVec.eq_of_getLsbD_eq
  intro i hi
  have hbit : 1 + i < 8 := by omega
  simp only [dataHighField, dataField, BitVec.getLsbD_extractLsb', hi, hbit, decide_true, Bool.true_and, Nat.zero_add]

theorem modeField_eq (w : CmdWord) :
    modeField w = if (dataField w).getLsbD 0 then .deviceDrives else .hostDrives := by
  simp [modeField, dataField]

/-- Where the must-be-zero part of SETD's data field is 0, that field is the operand byte of the mode read from it, and only there. -/
theorem dataHighField_eq_zero_iff (w : CmdWord) : dataHighField w = 0#7 ↔ dataField w = modeByte (modeField w) := by
  have hbyte : ∀ d : Byte, d.extractLsb' 1 7 = 0#7 ↔
      d = modeByte (if d.getLsbD 0 then .deviceDrives else .hostDrives) := by decide
  rw [dataHighField_eq, modeField_eq]
  exact hbyte (dataField w)

theorem modeField_of_modeByte {w : CmdWord} {m : Direction} (h : dataField w = modeByte m) : modeField w = m := by
  rw [modeField_eq, h]
  cases m <;> rfl

/-! ## What the decoder reads -/

theorem whenUnusedZero_eq_ok_iff {b : Bool} {i j : Instr} : whenUnusedZero b i = .ok j ↔ b = true ∧ i = j := by
  cases b <;> simp [whenUnusedZero]

/-- A row accepts exactly the fields that its instruction encodes to. -/
theorem decodeOp_eq_ok_iff (w : CmdWord) (i : Instr) :
    decodeOp w = .ok i ↔ opField w = i.op ∧ addrField w = i.addrOperand ∧ dataField w = i.dataOperand := by
  constructor
  · intro h
    unfold decodeOp at h
    split_ifs at h with h1 h2 h3 h4 h5 h6 h7 h8 h9 <;>
      simp only [whenUnusedZero_eq_ok_iff, Bool.and_eq_true, beq_iff_eq, dataHighField_eq_zero_iff, Except.ok.injEq] at h
    · obtain ⟨hdata, rfl⟩ := h; exact ⟨h1, rfl, hdata⟩
    · obtain ⟨⟨haddr, hdata⟩, rfl⟩ := h; exact ⟨h2, haddr, hdata⟩
    · obtain ⟨haddr, rfl⟩ := h; exact ⟨h3, haddr, rfl⟩
    · obtain ⟨⟨haddr, hdata⟩, rfl⟩ := h; exact ⟨h4, haddr, hdata⟩
    · subst h; exact ⟨h5, rfl, rfl⟩
    · obtain ⟨hdata, rfl⟩ := h; exact ⟨h6, rfl, hdata⟩
    · obtain ⟨⟨haddr, hdata⟩, rfl⟩ := h; exact ⟨h7, haddr, hdata⟩
    · obtain ⟨⟨haddr, hdata⟩, rfl⟩ := h; exact ⟨h8, haddr, hdata⟩
    · obtain ⟨⟨haddr, hdata⟩, rfl⟩ := h; exact ⟨h9, haddr, hdata⟩
  · rintro ⟨hop, haddr, hdata⟩
    cases i with
    | setd m =>
      have hmode := modeField_of_modeByte hdata
      have hhigh : dataHighField w = 0#7 := (dataHighField_eq_zero_iff w).mpr (by rw [hmode]; exact hdata)
      simp [decodeOp, whenUnusedZero, hop, haddr, hmode, hhigh, Instr.op, Instr.addrOperand]
    | _ => simp [decodeOp, whenUnusedZero, hop, haddr, hdata, Instr.op, Instr.addrOperand, Instr.dataOperand]

/-- The decoder inverts the encoder: an instruction is read from its own word and from no other. -/
theorem decode_eq_ok_iff (w : CmdWord) (i : Instr) : decode w = .ok i ↔ w = encode i := by
  rw [eq_encode_iff, ← decodeOp_eq_ok_iff]
  unfold decode
  split_ifs with hzero
  · exact (and_iff_right hzero).symm
  · exact ⟨(nomatch ·), fun ⟨hz, _⟩ => absurd hz hzero⟩

theorem decode_encode (i : Instr) : decode (encode i) = .ok i := (decode_eq_ok_iff _ _).mpr rfl

/-- Settles O1: the word of an instruction is the one word that decodes to it. -/
theorem decodeOfEncodeIsTheInstruction : Obligations.DecodeOfEncodeIsTheInstruction := by
  unfold Obligations.DecodeOfEncodeIsTheInstruction
  exact decode_encode

/-- Settles O2: the word of an instruction is the only word that decodes to it. -/
theorem encodeOfDecodedWordIsTheWord : Obligations.EncodeOfDecodedWordIsTheWord := by
  unfold Obligations.EncodeOfDecodedWordIsTheWord
  intro w i h
  exact ((decode_eq_ok_iff w i).mp h).symm

/-- A word is illegal or has an instruction. -/
theorem decode_error_iff (w : CmdWord) : (∃ e, decode w = .error e) ↔ ∀ i, w ≠ encode i := by
  cases h : decode w with
  | ok i => simpa using ⟨i, (decode_eq_ok_iff w i).mp h⟩
  | error e =>
    have hnot : ∀ i, w ≠ encode i := fun i hi => nomatch h.symm.trans ((decode_eq_ok_iff w i).mpr hi)
    exact ⟨fun _ => hnot, fun _ => ⟨e, rfl⟩⟩

/-- Settles O4: six of the words are encodings, and the three others are rejected by the first test they fail. -/
theorem wordsOfTheSpecDecode : Obligations.WordsOfTheSpecDecode := by
  unfold Obligations.WordsOfTheSpecDecode
  simp only [decode_eq_ok_iff]
  decide

/-! ## The opcode map (rule R107) -/

/-- Every row asks for its own `op`, for a zero field of 0, and for 0 in the operand bits under its mask. -/
theorem opcodeTable_shape : ∀ r ∈ opcodeTable, r.wanted = packWord r.op 0#15 0#8 ∧ opField r.mask = 0xF#4 ∧
    zeroField r.mask = 0x1F#5 := by decide

theorem selectedBy_iff {r : OpcodeRow} (hr : r ∈ opcodeTable) (w : CmdWord) : r.selectedBy w = true ↔
    opField w = r.op ∧ zeroField w = 0#5 ∧ addrField w &&& addrField r.mask = 0#15 ∧
      dataField w &&& dataField r.mask = 0#8 := by
  obtain ⟨hwanted, hop, hzero⟩ := opcodeTable_shape r hr
  obtain ⟨h1, h2, h3, h4⟩ := packWord_fields r.op 0#15 0#8
  have hopAnd : opField (w &&& r.mask) = opField w := by
    rw [opField, BitVec.extractLsb'_and, ← opField, ← opField, hop]; exact BitVec.and_allOnes
  have hzeroAnd : zeroField (w &&& r.mask) = zeroField w := by
    rw [zeroField, BitVec.extractLsb'_and, ← zeroField, ← zeroField, hzero]; exact BitVec.and_allOnes
  have haddrAnd : addrField (w &&& r.mask) = addrField w &&& addrField r.mask := BitVec.extractLsb'_and
  have hdataAnd : dataField (w &&& r.mask) = dataField w &&& dataField r.mask := BitVec.extractLsb'_and
  rw [OpcodeRow.selectedBy, beq_iff_eq, hwanted, ← hopAnd, ← hzeroAnd, ← haddrAnd, ← hdataAnd]
  constructor
  · intro h
    rw [h]
    exact ⟨h1, h2, h3, h4⟩
  · rintro ⟨h1', h2', h3', h4'⟩
    exact word_ext (h1'.trans h1.symm) (h2'.trans h2.symm) (h3'.trans h3.symm) (h4'.trans h4.symm)

/-- The operands that a row's mask lets through are those of the instructions of its operation. -/
theorem exists_instr_of_row {r : OpcodeRow} (hr : r ∈ opcodeTable) {a : Addr} {d : Byte}
    (ha : a &&& addrField r.mask = 0#15) (hd : d &&& dataField r.mask = 0#8) :
    ∃ i : Instr, i.op = r.op ∧ i.addrOperand = a ∧ i.dataOperand = d := by
  have haddr : a &&& 0x7FFF#15 = 0#15 → 0#15 = a := fun h => h.symm.trans BitVec.and_allOnes
  have hdata : d &&& 0xFF#8 = 0#8 → 0#8 = d := fun h => h.symm.trans BitVec.and_allOnes
  have hmode : ∀ d : Byte, d &&& 0xFE#8 = 0#8 → modeByte .hostDrives = d ∨ modeByte .deviceDrives = d := by decide
  simp only [opcodeTable, List.mem_cons, List.not_mem_nil, or_false] at hr
  rcases hr with rfl | rfl | rfl | rfl | rfl | rfl | rfl | rfl | rfl
  · exact ⟨.seta a, rfl, rfl, hdata hd⟩
  · exact (hmode d hd).elim (⟨.setd .hostDrives, rfl, haddr ha, ·⟩) (⟨.setd .deviceDrives, rfl, haddr ha, ·⟩)
  · exact ⟨.dwr d, rfl, haddr ha, rfl⟩
  · exact ⟨.drd, rfl, haddr ha, hdata hd⟩
  · exact ⟨.wrb a d, rfl, rfl, rfl⟩
  · exact ⟨.rdb a, rfl, rfl, hdata hd⟩
  · exact ⟨.wait, rfl, haddr ha, hdata hd⟩
  · exact ⟨.sdpd, rfl, haddr ha, hdata hd⟩
  · exact ⟨.sdpe, rfl, haddr ha, hdata hd⟩

/-- The operands of an instruction pass the mask of its row. -/
theorem exists_row_of_instr (i : Instr) : ∃ r ∈ opcodeTable, i.op = r.op ∧
    i.addrOperand &&& addrField r.mask = 0#15 ∧ i.dataOperand &&& dataField r.mask = 0#8 := by
  cases i with
  | setd m => cases m <;> decide
  | _ => simp [opcodeTable, Instr.op, Instr.addrOperand, Instr.dataOperand, addrField, dataField]

/-- A row is selected by the words of its operation's instructions. -/
theorem exists_encode_of_selectedBy {r : OpcodeRow} (hr : r ∈ opcodeTable) {w : CmdWord} (h : r.selectedBy w = true) :
    ∃ i, w = encode i ∧ i.op = r.op := by
  obtain ⟨hop, hzero, haddr, hdata⟩ := (selectedBy_iff hr w).mp h
  obtain ⟨i, hi, hiaddr, hidata⟩ := exists_instr_of_row hr haddr hdata
  exact ⟨i, (eq_encode_iff w i).mpr ⟨hzero, hop.trans hi.symm, hiaddr.symm, hidata.symm⟩, hi⟩

theorem exists_row_selectedBy_encode (i : Instr) : ∃ r ∈ opcodeTable, r.selectedBy (encode i) = true := by
  obtain ⟨hop, hzero, haddr, hdata⟩ := encode_fields i
  obtain ⟨r, hr, hi, hiaddr, hidata⟩ := exists_row_of_instr i
  exact ⟨r, hr, (selectedBy_iff hr _).mpr ⟨hop.trans hi, hzero, by rwa [haddr], by rwa [hdata]⟩⟩

theorem opcodeTable_op_injective : ∀ r ∈ opcodeTable, ∀ q ∈ opcodeTable, r.op = q.op → r = q := by decide

/-- Settles O3: the rows are selected by the encodings alone, and a row is told by its `op`. -/
theorem decoderFollowsTheOpcodeMap : Obligations.DecoderFollowsTheOpcodeMap := by
  unfold Obligations.DecoderFollowsTheOpcodeMap
  refine ⟨?decodes, ?unique, ?illegal⟩
  case decodes =>
    intro w r hr hsel
    obtain ⟨i, rfl, hi⟩ := exists_encode_of_selectedBy hr hsel
    obtain ⟨_, _, haddr, hdata⟩ := encode_fields i
    exact ⟨i, decode_encode i, hi, haddr.symm, hdata.symm⟩
  case unique =>
    intro w r q hr hq hrsel hqsel
    obtain ⟨hrop, _⟩ := (selectedBy_iff hr w).mp hrsel
    obtain ⟨hqop, _⟩ := (selectedBy_iff hq w).mp hqsel
    exact opcodeTable_op_injective r hr q hq (hrop.symm.trans hqop)
  case illegal =>
    intro w hnone
    refine (decode_error_iff w).mpr ?_
    rintro i rfl
    obtain ⟨r, hr, hsel⟩ := exists_row_selectedBy_encode i
    exact absurd (hsel.symm.trans (hnone r hr)) Bool.noConfusion

/-! ## The illegal words (rule R115) -/

theorem whenUnusedZero_error_iff {b : Bool} {i : Instr} : (∃ e, whenUnusedZero b i = .error e) ↔ b = false := by
  cases b <;> simp [whenUnusedZero]

/-- An `op` of no row. -/
theorem op_unused : ∀ op : BitVec 4, op ≠ 0x1#4 → op ≠ 0x2#4 → op ≠ 0x3#4 → op ≠ 0x4#4 → op ≠ 0x5#4 → op ≠ 0x6#4 →
    op ≠ 0x7#4 → op ≠ 0x8#4 → op ≠ 0x9#4 → op = 0x0#4 ∨ 0xA#4 ≤ op := by decide

theorem decodeOp_error_iff (w : CmdWord) : (∃ e, decodeOp w = .error e) ↔
    (opField w = 0x0#4 ∨ 0xA#4 ≤ opField w ∨
     ((opField w = 0x1#4 ∨ opField w = 0x6#4) ∧ dataField w ≠ 0#8) ∨
     (opField w = 0x2#4 ∧ (addrField w ≠ 0#15 ∨ dataHighField w ≠ 0#7)) ∨
     (opField w = 0x3#4 ∧ addrField w ≠ 0#15) ∨
     ((opField w = 0x4#4 ∨ opField w = 0x7#4 ∨ opField w = 0x8#4 ∨ opField w = 0x9#4) ∧
       (addrField w ≠ 0#15 ∨ dataField w ≠ 0#8))) := by
  unfold decodeOp
  split_ifs with h1 h2 h3 h4 h5 h6 h7 h8 h9
  case neg =>
    have hop := op_unused _ h1 h2 h3 h4 h5 h6 h7 h8 h9
    exact ⟨fun _ => hop.imp id .inl, fun _ => ⟨_, rfl⟩⟩
  all_goals simp [whenUnusedZero_error_iff, ← imp_iff_not_or, *]

end Sys2Proof
end

section
/-! SUPPORT. The family of 30_encoding.md, second part: the command port (rules R101, R102, R115, R232) and the assembler (rules R123,
R124). -/

namespace Sys2Proof.Machine

/-! ## A word on the port of an idle block -/

theorem step_of_busy {s : State} (h : s.busy = true) : step s = continueWait s := by rw [step, if_pos h]

theorem step_of_ok {s : State} {w : CmdWord} {rest : List CmdWord} {i : Instr} (hbusy : s.busy = false)
    (hport : s.commander = w :: rest) (h : decode w = .ok i) : step s = exec i s.accept := by
  simp [step, hbusy, hport, h]

theorem step_of_error {s : State} {w : CmdWord} {rest : List CmdWord} {e : IllegalWord} (hbusy : s.busy = false)
    (hport : s.commander = w :: rest) (h : decode w = .error e) : step s = .next s.accept.answerIllegal := by
  simp [step, hbusy, hport, h]

theorem accept_eq {s : State} {w : CmdWord} {rest : List CmdWord} (hport : s.commander = w :: rest) :
    s.accept = { s with commander := rest, busy := true, rspValid := false, deadlineExpired := false } := by
  rw [State.accept, hport, List.tail_cons]

/-- The answer to an illegal word clears the `busy` that its acceptance set (rule R115). -/
theorem answerIllegal_accept_eq {s : State} {w : CmdWord} {rest : List CmdWord} (hbusy : s.busy = false)
    (hport : s.commander = w :: rest) : s.accept.answerIllegal =
      { s with commander := rest, rspValid := true, rspWord := 0x0400#16, deadlineExpired := false } := by
  have hword : responseWord .illegalCommand 0x00#8 = 0x0400#16 := rfl
  simp only [State.answerIllegal, raise_eq, State.respond, accept_eq hport, hword, hbusy]

/-- Settles O6: the accepted state differs from the idle one in the port, `busy`, `rspValid` and the deadline input, of which `Ready`
does not speak. -/
theorem stepRunsTheAcceptedCommand : Obligations.StepRunsTheAcceptedCommand := by
  unfold Obligations.StepRunsTheAcceptedCommand
  intro s i rest hbusy hport hdecode
  refine ⟨?_, fun ⟨hready, _⟩ => hready⟩
  rw [step_of_ok hbusy hport hdecode, accept_eq hport]

/-- Settles O5: the tests of the decoder, one by one, and the answer to the word it rejects. -/
theorem illegalWordsAnswerIllegalCommand : Obligations.IllegalWordsAnswerIllegalCommand := by
  unfold Obligations.IllegalWordsAnswerIllegalCommand
  refine ⟨fun w => ?_, fun s w rest e hbusy hport h => ?_⟩
  · rw [← decodeOp_error_iff, decode]
    split_ifs with hzero <;> simp [hzero]
  · rw [step_of_error hbusy hport h, answerIllegal_accept_eq hbusy hport]

/-! ## What a poll does not see -/

/-- The state with other words presented. -/
def State.presenting (s : State) (ws : List CmdWord) : State := { s with commander := ws }

/-- The result with other words presented. -/
def Res.presenting {α : Type} (r : Res α) (ws : List CmdWord) : Res α :=
  match r with
  | .ok a s => .ok a (s.presenting ws)
  | .raised st info s => .raised st info (s.presenting ws)
  | .abandoned s => .abandoned (s.presenting ws)
  | .fault f => .fault f
  | .refused r => .refused r

/-- The operation neither reads nor writes the words presented. -/
def Op.IgnoresPort {α : Type} (m : Op α) : Prop := ∀ s ws, m (s.presenting ws) = (m s).presenting ws

theorem effect_presenting (s : State) (e : PinEvent) (ws : List CmdWord) :
    (s.presenting ws).effect e = (s.effect e).presenting ws := by
  cases e <;> simp only [State.effect, apply_ite (State.presenting · ws)] <;> rfl

theorem pinEvent_presenting (s : State) (e : PinEvent) (ws : List CmdWord) :
    (s.presenting ws).pinEvent e = (s.pinEvent e).presenting ws := by
  rw [State.pinEvent, effect_presenting]
  rfl

theorem pinEvents_presenting (es : List PinEvent) (ws : List CmdWord) : ∀ s : State,
    (s.presenting ws).pinEvents es = (s.pinEvents es).presenting ws := by
  induction es with
  | nil => intro s; rfl
  | cons e es ih => intro s; rw [pinEvents_cons, pinEvent_presenting, ih, pinEvents_cons]

theorem resetBlock_presenting (s : State) (ws : List CmdWord) :
    (s.presenting ws).resetBlock = s.resetBlock.presenting ws := by
  rw [State.resetBlock, pinEvents_presenting]
  rfl

theorem ignoresPort_done {α : Type} (a : α) : Op.IgnoresPort (Op.done a) := fun _ _ => rfl

theorem ignoresPort_andThen {α β : Type} {m : Op α} {k : α → Op β} (hm : m.IgnoresPort) (hk : ∀ a, (k a).IgnoresPort) :
    (Op.andThen m k).IgnoresPort := by
  intro s ws
  simp only [Op.andThen, hm s ws]
  cases m s with
  | ok a t => exact hk a t ws
  | _ => rfl

/-- A test of what is not the port. -/
theorem ignoresPort_ite {α : Type} {c : State → Prop} [DecidablePred c] {m n : Op α}
    (hc : ∀ s ws, c (s.presenting ws) ↔ c s) (hm : m.IgnoresPort) (hn : n.IgnoresPort) :
    Op.IgnoresPort (fun s => if c s then m s else n s) := by
  intro s ws
  by_cases h : c s
  · simp only [hc, h, if_true]; exact hm s ws
  · simp only [hc, h, if_false]; exact hn s ws

theorem ignoresPort_afterSlot {α : Type} {k : Op α} (hk : k.IgnoresPort) : (afterSlot k).IgnoresPort := by
  refine ignoresPort_ite (c := fun s => (s.slotAt 0).rst = true) (fun _ _ => Iff.rfl) ?_ ?_
  · intro s ws
    exact congrArg Res.abandoned (resetBlock_presenting s.passTime ws)
  · intro s ws
    exact hk s.passTime ws

theorem ignoresPort_sampleLines : sampleLines.IgnoresPort := by
  refine ignoresPort_afterSlot (ignoresPort_ite (c := fun s => s.contended = true) (fun _ _ => Iff.rfl) (fun _ _ => rfl) ?_)
  intro s ws
  exact congrArg (Res.ok s.dataLines) (pinEvent_presenting s _ ws)

theorem ignoresPort_lookDeadline : lookDeadline.IgnoresPort :=
  ignoresPort_ite (c := fun s => s.build.deadlineEn = true) (fun _ _ => Iff.rfl)
    (ignoresPort_afterSlot (fun _ _ => rfl)) (ignoresPort_done false)

theorem ignoresPort_wrongDirection {α : Type} (r : Refusal) : Op.IgnoresPort (wrongDirection (α := α) r) :=
  ignoresPort_ite (c := fun s => s.build.safetyBuild = true) (fun _ _ => Iff.rfl) (fun _ _ => rfl) (fun _ _ => rfl)

theorem ignoresPort_drd : drd.IgnoresPort :=
  ignoresPort_ite (c := fun s => s.dir = .deviceDrives) (fun _ _ => Iff.rfl) ignoresPort_sampleLines
    (ignoresPort_wrongDirection .drdWrongDirection)

theorem ignoresPort_judgeSample (v : Byte) : (judgeSample v).IgnoresPort :=
  ignoresPort_ite (c := fun s => pollMatches v s.pollBit = true) (fun _ _ => Iff.rfl) (fun _ _ => rfl)
    (ignoresPort_ite (c := fun s => pollLimitReached s.build.pollLimit (s.polls + 1) = true) (fun _ _ => Iff.rfl)
      (fun _ _ => rfl) (fun _ _ => rfl))

theorem ignoresPort_pollOnce : pollOnce.IgnoresPort := by
  refine ignoresPort_andThen ignoresPort_lookDeadline (fun expired => ?_)
  cases expired with
  | true => exact fun _ _ => rfl
  | false => exact ignoresPort_andThen ignoresPort_drd ignoresPort_judgeSample

theorem perform_presenting {m : Op Progress} (hm : m.IgnoresPort) {s t : State} (h : perform m s = .next t)
    (ws : List CmdWord) : perform m (s.presenting ws) = .next (t.presenting ws) := by
  have hms := hm s ws
  rcases perform_cases h with ⟨d, u, hu, rfl⟩ | ⟨u, hu, rfl⟩ | ⟨st, info, u, hu, rfl⟩ | hu <;> rw [hu] at hms
  · exact perform_finished hms
  · exact perform_polling hms
  · exact perform_raised hms
  · exact perform_abandoned hms

theorem step_presenting {s t : State} (hbusy : s.busy = true) (h : step s = .next t) (ws : List CmdWord) :
    step (s.presenting ws) = .next (t.presenting ws) := by
  rw [step_of_busy hbusy] at h
  rw [step_of_busy (s := s.presenting ws) hbusy]
  exact perform_presenting ignoresPort_pollOnce h ws

/-- Settles O7: a poll ignores the port; presenting again the words that stand there shows that it leaves them. -/
theorem noWordIsAcceptedWhileBusy : Obligations.NoWordIsAcceptedWhileBusy := by
  unfold Obligations.NoWordIsAcceptedWhileBusy
  intro s t ws hbusy h
  refine ⟨?_, step_presenting hbusy h ws⟩
  have hsame : step s = .next (t.presenting s.commander) := step_presenting hbusy h s.commander
  have ht : t = t.presenting s.commander := Host.Outcome.next.inj (h.symm.trans hsame)
  rw [ht]
  rfl

/-! ## The assembler (rule R123) -/

theorem assemble_of_wellFormed {line : Source} (h : line.wellFormed = true) :
    assemble line = some ((expand line).map encode) := if_pos h

theorem assemble_of_not_wellFormed {line : Source} (h : line.wellFormed = false) : assemble line = none := by
  simp [assemble, h]

/-- Settles O51: an operand that does not fit makes the line ill-formed; one that fits is the value of its bit vector. -/
theorem assemblerNeverTruncates : Obligations.AssemblerNeverTruncates := by
  unfold Obligations.AssemblerNeverTruncates
  refine ⟨?addr, ?data, ?fits⟩
  case addr =>
    intro a ha
    have hfits : addrFits a = false := decide_eq_false (by omega)
    simp [assemble_of_not_wellFormed, Source.wellFormed, hfits]
  case data =>
    intro d hd
    have hfits : dataFits d = false := decide_eq_false (by omega)
    simp [assemble_of_not_wellFormed, Source.wellFormed, hfits]
  case fits =>
    intro a d ha hd
    have haddr : addrFits a = true := decide_eq_true ha
    have hdata : dataFits d = true := decide_eq_true hd
    have hboth : (addrFits a && dataFits d) = true := by rw [haddr, hdata]; rfl
    refine ⟨BitVec.ofNat 15 a, BitVec.ofNat 8 d, Nat.mod_eq_of_lt (by omega), Nat.mod_eq_of_lt (by omega), ?_⟩
    exact ⟨assemble_of_wellFormed haddr, assemble_of_wellFormed haddr, assemble_of_wellFormed haddr,
      assemble_of_wellFormed hdata, assemble_of_wellFormed hboth, assemble_of_wellFormed hboth⟩

end Sys2Proof.Machine
end

section
/-! SUPPORT. The family of 40_addressbus.md: SETA on the skip path and on the full path (rules R144 to R148). -/

namespace Sys2Proof.Machine

/-! ## The two paths (rule R145) -/

theorem skipsHigh_iff (s : State) (a : Addr) : skipsHigh s a = true ↔ s.lastHighValid = true ∧ s.lastHigh = highByte a := by
  simp [skipsHigh]

theorem skipsHigh_eq_false_iff (s : State) (a : Addr) :
    skipsHigh s a = false ↔ s.lastHighValid = false ∨ s.lastHigh ≠ highByte a := by
  rw [← Bool.not_eq_true, skipsHigh_iff, not_and_or, Bool.not_eq_true]

/-- The skip path moves 8 bits and one latch line (rules R111, R144). -/
theorem seta_of_skipsHigh {s : State} {a : Addr} (h : skipsHigh s a = true) :
    setaCost s a = 26 ∧ setaEvents s a = (frame8 a).flatMap shiftEvents ++ latchLowEvents ∧
      s.afterSeta a = s.afterSetaSkip a :=
  ⟨if_pos h, if_pos h, if_pos h⟩

/-- The full path moves 16 bits and both latch lines, the high one first (rules R110, R144). -/
theorem seta_of_not_skipsHigh {s : State} {a : Addr} (h : skipsHigh s a = false) :
    setaCost s a = 52 ∧ setaEvents s a = (frame16 a).flatMap shiftEvents ++ latchHighEvents ++ latchLowEvents ∧
      s.afterSeta a = s.afterSetaFull a :=
  have hn : ¬ skipsHigh s a = true := by rw [h]; exact Bool.false_ne_true
  ⟨if_neg hn, if_neg hn, if_neg hn⟩

/-! ## The command, and the statement -/

theorem exec_seta_eq {s : State} {a : Addr} (hs : s.LinesIdle) (hr : s.NoResetFor (setaCost s a)) :
    exec (.seta a) s = .next (((s.passTimes (setaCost s a)).afterSeta a).respond .ok 0x00#8) := by
  obtain ⟨hck, hl, hh, _⟩ := hs
  rw [exec_eq_perform]
  exact perform_endsPlain_ok ((seta_runs hck hl hh a).ends (by rwa [setaEvents_length]))

/-- Settles O9: the closed form of SETA, its skip test decided by the cache either way. -/
theorem setaShiftsAndLatchesByTheCachingRule : Obligations.SetaShiftsAndLatchesByTheCachingRule := by
  unfold Obligations.SetaShiftsAndLatchesByTheCachingRule
  refine ⟨fun s a hlines hvalid hhigh hr => ?skip, fun s a hlines hcache hr => ?full⟩
  case skip =>
    have hskip : skipsHigh s a = true := (skipsHigh_iff s a).mpr ⟨hvalid, hhigh⟩
    obtain ⟨hcost, -, -⟩ := seta_of_skipsHigh hskip
    obtain ⟨-, hevents, hafter⟩ := seta_of_skipsHigh ((skipsHigh_passTimes s 26 a).trans hskip)
    rw [exec_seta_eq hlines (by rwa [hcost]), hcost, hafter, State.afterSetaSkip, hevents]
    simp only [passTimes_trace, passTimes_sl, List.append_assoc]
  case full =>
    have hfull : skipsHigh s a = false := (skipsHigh_eq_false_iff s a).mpr hcache
    obtain ⟨hcost, -, -⟩ := seta_of_not_skipsHigh hfull
    obtain ⟨-, hevents, hafter⟩ := seta_of_not_skipsHigh ((skipsHigh_passTimes s 52 a).trans hfull)
    rw [exec_seta_eq hlines (by rwa [hcost]), hcost, hafter, State.afterSetaFull, hevents]
    simp only [passTimes_trace, List.append_assoc]

end Sys2Proof.Machine
end

section
/-! SUPPORT. The family of 41_databus.md: SETD, DWR and DRD where no reset comes (rules R161, R165, R166, R168, R169, R233), and where
an operation halts the machine (rules R37, R166, R169, R237). -/

namespace Sys2Proof.Machine

/-! ## The commands of the data bus -/

theorem exec_setd_same {s : State} {m : Direction} (h : s.dir = m) : exec (.setd m) s = .next (s.respond .ok 0x00#8) := by
  rw [exec_eq_perform]
  exact perform_endsPlain_ok (setd_same h)

theorem exec_setd_turn {s : State} {m : Direction} (h : s.dir ≠ m) (hr : s.NoResetFor 2) :
    exec (.setd m) s = .next (((s.passTimes 2).afterSetd m).respond .ok 0x00#8) := by
  have hcost : setdCost s m = 2 := if_neg h
  have hend := (setd_runs s m).ends (by rwa [setdEvents_length, hcost])
  rw [hcost] at hend
  rw [exec_eq_perform]
  exact perform_endsPlain_ok hend

theorem exec_dwr_wrong {s : State} (h : s.dir ≠ .hostDrives) (d : Byte) :
    exec (.dwr d) s =
      if s.build.safetyBuild then .next (s.respond .busContentionRisk 0x00#8) else .refused .dwrWrongDirection := by
  rw [exec_eq_perform, operation, endsPlain, perform, Op.andThen, dwr_wrong h]
  cases s.build.safetyBuild <;> rfl

theorem exec_drd_wrong {s : State} (h : s.dir ≠ .deviceDrives) :
    exec .drd s =
      if s.build.safetyBuild then .next (s.respond .busContentionRisk 0x00#8) else .refused .drdWrongDirection := by
  rw [exec_eq_perform, operation, endsWith, perform, Op.andThen, drd_wrong h]
  cases s.build.safetyBuild <;> rfl

/-- Settles O11: SETD in the cached mode, and the turn in either direction. -/
theorem setdTurnsTheBusInOrder : Obligations.SetdTurnsTheBusInOrder := by
  unfold Obligations.SetdTurnsTheBusInOrder
  refine ⟨fun s m h => exec_setd_same h, fun s h hr => ?toHost, fun s h hr => ?toDevice⟩
  case toHost =>
    rw [exec_setd_turn (by simp [h]) hr]
    simp [State.afterSetd, setdEvents, h]
  case toDevice =>
    rw [exec_setd_turn (by simp [h]) hr]
    simp [State.afterSetd, setdEvents, h]

/-- Settles O12: DWR with the host driving, and its test of the direction in either build. -/
theorem dwrDrivesTheByteAndRecordsItsTopBit : Obligations.DwrDrivesTheByteAndRecordsItsTopBit := by
  unfold Obligations.DwrDrivesTheByteAndRecordsItsTopBit
  refine ⟨fun s d hdir hr => ?right, fun s d hdir hbuild => ?safety, fun s d hdir hbuild => ?base⟩
  case right =>
    rw [exec_eq_perform, operation, perform_endsPlain_ok ((dwr_runs hdir d).ends hr), State.afterDwr, passTimes_trace]
  case safety => rw [exec_dwr_wrong hdir, if_pos hbuild]
  case base => rw [exec_dwr_wrong hdir, hbuild, if_neg Bool.false_ne_true]

/-- Settles O13: DRD with the device driving, and its test of the direction in either build. -/
theorem drdReturnsTheLiveByte : Obligations.DrdReturnsTheLiveByte := by
  unfold Obligations.DrdReturnsTheLiveByte
  refine ⟨fun s v hdir hddir hoe hr hv => ?right, fun s hdir hbuild => ?safety, fun s hdir hbuild => ?base⟩
  case right =>
    have htrue : s.DirectionTrue := (directionTrue_iff s).mpr (by rw [hdir]; exact ⟨hddir, hoe⟩)
    have hdrd : drd s = .ok v ((s.passTimes 1).afterSample v) := by rw [hv]; exact drd_ok htrue hdir hr
    have hend : operation .drd s = .ok (.finished v) ((s.passTimes 1).afterSample v) := andThen_ok hdrd
    rw [exec_eq_perform, perform_finished hend, State.afterSample, passTimes_draws, passTimes_trace]
  case safety => rw [exec_drd_wrong hdir, if_pos hbuild]
  case base => rw [exec_drd_wrong hdir, hbuild, if_neg Bool.false_ne_true]

/-! ## Where an operation halts the machine -/

/-- Run from `s`, the operation stops with a fault only where `F` holds, and is refused only as `R` says. -/
def Op.HaltsOnly {α : Type} (m : Op α) (s : State) (F : Prop) (R : Refusal → Prop) : Prop :=
  match m s with
  | .ok _ _ => True
  | .raised _ _ _ => True
  | .abandoned _ => True
  | .fault _ => F
  | .refused r => R r

section Halts
variable {α β : Type} {s : State} {F : Prop} {R : Refusal → Prop}

theorem haltsOnly_congr {m n : Op α} (h : m s = n s) (hn : n.HaltsOnly s F R) : m.HaltsOnly s F R := by
  rwa [Op.HaltsOnly, h]

/-- The second piece starts where the first one ends. -/
theorem haltsOnly_andThen {m : Op α} {k : α → Op β} (hm : m.HaltsOnly s F R)
    (hk : ∀ a t, m s = .ok a t → (k a).HaltsOnly t F R) : (Op.andThen m k).HaltsOnly s F R := by
  unfold Op.HaltsOnly at hm
  unfold Op.HaltsOnly Op.andThen
  cases hr : m s with
  | ok a t => exact hk a t hr
  | raised st info t => trivial
  | abandoned t => trivial
  | fault f => rw [hr] at hm; exact hm
  | refused r => rw [hr] at hm; exact hm

theorem haltsOnly_done (a : α) : (Op.done a).HaltsOnly s F R := trivial

theorem haltsOnly_update (f : State → State) : (update f).HaltsOnly s F R := trivial

theorem haltsOnly_afterSlot {k : Op α} (h : k.HaltsOnly s.passTime F R) : (afterSlot k).HaltsOnly s F R := by
  unfold Op.HaltsOnly afterSlot
  split_ifs
  · trivial
  · exact h

theorem haltsOnly_emit (e : PinEvent) : (emit e).HaltsOnly s F R :=
  haltsOnly_afterSlot (k := fun s => .ok () (s.pinEvent e)) trivial

/-- Pieces that halt alike wherever they start, in order. -/
theorem haltsOnly_inOrder {ms : List (Op Unit)} (h : ∀ m ∈ ms, ∀ s, m.HaltsOnly s F R) : (inOrder ms).HaltsOnly s F R := by
  induction ms generalizing s with
  | nil => exact haltsOnly_done ()
  | cons m ms ih => exact haltsOnly_andThen (h m (by simp) s) (fun _ _ _ => ih (fun n hn => h n (by simp [hn])))

theorem haltsOnly_emits (es : List PinEvent) : (emits es).HaltsOnly s F R :=
  haltsOnly_inOrder (by simp only [List.forall_mem_map]; exact fun e _ _ => haltsOnly_emit e)

/-- A piece with a closed form never halts. -/
theorem Runs.haltsOnly {m : Op Unit} {t : State} {es : List PinEvent} (h : Runs m s es t) : m.HaltsOnly s F R := by
  unfold Op.HaltsOnly
  rcases h.cases with ⟨_, hm⟩ | ⟨_, _, _, hm, _⟩ <;> rw [hm] <;> trivial

/-! ### The operations -/

theorem haltsOnly_seta (a : Addr) : (seta a).HaltsOnly s F R := by
  cases hskip : skipsHigh s a with
  | true =>
    refine haltsOnly_congr (if_pos hskip) ?_
    rw [setaSkip_eq]
    exact haltsOnly_emits _
  | false =>
    refine haltsOnly_congr (if_neg (by simp [hskip])) ?_
    rw [setaFull_eq]
    exact haltsOnly_andThen (haltsOnly_emits _) (fun _ _ _ => haltsOnly_update _)

theorem haltsOnly_setd (m : Direction) : (setd m).HaltsOnly s F R := (setd_runs s m).haltsOnly

/-- SETD ends in the mode asked for, whatever the pins were. -/
theorem setd_ok_dir {m : Direction} {a : Unit} {t : State} (h : setd m s = .ok a t) : t.dir = m := by
  rcases (setd_runs s m).cases with ⟨_, hm⟩ | ⟨_, _, _, hm, _⟩ <;> rw [hm] at h <;> cases h
  exact afterSetd_dir _ m

/-- DWR halts only in the wrong direction of a build without `SAFETY_BUILD` (rule R166). -/
theorem haltsOnly_dwr {d : Byte}
    (hR : s.dir ≠ .hostDrives → s.build.safetyBuild = false → R .dwrWrongDirection) : (dwr d).HaltsOnly s F R := by
  by_cases hdir : s.dir = .hostDrives
  · exact (dwr_runs hdir d).haltsOnly
  · unfold Op.HaltsOnly
    rw [dwr_wrong hdir]
    cases hbuild : s.build.safetyBuild with
    | true => trivial
    | false => exact hR hdir hbuild

/-- DRD halts only in the wrong direction of a build without `SAFETY_BUILD` (rule R169), or where both sides drive the lines that it
would sample (rule R37). -/
theorem haltsOnly_drd (hF : s.contended = true → F)
    (hR : s.dir ≠ .deviceDrives → s.build.safetyBuild = false → R .drdWrongDirection) : drd.HaltsOnly s F R := by
  by_cases hdir : s.dir = .deviceDrives
  · refine haltsOnly_congr (if_pos hdir) (haltsOnly_afterSlot ?_)
    unfold Op.HaltsOnly
    dsimp only
    split_ifs with hcontended
    · exact hF hcontended
    · trivial
  · unfold Op.HaltsOnly
    rw [drd_wrong hdir]
    cases hbuild : s.build.safetyBuild with
    | true => trivial
    | false => exact hR hdir hbuild

/-- WRB never halts: the DWR in it finds the direction that the SETD before it leaves. -/
theorem haltsOnly_wrb (a : Addr) (d : Byte) : (wrb a d).HaltsOnly s F R := by
  refine haltsOnly_andThen (haltsOnly_seta a) (fun _ u _ => ?_)
  refine haltsOnly_andThen (haltsOnly_setd _) (fun _ t hsetd => ?_)
  refine haltsOnly_andThen (haltsOnly_dwr (fun hdir _ => absurd (setd_ok_dir hsetd) hdir)) (fun _ _ _ => ?_)
  rw [inOrder_single]
  exact haltsOnly_inOrder (by simp [haltsOnly_emit, delay, haltsOnly_done])

theorem not_boundary_of_contended (h : s.contended = true) : ¬ s.AtBoundary := by
  rintro ⟨_, hdirection, _⟩
  exact Bool.false_ne_true ((not_contended_of_directionTrue hdirection).symm.trans h)

theorem Op.Follows.boundary_of_ok {m : Op α} {a : α} {t : State} (hm : Op.Follows s m) (hs : s.AtBoundary)
    (h : m s = .ok a t) : t.AtBoundary := by
  have hend := hm s (.refl hs)
  rw [h] at hend
  exact hend.boundary

theorem follows_addressing (s : State) (a : Addr) (m : Direction) : Op.Follows s (inOrder [seta a, setd m]) := by
  refine follows_inOrder ?_
  simp only [List.forall_mem_cons]
  exact ⟨follows_seta s a, follows_setd s m, by simp⟩

theorem follows_startWait (s : State) : Op.Follows s (inOrder [setd .deviceDrives, startPolling]) := by
  refine follows_inOrder ?_
  simp only [List.forall_mem_cons]
  exact ⟨follows_setd s _, follows_update (fun u hu => ⟨hu.boundary, hu.course⟩), by simp⟩

/-- From a boundary RDB never halts: SETD leaves its DRD the right direction, with one driver on the lines (rule R43). -/
theorem haltsOnly_rdb {a : Addr} (hF : ¬ s.AtBoundary → F) : (rdb a).HaltsOnly s F R := by
  have haddressing : (inOrder [seta a, setd .deviceDrives]).HaltsOnly s F R :=
    haltsOnly_inOrder (by simp [haltsOnly_seta, haltsOnly_setd])
  refine haltsOnly_andThen haddressing (fun _ t hok => haltsOnly_drd (fun hcontended => hF fun hs => ?_) (fun hdir _ => ?_))
  · exact not_boundary_of_contended hcontended ((follows_addressing s a _).boundary_of_ok hs hok)
  · obtain ⟨_, u, _, hsetd⟩ := andThen_eq_ok hok
    rw [inOrder_single] at hsetd
    exact absurd (setd_ok_dir hsetd) hdir

theorem haltsOnly_lookDeadline : lookDeadline.HaltsOnly s F R := by
  unfold Op.HaltsOnly
  rcases lookDeadline_cases s with ⟨_, hlook⟩ | ⟨_, _, hlook⟩ <;> rw [hlook] <;> trivial

/-- A look at the deadline moves no pin and turns no direction. -/
theorem lookDeadline_ok {b : Bool} {t : State} (h : lookDeadline s = .ok b t) :
    t.contended = s.contended ∧ t.dir = s.dir ∧ t.build = s.build := by
  rcases lookDeadline_cases s with ⟨_, hlook⟩ | ⟨_, _, hlook⟩ <;> rw [hlook] at h <;> cases h
  simp [State.contended]

theorem haltsOnly_judgeSample (v : Byte) : (judgeSample v).HaltsOnly s F R := by
  unfold Op.HaltsOnly
  rcases judgeSample_cases v s with h | h | h <;> rw [h] <;> trivial

/-- A poll halts where its DRD does. -/
theorem haltsOnly_pollOnce (hF : s.contended = true → F)
    (hR : s.dir ≠ .deviceDrives → s.build.safetyBuild = false → R .drdWrongDirection) : pollOnce.HaltsOnly s F R := by
  refine haltsOnly_andThen haltsOnly_lookDeadline (fun expired t hlook => ?_)
  obtain ⟨hcontended, hdir, hbuild⟩ := lookDeadline_ok hlook
  cases expired with
  | true => trivial
  | false =>
    have hdrd : drd.HaltsOnly t F R := haltsOnly_drd (by rwa [hcontended]) (by rwa [hdir, hbuild])
    exact haltsOnly_andThen hdrd (fun v _ _ => haltsOnly_judgeSample v)

/-- From a boundary WAIT never halts, for the same reason. -/
theorem haltsOnly_wait (hF : ¬ s.AtBoundary → F) : wait.HaltsOnly s F R := by
  have hstart : (inOrder [setd .deviceDrives, startPolling]).HaltsOnly s F R :=
    haltsOnly_inOrder (by simp [haltsOnly_setd, startPolling, haltsOnly_update])
  refine haltsOnly_andThen hstart (fun _ t hok => haltsOnly_pollOnce (fun hcontended => hF fun hs => ?_) (fun hdir _ => ?_))
  · exact not_boundary_of_contended hcontended ((follows_startWait s).boundary_of_ok hs hok)
  · obtain ⟨_, u, hsetd, hpolling⟩ := andThen_eq_ok hok
    cases hpolling
    exact absurd (setd_ok_dir hsetd) hdir

theorem haltsOnly_issueWrites (ws : List (Addr × Byte)) (done : Fin 7) : (issueWrites done ws).HaltsOnly s F R := by
  induction ws generalizing s done with
  | nil => exact haltsOnly_done ()
  | cons w rest ih => exact haltsOnly_inOrder (by simp [haltsOnly_wrb, setSq, haltsOnly_update, ih])

theorem haltsOnly_sequenceDeadline (info : Byte) : (sequenceDeadline info).HaltsOnly s F R :=
  haltsOnly_andThen haltsOnly_lookDeadline (fun expired _ _ => by cases expired <;> trivial)

theorem haltsOnly_sequence (ws : List (Addr × Byte)) (info : Byte) :
    (inOrder [setSq 0, issueWrites 0 ws, sequenceDeadline info]).HaltsOnly s F R :=
  haltsOnly_inOrder (by simp [setSq, haltsOnly_update, haltsOnly_issueWrites, haltsOnly_sequenceDeadline])

theorem haltsOnly_endsPlain {m : Op Unit} (h : m.HaltsOnly s F R) : (endsPlain m).HaltsOnly s F R :=
  haltsOnly_andThen h (fun _ _ _ => haltsOnly_done _)

theorem haltsOnly_endsWith {m : Op Byte} (h : m.HaltsOnly s F R) : (endsWith m).HaltsOnly s F R :=
  haltsOnly_andThen h (fun _ _ _ => haltsOnly_done _)

end Halts

/-! ### Commands and steps -/

/-- The refusals of rules R166 and R169. -/
def State.RefusedAs (s : State) (i : Instr) (r : Refusal) : Prop :=
  s.build.safetyBuild = false ∧
    ((∃ d, i = .dwr d ∧ s.dir ≠ .hostDrives ∧ r = .dwrWrongDirection) ∨
     (i = .drd ∧ s.dir ≠ .deviceDrives ∧ r = .drdWrongDirection))

/-- Where a command halts (rules R166, R169, R237). -/
theorem haltsOnly_operation (i : Instr) (s : State) : (operation i).HaltsOnly s (¬ s.AtBoundary) (s.RefusedAs i) := by
  cases i with
  | seta a => exact haltsOnly_endsPlain (haltsOnly_seta a)
  | setd m => exact haltsOnly_endsPlain (haltsOnly_setd m)
  | dwr d => exact haltsOnly_endsPlain (haltsOnly_dwr fun hdir hbuild => ⟨hbuild, .inl ⟨d, rfl, hdir, rfl⟩⟩)
  | drd =>
    exact haltsOnly_endsWith
      (haltsOnly_drd not_boundary_of_contended fun hdir hbuild => ⟨hbuild, .inr ⟨rfl, hdir, rfl⟩⟩)
  | wrb a d => exact haltsOnly_endsPlain (haltsOnly_wrb a d)
  | rdb a => exact haltsOnly_endsWith (haltsOnly_rdb id)
  | wait => exact haltsOnly_wait id
  | sdpd => exact haltsOnly_endsPlain (haltsOnly_sequence _ _)
  | sdpe => exact haltsOnly_endsPlain (haltsOnly_sequence _ _)

/-- A command stops only where its operation does. -/
theorem Op.HaltsOnly.of_perform_fault {m : Op Progress} {s : State} {F : Prop} {R : Refusal → Prop} {f : Fault}
    (hm : m.HaltsOnly s F R) (h : perform m s = .fault f) : F := by
  unfold Op.HaltsOnly at hm
  unfold perform at h
  cases hr : m s with
  | ok p t => rw [hr] at h; cases p <;> cases h
  | raised st info t => rw [hr] at h; cases h
  | abandoned t => rw [hr] at h; cases h
  | fault g => rw [hr] at hm; exact hm
  | refused r => rw [hr] at h; cases h

theorem Op.HaltsOnly.of_perform_refused {m : Op Progress} {s : State} {F : Prop} {R : Refusal → Prop} {r : Refusal}
    (hm : m.HaltsOnly s F R) (h : perform m s = .refused r) : R r := by
  unfold Op.HaltsOnly at hm
  unfold perform at h
  cases hr : m s with
  | ok p t => rw [hr] at h; cases p <;> cases h
  | raised st info t => rw [hr] at h; cases h
  | abandoned t => rw [hr] at h; cases h
  | fault f => rw [hr] at h; cases h
  | refused q => rw [hr] at h hm; cases h; exact hm

/-- A step that stops is a poll that stops, or an accepted command that does (rules R101, R189). -/
theorem step_fault_cases {s : State} {f : Fault} (h : step s = .fault f) :
    perform pollOnce s = .fault f ∨ ∃ i, perform (operation i) s.accept = .fault f := by
  cases hbusy : s.busy with
  | true => rw [step_of_busy hbusy] at h; exact .inl h
  | false =>
    cases hport : s.commander with
    | nil => simp [step, hbusy, hport] at h
    | cons w rest =>
      cases hdecode : decode w with
      | ok i => rw [step_of_ok hbusy hport hdecode, exec_eq_perform] at h; exact .inr ⟨i, h⟩
      | error e => rw [step_of_error hbusy hport hdecode] at h; cases h

/-- Settles O38: a step from the invariant begins at a boundary, where nothing is contended; the refusals are those of the operations. -/
theorem invariantRulesOutStops : Obligations.InvariantRulesOutStops := by
  unfold Obligations.InvariantRulesOutStops
  refine ⟨fun s f hs hstep => ?_, fun s i r h => ?_⟩
  · have hboundary : s.AtBoundary := ((inv_iff s).mp hs).1
    rcases step_fault_cases hstep with hpoll | ⟨i, hexec⟩
    · have hhalts : pollOnce.HaltsOnly s (¬ s.AtBoundary) (fun _ => True) :=
        haltsOnly_pollOnce not_boundary_of_contended (fun _ _ => trivial)
      exact hhalts.of_perform_fault hpoll hboundary
    · exact (haltsOnly_operation i s.accept).of_perform_fault hexec hboundary
  · rw [exec_eq_perform] at h
    exact (haltsOnly_operation i s).of_perform_refused h

end Sys2Proof.Machine
end

section
/-! SUPPORT. The family of 42_cyclecontroller.md, first part: WRB and RDB where no reset comes (rules R182, R185). -/

namespace Sys2Proof.Machine

theorem afterSetd_trace (s : State) (m : Direction) : (s.afterSetd m).trace = s.trace ++ setdEvents s m := by
  unfold State.afterSetd
  by_cases h : s.dir = m
  · simp [setdEvents, h]
  · rw [if_neg h]
    cases m <;> rfl

theorem afterSeta_trace (s : State) (a : Addr) : (s.afterSeta a).trace = s.trace ++ setaEvents s a := by
  unfold State.afterSeta
  split <;> rfl

/-- What the addressing of RDB and WRB does to the trace, and what it leaves alone (rules R144, R161). -/
theorem afterAddressing_fields (s : State) (a : Addr) (m : Direction) :
    (s.afterAddressing a m).trace = s.trace ++ setaEvents s a ++ setdEvents s m ∧
    (s.afterAddressing a m).dev = s.dev ∧ (s.afterAddressing a m).draws = s.draws := by
  obtain ⟨_, _, _, _, _, _, _, _, _, hdev, _, _, _, hdraws⟩ := afterSeta_fields s a
  obtain ⟨_, _, _, _, _, _, _, _, _, _, _, _, hdev', _, _, _, hdraws'⟩ := afterSetd_fields (s.afterSeta a) m
  exact ⟨by rw [State.afterAddressing, afterSetd_trace, setdEvents_afterSeta, afterSeta_trace],
    hdev'.trans hdev, hdraws'.trans hdraws⟩

/-- The end state of WRB, written from the addressing on (rule R182). -/
theorem afterWrb_eq {s : State} {a : Addr} {d : Byte} (htrace : (s.afterWrb a d).trace = s.trace ++ wrbEvents s a d) :
    s.afterWrb a d =
      { (s.passTimes (wrbCost s a)).afterAddressing a .hostDrives with
        dout := d
        pollBit := d.getLsbD 7
        dev := (s.passTimes (wrbCost s a)).dev.writePulse a d
        draws := s.draws + 1
        trace := s.trace ++ wrbEvents s a d } := by
  obtain ⟨_, _, _, _, _, _, _, _, hdraws, hdev⟩ := afterWrb_fields s a d
  rw [← hdev, ← hdraws, ← htrace]
  rfl

/-- Settles O14: the closed form of WRB, read field by field. -/
theorem wrbDeliversOneByteToTheDevice : Obligations.WrbDeliversOneByteToTheDevice := by
  unfold Obligations.WrbDeliversOneByteToTheDevice
  intro s a d hlines hdir hcache hr
  have hruns := wrb_runs hlines hdir (fun hv => (hcache hv).1) a d
  have hend := hruns.ends (by rwa [wrbEvents_length])
  rw [exec_eq_perform, operation, perform_endsPlain_ok hend, afterWrb_eq hruns.trace]

/-- The addressing ends at a boundary, turned as asked, with the address on the lines (rules R41, R42, R44). -/
theorem afterAddressing_ready {s : State} (hs : s.AtBoundary) (a : Addr) (m : Direction) :
    (s.afterAddressing a m).AtBoundary ∧ (s.afterAddressing a m).dir = m ∧ (s.afterAddressing a m).addressLines = a := by
  have ⟨_, _, hcache⟩ := hs
  obtain ⟨hlines, _⟩ := afterSetd_carries (afterSeta_carries hcache a) m
  exact ⟨afterSetd_boundary (afterSeta_boundary hs a) m, afterSetd_dir _ m, hlines⟩

theorem afterAddressing_passTimes (s : State) (n : Nat) (a : Addr) (m : Direction) :
    (s.passTimes n).afterAddressing a m = (s.afterAddressing a m).passTimes n := by
  rw [State.afterAddressing, afterSeta_passTimes, afterSetd_passTimes, State.afterAddressing]

/-- RDB where no reset comes: the addressing and then one sample of what the device drives (rule R185). -/
theorem exec_rdb_eq {s x : State} {n : Nat} (hs : s.AtBoundary) (a : Addr) (hn : n = setaCost s a + setdCost s .deviceDrives)
    (hr : s.NoResetFor (n + 1)) (hx : x = (s.passTimes (n + 1)).afterAddressing a .deviceDrives) :
    exec (.rdb a) s = .next ((x.afterSample (x.dev.read a x.draws)).respond .ok (x.dev.read a x.draws)) := by
  have ⟨hlines, _⟩ := hs
  obtain ⟨hok, hagree⟩ := addressing_ok hlines a .deviceDrives (noResetFor_mono hr (by omega))
  obtain ⟨⟨_, hdirection, _⟩, hdir, haddress⟩ := afterAddressing_ready (passTimes_boundary hs n) a .deviceDrives
  rw [passTimes_add, afterAddressing_passTimes] at hx
  rw [← hn] at hok hagree
  have hsample := drd_ok hdirection hdir ((noResetFor_congr hagree.env 1).mpr (noResetFor_passTimes hr))
  rw [haddress] at hsample
  rw [exec_eq_perform, operation, endsWith_rdb, perform_andThen_ok hok, hx]
  exact perform_finished (andThen_ok hsample)

/-- Settles O15: the addressing leaves the device and the counter of draws alone, and the sample is of the address set. -/
theorem rdbReturnsWhatTheDeviceDrives : Obligations.RdbReturnsWhatTheDeviceDrives := by
  unfold Obligations.RdbReturnsWhatTheDeviceDrives
  intro s a n v hlines hdir hcache hn hr hv
  obtain ⟨htrace, hdev, hdraws⟩ := afterAddressing_fields (s.passTimes n) a .deviceDrives
  rw [passTimes_trace, setaEvents_passTimes, setdEvents_passTimes] at htrace
  rw [passTimes_draws] at hdraws
  have hexec := exec_rdb_eq ⟨hlines, hdir, hcache⟩ a rfl (by rwa [← hn]) rfl
  rw [← hn] at hexec
  rw [hexec, hdev, hdraws, ← hv, State.afterSample, hdraws, htrace]

end Sys2Proof.Machine
end

section
/-! SUPPORT. The family of 42_cyclecontroller.md, second part: one iteration of WAIT and all its ends, the first one (rules R188, R192,
R232, R234, R240) and a later one. -/

namespace Sys2Proof.Machine

/-! ## The ends of an iteration -/

/-- The look at the deadline where no reset comes (rule R232). -/
theorem lookDeadline_noReset {s : State} (hr : s.NoResetFor (lookCost s)) : lookDeadline s =
    .ok (s.build.deadlineEn && (s.passTimes (lookCost s)).deadlineExpired) (s.passTimes (lookCost s)) := by
  rcases lookDeadline_cases s with ⟨_, hlook⟩ | ⟨hcost, hrst, _⟩
  · exact hlook
  · exact absurd ((hr 0 (by omega)).symm.trans hrst) Bool.false_ne_true

theorem lookCost_of_enabled {s : State} (h : s.build.deadlineEn = true) : lookCost s = 1 := if_pos h

/-- An expired deadline ends the iteration before its sample (rules R232, R240). -/
theorem poll_expired {s : State} (hr : s.NoResetFor 1) (hen : s.build.deadlineEn = true)
    (hexpired : s.passTime.deadlineExpired = true) :
    perform pollOnce s = .next (s.passTime.respond .timingViolation s.pollByte) := by
  have hcost := lookCost_of_enabled hen
  have hlook := lookDeadline_noReset (s := s) (by rwa [hcost])
  rw [hcost, hen, passTimes_succ, passTimes_zero, hexpired] at hlook
  exact perform_raised (by rw [pollOnce, andThen_ok hlook]; rfl)

/-- The iteration takes its sample: the device drives the lines, and neither a reset nor an expired deadline comes before it. -/
structure State.TakesSample (s : State) : Prop where
  direction : s.DirectionTrue
  deviceDrives : s.dir = .deviceDrives
  noReset : s.NoResetFor (lookCost s + 1)
  inTime : s.build.deadlineEn = true → s.passTime.deadlineExpired = false

/-- After an iteration that has sampled `v` and counted `p` mismatches so far (rule R188). -/
def State.afterPoll (s : State) (v : Byte) (p : Nat) : State :=
  { (s.passTimes (lookCost s + 1)).afterSample v with pollByte := v, polls := p }

/-- The look at the deadline and the sample, and then the judgement of the sample (rules R188, R240). -/
theorem State.TakesSample.pollOnce_eq {s : State} (h : s.TakesSample) :
    pollOnce s = judgeSample s.nextSample ((s.passTimes (lookCost s + 1)).afterSample s.nextSample) := by
  obtain ⟨hdirection, hdir, hr, hinTime⟩ := h
  have hlook := lookDeadline_noReset (noResetFor_mono hr (Nat.le_succ _))
  have hexpired : (s.build.deadlineEn && (s.passTimes (lookCost s)).deadlineExpired) = false := by
    cases hen : s.build.deadlineEn with
    | false => rfl
    | true => rw [lookCost_of_enabled hen]; exact hinTime hen
  have hsample := drd_ok (s := s.passTimes (lookCost s)) (passTimes_directionTrue hdirection _) (by rwa [passTimes_dir])
    (noResetFor_passTimes hr)
  rw [pollOnce, andThen_ok hlook, hexpired, if_neg Bool.false_ne_true, andThen_ok hsample, ← passTimes_succ']
  simp only [State.nextSample, State.addressLines, passTimes_qh, passTimes_ql, passTimes_draws]

theorem pollLimitReached_iff (limit : Option Nat) (p : Nat) :
    pollLimitReached limit p = true ↔ ∃ l, limit = some l ∧ l ≤ p := by
  cases limit with
  | none => simp [pollLimitReached]
  | some l => simp [pollLimitReached]

section
variable {s : State}

/-- A matching sample ends WAIT with OK. -/
theorem State.TakesSample.poll_match (h : s.TakesSample) (hmatch : s.nextSample.getLsbD 7 = s.pollBit) :
    perform pollOnce s = .next ((s.afterPoll s.nextSample s.polls).respond .ok 0x00#8) := by
  have hjudge := judgeSample_match (s := (s.passTimes (lookCost s + 1)).afterSample s.nextSample) (v := s.nextSample)
    (by simpa [pollMatches, State.afterSample] using hmatch)
  rw [perform_finished (h.pollOnce_eq.trans hjudge), State.afterPoll, State.afterSample, passTimes_polls]

/-- What a mismatching sample is judged by. -/
theorem State.TakesSample.pollOnce_mismatch (h : s.TakesSample) (hmismatch : s.nextSample.getLsbD 7 ≠ s.pollBit) :
    pollOnce s =
      if pollLimitReached s.build.pollLimit (s.polls + 1) then
        .raised .unexpectedToggleBit s.nextSample (s.afterPoll s.nextSample (s.polls + 1))
      else .ok .polling (s.afterPoll s.nextSample (s.polls + 1)) := by
  rw [h.pollOnce_eq, judgeSample, if_neg (by simpa [pollMatches, State.afterSample] using hmismatch)]
  simp only [State.afterSample, State.afterPoll, passTimes_build, passTimes_polls]
  rfl

/-- A mismatching sample at the limit ends WAIT with UnexpectedToggleBit (rule R234). -/
theorem State.TakesSample.poll_limit (h : s.TakesSample) (hmismatch : s.nextSample.getLsbD 7 ≠ s.pollBit)
    (hlimit : ∃ l, s.build.pollLimit = some l ∧ l ≤ s.polls + 1) :
    perform pollOnce s =
      .next ((s.afterPoll s.nextSample (s.polls + 1)).respond .unexpectedToggleBit s.nextSample) := by
  rw [← pollLimitReached_iff] at hlimit
  exact perform_raised ((h.pollOnce_mismatch hmismatch).trans (if_pos hlimit))

/-- A mismatching sample before the limit is followed by the next iteration (rules R188, R189). -/
theorem State.TakesSample.poll_on (h : s.TakesSample) (hmismatch : s.nextSample.getLsbD 7 ≠ s.pollBit)
    (hlimit : ∀ l, s.build.pollLimit = some l → s.polls + 1 < l) :
    perform pollOnce s = .next { s.afterPoll s.nextSample (s.polls + 1) with busy := true } := by
  refine perform_polling ((h.pollOnce_mismatch hmismatch).trans (if_neg fun hreached => ?_))
  obtain ⟨l, hl, hle⟩ := (pollLimitReached_iff _ _).mp hreached
  exact absurd (hlimit l hl) (Nat.not_lt.mpr hle)

end

/-! ## A later iteration -/

/-- Settles O17: the ends of an iteration, from a WAIT in progress. -/
theorem pollIterationFollowsTheLoop : Obligations.PollIterationFollowsTheLoop := by
  unfold Obligations.PollIterationFollowsTheLoop
  refine ⟨fun s hbusy hen hr hexpired => ?_, fun s m v hbusy hdir hdirection hr hinTime hm hv => ?_⟩
  · rw [step_of_busy hbusy]
    exact poll_expired hr hen hexpired
  · have hsamples : s.TakesSample := ⟨hdirection, hdir, hr, hinTime⟩
    subst hm
    obtain rfl : v = s.nextSample := hv
    rw [step_of_busy hbusy]
    refine ⟨fun hmatch => ?_, fun hmismatch hlimit => hsamples.poll_limit hmismatch hlimit, fun hmismatch hlimit => ?_⟩
    · refine (hsamples.poll_match hmatch).trans ?_
      simp only [State.afterPoll, State.afterSample, passTimes_polls]
    · refine (hsamples.poll_on hmismatch hlimit).trans ?_
      simp only [State.afterPoll, State.afterSample, passTimes_busy, hbusy]

/-! ## The first iteration -/

theorem waitStart_passTimes (s : State) (n : Nat) : (s.passTimes n).waitStart = s.waitStart.passTimes n := by
  induction n generalizing s with
  | zero => rfl
  | succ n ih =>
    have hone : s.passTime.waitStart = s.waitStart.passTime := by
      have hsetd : s.passTime.afterSetd .deviceDrives = (s.afterSetd .deviceDrives).passTime := afterSetd_passTimes s 1 _
      rw [State.waitStart, hsetd]
      rfl
    rw [passTimes_succ, ih, hone, ← passTimes_succ]

theorem afterSetd_rspValid (s : State) (m : Direction) : (s.afterSetd m).rspValid = s.rspValid := by
  unfold State.afterSetd
  split
  · rfl
  · cases m <;> rfl

/-- The start of a WAIT moves the pins of SETD and the variables of the loop only (rules R161, R188). -/
theorem waitStart_fields (s : State) :
    s.waitStart.addressLines = s.addressLines ∧ s.waitStart.pollBit = s.pollBit ∧ s.waitStart.draws = s.draws ∧
    s.waitStart.build = s.build ∧ s.waitStart.trace = s.trace ++ setdEvents s .deviceDrives ∧
    s.waitStart.rspValid = s.rspValid := by
  obtain ⟨_, _, hql, hqh, _, _, _, _, hbit, _, _, _, _, _, _, hbuild, hdraws⟩ := afterSetd_fields s .deviceDrives
  exact ⟨by simp only [State.waitStart, State.addressLines, hql, hqh], hbit, hdraws, hbuild, afterSetd_trace s _,
    afterSetd_rspValid s _⟩

/-- The state in which the first iteration of a WAIT begins: the bus is turned, the loop's variables are set. -/
def State.loopStart (s : State) : State := (s.passTimes (setdCost s .deviceDrives)).waitStart

/-- WAIT is its start and then its first iteration, if no reset comes while the bus is turned (rule R188). -/
theorem exec_wait_start {s : State} (hr : s.NoResetFor (setdCost s .deviceDrives)) :
    exec .wait s = perform pollOnce s.loopStart := by
  have hsetd := (setd_runs s .deviceDrives).ends (by rwa [setdEvents_length])
  have hstart : inOrder [setd .deviceDrives, startPolling] s = .ok () s.loopStart := by
    rw [inOrder_cons, andThen_ok hsetd, inOrder_single]
    rfl
  rw [exec_eq_perform, operation, wait, perform_andThen_ok hstart]

/-- The slots of the first iteration may be taken before the start. -/
theorem loopStart_passTimes (s : State) (n : Nat) :
    s.loopStart.passTimes n = (s.passTimes (setdCost s .deviceDrives + n)).waitStart := by
  rw [State.loopStart, ← waitStart_passTimes, passTimes_add]

theorem loopStart_build (s : State) : s.loopStart.build = s.build := by
  obtain ⟨_, _, _, hbuild, _⟩ := waitStart_fields (s.passTimes (setdCost s .deviceDrives))
  rw [State.loopStart, hbuild, passTimes_build]

theorem lookCost_loopStart (s : State) : lookCost s.loopStart = lookCost s := by rw [lookCost, loopStart_build, lookCost]

theorem loopStart_pollBit (s : State) : s.loopStart.pollBit = s.pollBit := by
  obtain ⟨_, hbit, _⟩ := waitStart_fields (s.passTimes (setdCost s .deviceDrives))
  rw [State.loopStart, hbit, passTimes_pollBit]

/-- The slots that hold no reset before the start hold none after it. -/
theorem loopStart_noResetFor {s : State} {n : Nat} (hr : s.NoResetFor (setdCost s .deviceDrives + n)) :
    s.loopStart.NoResetFor n :=
  (noResetFor_congr (agreesOutside_waitStart _).env n).mpr (noResetFor_passTimes hr)

/-- A WAIT that neither a reset nor an expired deadline stops takes its first sample (rules R188, R240). -/
theorem loopStart_takesSample {s : State} (hd : s.DirectionTrue)
    (hr : s.NoResetFor (setdCost s .deviceDrives + lookCost s + 1))
    (hinTime : s.build.deadlineEn = true → (s.passTimes (setdCost s .deviceDrives + 1)).deadlineExpired = false) :
    s.loopStart.TakesSample where
  direction := afterSetd_directionTrue (passTimes_directionTrue hd _) _
  deviceDrives := afterSetd_dir _ _
  noReset := by rw [lookCost_loopStart]; exact loopStart_noResetFor hr
  inTime hen := by
    rw [loopStart_build] at hen
    have hlook : s.loopStart.passTime = (s.passTimes (setdCost s .deviceDrives + 1)).waitStart := loopStart_passTimes s 1
    rw [hlook, (agreesOutside_waitStart _).deadline, hinTime hen]

/-- The first sample of a WAIT, and the state after the slots up to it. -/
theorem loopStart_sample (s : State) {n : Nat} (hn : n = setdCost s .deviceDrives + lookCost s + 1) :
    s.loopStart.nextSample = (s.passTimes n).dev.read s.addressLines s.draws ∧
    ∀ v p, s.loopStart.afterPoll v p = { ((s.passTimes n).waitStart).afterSample v with pollByte := v, polls := p } := by
  have htime : s.loopStart.passTimes (lookCost s.loopStart + 1) = (s.passTimes n).waitStart := by
    rw [lookCost_loopStart, loopStart_passTimes, hn, Nat.add_assoc]
  obtain ⟨hlines, _, hdraws, _⟩ := waitStart_fields (s.passTimes (setdCost s .deviceDrives))
  refine ⟨?_, fun v p => by rw [State.afterPoll, htime]⟩
  rw [State.nextSample, htime, (agreesOutside_waitStart _).dev, State.loopStart, hlines, hdraws, passTimes_draws]
  simp only [State.addressLines, passTimes_qh, passTimes_ql]

/-- Settles O60: the ends of an iteration, from the start of the loop. -/
theorem firstIterationOfWaitFollowsTheLoop : Obligations.FirstIterationOfWaitFollowsTheLoop := by
  unfold Obligations.FirstIterationOfWaitFollowsTheLoop
  refine ⟨fun s c hc hen hr hexpired => ?_, fun s m c n v hd hc hn hr hinTime hm hv => ?_⟩
  · subst hc
    have hlook : s.loopStart.passTime = (s.passTimes (setdCost s .deviceDrives + 1)).waitStart := loopStart_passTimes s 1
    have hpoll := poll_expired (loopStart_noResetFor hr) (by rwa [loopStart_build])
      (by rw [hlook, (agreesOutside_waitStart _).deadline, hexpired])
    rw [exec_wait_start (noResetFor_mono hr (Nat.le_succ _)), hpoll, hlook, ← setdEvents_passTimes s (setdCost s .deviceDrives + 1),
      ← passTimes_trace s (setdCost s .deviceDrives + 1), ← afterSetd_trace]
    rfl
  · subst hc hm
    have hsamples := loopStart_takesSample hd (by rwa [← hn]) hinTime
    obtain ⟨hsample, hafter⟩ := loopStart_sample s hn
    obtain rfl : v = s.loopStart.nextSample := hv.trans hsample.symm
    rw [exec_wait_start (noResetFor_mono hr (by omega)), ← loopStart_pollBit s, ← loopStart_build s]
    refine ⟨fun hmatch => ?_, fun hmismatch hlimit => ?_, fun hmismatch hlimit => ?_⟩
    · rw [hsamples.poll_match hmatch, hafter]
      rfl
    · rw [hsamples.poll_limit hmismatch hlimit, hafter]
      rfl
    · rw [hsamples.poll_on hmismatch hlimit, hafter]
      rfl

/-- Settles O16: the first iteration with a matching sample, its end state written out. -/
theorem waitEndsAtAMatchingFirstSample : Obligations.WaitEndsAtAMatchingFirstSample := by
  unfold Obligations.WaitEndsAtAMatchingFirstSample
  intro s n v hd hn hr hinTime hv hmatch
  obtain ⟨_, hfirst⟩ := firstIterationOfWaitFollowsTheLoop
  obtain ⟨hend, _⟩ := hfirst s _ _ n v hd rfl hn hr hinTime rfl hv
  obtain ⟨_, _, hdraws, _, htrace, _⟩ := waitStart_fields (s.passTimes n)
  rw [passTimes_draws] at hdraws
  rw [passTimes_trace, setdEvents_passTimes] at htrace
  rw [hend hmatch, ← hdraws, ← htrace]
  rfl

end Sys2Proof.Machine
end

section
/-! SUPPORT. The family of 42_cyclecontroller.md, third part: a WAIT of any number of iterations in a build without a deadline (rules R188,
R189, R234), and what it shows of a blocked write (rules R192, R274). -/

namespace Sys2Proof.Machine

/-! ## The course of a WAIT -/

/-- `u` is reached from `s` by a WAIT that has taken the samples `vs`: each is what the device drove after some slots. -/
structure State.HasSampled (s : State) (vs : List Byte) (u : State) : Prop where
  samples : ∀ v ∈ vs, ∃ k draw, v = (s.passTimes k).dev.read s.addressLines draw
  trace : u.trace = s.trace ++ (setdEvents s .deviceDrives ++ vs.map .sample)

/-- A WAIT begun in `s` is about to take its next sample in `u`, those in `vs` having mismatched. -/
structure State.PollsAfter (s : State) (vs : List Byte) (u : State) : Prop extends s.HasSampled vs u where
  direction : u.DirectionTrue
  deviceDrives : u.dir = .deviceDrives
  neverReset : u.NeverReset
  slots : ∃ k, AgreesOutside (s.passTimes k) u
  lines : u.addressLines = s.addressLines
  pollBit : u.pollBit = s.pollBit
  polls : u.polls = vs.length
  rspValid : u.rspValid = s.rspValid

/-- How a WAIT begun in `s` stands in `t` when it has sampled `v` after the samples `vs`, which mismatched (rule R188). -/
inductive State.StandsAt (s : State) (vs : List Byte) (v : Byte) (t : State) : Prop
  /-- A match has ended it with OK. -/
  | matched (hmatch : v.getLsbD 7 = s.pollBit) (hended : t.busy = false) (hvalid : t.rspValid = true)
      (hpolls : t.polls = vs.length) (hrsp : t.rspWord = responseWord .ok 0x00#8)
  /-- A mismatch at the limit has ended it with UnexpectedToggleBit. -/
  | limited (hmismatch : v.getLsbD 7 ≠ s.pollBit) (hlimit : ∃ l, s.build.pollLimit = some l ∧ l ≤ vs.length + 1)
      (hended : t.busy = false) (hvalid : t.rspValid = true) (hpolls : t.polls = vs.length + 1)
      (hrsp : t.rspWord = responseWord .unexpectedToggleBit v)
  /-- It polls on. -/
  | polling (hmismatch : v.getLsbD 7 ≠ s.pollBit) (hlimit : ∀ l, s.build.pollLimit = some l → vs.length + 1 < l)
      (hbusy : t.busy = true) (hpolls : s.PollsAfter (vs ++ [v]) t)

section
variable {s u : State} {vs : List Byte}

/-- The sample of the next iteration, and the trace with it. -/
theorem State.PollsAfter.hasSampled (h : s.PollsAfter vs u) {t : State}
    (ht : t.trace = (u.afterPoll u.nextSample u.polls).trace) : s.HasSampled (vs ++ [u.nextSample]) t := by
  obtain ⟨k, hagree⟩ := h.slots
  refine ⟨fun w hw => ?_, ?_⟩
  · rcases List.mem_append.mp hw with hw | hw
    · exact h.samples w hw
    · obtain rfl := List.mem_singleton.mp hw
      refine ⟨k + (lookCost u + 1), u.draws, ?_⟩
      rw [State.nextSample, (hagree.passTimes _).dev, ← passTimes_add, h.lines]
  · simp only [ht, State.afterPoll, State.afterSample, passTimes_trace, h.trace, List.map_append, List.map_singleton,
      List.append_assoc]

/-- An iteration that goes on moves the trace, the counter of draws and the loop's variables only. -/
theorem afterPoll_fields (u : State) (v : Byte) (p : Nat) :
    AgreesOutside (u.passTimes (lookCost u + 1)) { u.afterPoll v p with busy := true } ∧
    (u.DirectionTrue → State.DirectionTrue { u.afterPoll v p with busy := true }) ∧ (u.afterPoll v p).dir = u.dir ∧
    (u.afterPoll v p).addressLines = u.addressLines ∧ (u.afterPoll v p).pollBit = u.pollBit ∧
    (u.afterPoll v p).rspValid = u.rspValid := by
  have hd := fun h : u.DirectionTrue => passTimes_directionTrue h (lookCost u + 1)
  have hdir := passTimes_dir u (lookCost u + 1)
  have hql := passTimes_ql u (lookCost u + 1)
  have hqh := passTimes_qh u (lookCost u + 1)
  have hbit := passTimes_pollBit u (lookCost u + 1)
  have hvalid := passTimes_rspValid u (lookCost u + 1)
  unfold State.afterPoll
  generalize u.passTimes (lookCost u + 1) = x at *
  exact ⟨⟨rfl, rfl, rfl, rfl, rfl, rfl, [.sample v], rfl⟩, hd, hdir, congrArg₂ joinLines hqh hql, hbit, hvalid⟩

/-- After an iteration that goes on, WAIT is about to take its next sample. -/
theorem State.PollsAfter.again (h : s.PollsAfter vs u) :
    s.PollsAfter (vs ++ [u.nextSample]) { u.afterPoll u.nextSample (u.polls + 1) with busy := true } := by
  have hsampled := h.hasSampled (t := { u.afterPoll u.nextSample (u.polls + 1) with busy := true }) rfl
  obtain ⟨hagree, hd, hdir, hlines, hbit, hvalid⟩ := afterPoll_fields u u.nextSample (u.polls + 1)
  obtain ⟨k, hslots⟩ := h.slots
  refine ⟨hsampled, hd h.direction, hdir.trans h.deviceDrives, fun x hx => ?_, ⟨_, hslots.after hagree⟩, hlines.trans h.lines,
    hbit.trans h.pollBit, ?_, hvalid.trans h.rspValid⟩
  · rw [hagree.env, passTimes_env] at hx
    exact h.neverReset x (List.mem_of_mem_drop hx)
  · rw [List.length_append, ← h.polls]
    rfl

/-- The next iteration of a WAIT in a build without a deadline: one more sample, and how the WAIT stands then. -/
theorem State.PollsAfter.poll (h : s.PollsAfter vs u) (hen : s.build.deadlineEn = false) :
    ∃ v t, perform pollOnce u = .next t ∧ s.HasSampled (vs ++ [v]) t ∧ s.StandsAt vs v t := by
  obtain ⟨k, hagree⟩ := h.slots
  have hbuild : u.build = s.build := hagree.build.trans (passTimes_build s k)
  have hsamples : u.TakesSample := ⟨h.direction, h.deviceDrives, noResetFor_of_neverReset h.neverReset _,
    fun hon => absurd (hen.symm.trans ((congrArg Build.deadlineEn hbuild).symm.trans hon)) Bool.false_ne_true⟩
  by_cases hmatch : u.nextSample.getLsbD 7 = u.pollBit
  · exact ⟨_, _, hsamples.poll_match hmatch, h.hasSampled rfl, .matched (hmatch.trans h.pollBit) rfl rfl h.polls rfl⟩
  · have hmismatch := hmatch
    rw [h.pollBit] at hmismatch
    by_cases hlimit : ∃ l, u.build.pollLimit = some l ∧ l ≤ u.polls + 1
    · have hpoll := hsamples.poll_limit hmatch hlimit
      rw [hbuild, h.polls] at hlimit
      exact ⟨_, _, hpoll, h.hasSampled rfl,
        .limited hmismatch hlimit rfl rfl (congrArg (· + 1) h.polls) rfl⟩
    · push Not at hlimit
      have hpoll := hsamples.poll_on hmatch hlimit
      rw [hbuild, h.polls] at hlimit
      exact ⟨_, _, hpoll, h.hasSampled rfl, .polling hmismatch hlimit rfl h.again⟩

end

/-- At its start a WAIT has taken no sample. -/
theorem loopStart_pollsAfter {s : State} (hd : s.DirectionTrue) (hr : s.NeverReset) : s.PollsAfter [] s.loopStart where
  samples v hv := absurd hv List.not_mem_nil
  trace := by
    obtain ⟨_, _, _, _, htrace, _⟩ := waitStart_fields (s.passTimes (setdCost s .deviceDrives))
    rw [State.loopStart, htrace, passTimes_trace, setdEvents_passTimes, List.map_nil, List.append_nil]
  direction := afterSetd_directionTrue (passTimes_directionTrue hd _) _
  deviceDrives := afterSetd_dir _ _
  neverReset x hx := by
    rw [State.loopStart, (agreesOutside_waitStart _).env, passTimes_env] at hx
    exact hr x (List.mem_of_mem_drop hx)
  slots := ⟨_, agreesOutside_waitStart _⟩
  lines := by
    obtain ⟨hlines, _⟩ := waitStart_fields (s.passTimes (setdCost s .deviceDrives))
    rw [State.loopStart, hlines]
    simp only [State.addressLines, passTimes_qh, passTimes_ql]
  pollBit := loopStart_pollBit s
  polls := rfl
  rspValid := by
    obtain ⟨_, _, _, _, _, hvalid⟩ := waitStart_fields (s.passTimes (setdCost s .deviceDrives))
    rw [State.loopStart, hvalid, passTimes_rspValid]

/-- One more poll at the end of a run of them. -/
theorem pollOn_succ {n : Nat} : ∀ {s t : State}, pollOn n s = .next t → pollOn (n + 1) s = pollOn 1 t := by
  induction n with
  | zero =>
    intro s t h
    rw [Host.Outcome.next.inj h]
  | succ n ih =>
    intro s t h
    cases hbusy : s.busy with
    | false =>
      rw [pollOn_of_not_busy hbusy, Host.Outcome.next.injEq] at h
      rw [← h, pollOn_of_not_busy hbusy, pollOn_of_not_busy hbusy]
    | true =>
      rw [pollOn, if_pos hbusy] at h ⊢
      cases hstep : step s with
      | next u => rw [hstep] at h; exact ih h
      | fault f => rw [hstep] at h; cases h
      | refused r => rw [hstep] at h; cases h

theorem waitFor_succ {n : Nat} {s t : State} (h : waitFor n s = .next t) : waitFor (n + 1) s = pollOn 1 t := by
  unfold waitFor at h ⊢
  cases hexec : exec .wait s with
  | next u => rw [hexec] at h; exact pollOn_succ h
  | fault f => rw [hexec] at h; cases h
  | refused r => rw [hexec] at h; cases h

theorem waitFor_zero (s : State) : waitFor 0 s = exec .wait s := by
  unfold waitFor
  cases exec .wait s <;> rfl

theorem pollOn_one {s u : State} (hbusy : s.busy = true) (h : perform pollOnce s = .next u) : pollOn 1 s = .next u := by
  have hstep : step s = .next u := (step_of_busy hbusy).trans h
  rw [pollOn, if_pos hbusy, hstep]
  rfl

/-- Everything a WAIT can have come to after its first iteration and at most `n` more, in a build without a deadline and where no reset
comes: it never stops, and while it is in progress it takes one sample per iteration (rules R188, R189, R234). -/
theorem waitFor_cases {s : State} (hd : s.DirectionTrue) (hr : s.NeverReset) (hen : s.build.deadlineEn = false) (n : Nat) :
    ∃ vs v t, waitFor n s = .next t ∧ s.HasSampled (vs ++ [v]) t ∧ s.StandsAt vs v t ∧ vs.length ≤ n ∧
      (t.busy = true → vs.length = n) := by
  induction n with
  | zero =>
    obtain ⟨v, t, hpoll, hsampled, hstands⟩ := (loopStart_pollsAfter hd hr).poll hen
    refine ⟨[], v, t, ?_, hsampled, hstands, le_rfl, fun _ => rfl⟩
    rw [waitFor_zero, exec_wait_start (noResetFor_of_neverReset hr _), hpoll]
  | succ n ih =>
    obtain ⟨vs, v, t, hwait, hsampled, hstands, hle, hlength⟩ := ih
    have hnext := waitFor_succ hwait
    cases hbusy : t.busy with
    | false =>
      rw [pollOn_of_not_busy hbusy] at hnext
      exact ⟨vs, v, t, hnext, hsampled, hstands, Nat.le_succ_of_le hle, fun h => absurd (hbusy.symm.trans h) Bool.false_ne_true⟩
    | true =>
      have hcount : (vs ++ [v]).length = n + 1 := by rw [List.length_append, hlength hbusy]; rfl
      cases hstands with
      | matched _ hended => exact absurd (hended.symm.trans hbusy) Bool.false_ne_true
      | limited _ _ hended => exact absurd (hended.symm.trans hbusy) Bool.false_ne_true
      | polling _ _ _ hpolls =>
        obtain ⟨w, x, hpoll, hsampled', hstands'⟩ := hpolls.poll hen
        exact ⟨vs ++ [v], w, x, hnext.trans (pollOn_one hbusy hpoll), hsampled', hstands', hcount.le, fun _ => hcount⟩

/-! ## The samples as the trace shows them -/

theorem State.HasSampled.newEvents {s t : State} {vs : List Byte} (h : s.HasSampled vs t) :
    newEvents s t = setdEvents s .deviceDrives ++ vs.map .sample := by
  rw [Machine.newEvents, h.trace, List.drop_left]

/-- Where all samples mismatch, the last one does. -/
theorem State.HasSampled.last_mismatch {s t : State} {vs : List Byte} {v : Byte} (h : s.HasSampled (vs ++ [v]) t)
    (hmismatch : s.SamplesMismatch t) : v.getLsbD 7 ≠ s.pollBit :=
  hmismatch v (by simp [h.newEvents])

/-- In a build without bounds a WAIT has ended with OK on a match, or has counted a mismatch per iteration and polls on (rule R189). -/
theorem waitFor_unbounded {s : State} (hd : s.DirectionTrue) (hr : s.NeverReset) (hb : s.Unbounded) (n : Nat) :
    ∃ vs v t, waitFor n s = .next t ∧ s.HasSampled (vs ++ [v]) t ∧
      ((v.getLsbD 7 = s.pollBit ∧ t.busy = false ∧ t.polls ≤ n ∧ t.rspWord = responseWord .ok 0x00#8) ∨
       (v.getLsbD 7 ≠ s.pollBit ∧ t.busy = true ∧ t.polls = n + 1 ∧ t.rspValid = s.rspValid)) := by
  obtain ⟨hlimit, hen⟩ := hb
  obtain ⟨vs, v, t, hwait, hsampled, hstands, hle, hlength⟩ := waitFor_cases hd hr hen n
  refine ⟨vs, v, t, hwait, hsampled, ?_⟩
  cases hstands with
  | matched hmatch hbusy _ hpolls hrsp =>
    exact .inl ⟨hmatch, hbusy, hpolls.trans_le hle, hrsp⟩
  | limited _ hreached =>
    obtain ⟨l, hl, _⟩ := hreached
    rw [hlimit] at hl
    cases hl
  | polling hmismatch _ hbusy hpolls =>
    refine .inr ⟨hmismatch, hbusy, ?_, hpolls.rspValid⟩
    rw [hpolls.polls, List.length_append, hlength hbusy]
    rfl

/-- Settles O18: without bounds only a match ends a WAIT. -/
theorem unboundedWaitNeverEnds : Obligations.UnboundedWaitNeverEnds := by
  unfold Obligations.UnboundedWaitNeverEnds
  intro n s hd hr hlimit hen
  obtain ⟨vs, v, t, hwait, hsampled, hends⟩ := waitFor_unbounded hd hr ⟨hlimit, hen⟩ n
  refine ⟨t, hwait, fun hmismatch => ?_⟩
  rcases hends with ⟨hmatch, _⟩ | ⟨_, hbusy, hpolls, hvalid⟩
  · exact absurd hmatch (hsampled.last_mismatch hmismatch)
  · exact ⟨hbusy, by rw [State.cmdReady, hbusy]; rfl, hpolls, hvalid⟩

/-- Settles O19: a WAIT in progress after `l + 1` polls would be at its limit. -/
theorem pollLimitRaisesUnexpectedToggleBit : Obligations.PollLimitRaisesUnexpectedToggleBit := by
  unfold Obligations.PollLimitRaisesUnexpectedToggleBit
  intro l s hd hr hlimit hen
  obtain ⟨vs, v, t, hwait, hsampled, hstands, hle, hlength⟩ := waitFor_cases hd hr hen l
  refine ⟨t, hwait, ?_⟩
  cases hstands with
  | matched hmatch hbusy hvalid =>
    exact ⟨hbusy, hvalid, fun hmismatch => absurd hmatch (hsampled.last_mismatch hmismatch)⟩
  | limited _ hreached hbusy hvalid hpolls hrsp =>
    obtain ⟨l', hl', hle'⟩ := hreached
    obtain rfl : l + 1 = l' := Option.some.inj (hlimit.symm.trans hl')
    have hcount : vs.length = l := Nat.le_antisymm hle (Nat.le_of_succ_le_succ hle')
    exact ⟨hbusy, hvalid, fun _ => ⟨vs, v, hcount, by rw [hpolls, hcount], hsampled.newEvents, hrsp⟩⟩
  | polling _ hbelow hbusy _ =>
    have hcount := hlength hbusy
    exact absurd (hbelow (l + 1) hlimit) (by omega)

/-! ## A blocked write -/

/-- A protected device that is not Programming and has nothing pending does not store the byte, and from then on drives the old cell
(rules R73, R76). -/
theorem read_after_blocked {s u : State} {a : Addr} {d : Byte} (hkind : s.dev.kind = .reference)
    (hphase : s.dev.phase ≠ .programming) (hpending : s.dev.pending = false) (hon : s.dev.sdp = true)
    (hdev : u.dev = s.dev.writePulse a d) (k draw : Nat) :
    (u.passTimes k).dev.read a draw = Memory.read s.dev.mem a.toNat := by
  obtain ⟨hloading, _, hpend, _⟩ := writePulse_fields hphase a d
  rw [hon, if_pos rfl] at hpend
  rw [← hdev] at hloading hpend
  obtain ⟨hquiet, _⟩ := passTimes_nothing_pending (hpend.trans hpending) (by rw [hloading]; exact Phase.noConfusion) k
  have hkind' : (u.passTimes k).dev.kind = .reference := by rw [passTimes_kind, hdev, writePulse_kind, hkind]
  rw [(busyReadsInvertTheTopBit _ a draw hkind').2 (.inl hquiet), passTimes_mem, hdev, writePulse_mem_of_latched hon]

/-- WRB before an idle device where no reset comes: it is answered OK, the device has seen the pulse, and a WAIT after it looks at the
cell written and compares with the byte's top bit (rules R182, R192). -/
theorem exec_wrb_idle {s : State} (hs : s.AtBoundary) (hr : s.NeverReset) (hidle : s.dev.phase = .idle) (a : Addr) (d : Byte) :
    ∃ t, exec (.wrb a d) s = .next t ∧ t.rspWord = responseWord .ok 0x00#8 ∧ t.dev = s.dev.writePulse a d ∧
      t.DirectionTrue ∧ t.NeverReset ∧ t.addressLines = a ∧ t.pollBit = d.getLsbD 7 ∧ t.build = s.build := by
  have hexec := exec_wrb_eq hs hr a d
  have hr' := exec_keeps neverReset_keptByStep hr hexec
  have hdev : (s.afterWrb a d).dev = s.dev.writePulse a d := by rw [afterWrb_dev, passTimes_dev_idle hidle]
  obtain ⟨haddress, _⟩ := afterWrb_carries hs a d
  obtain ⟨_, hbit, _, _, _, _, _, hbuild, _⟩ := afterWrb_fields s a d
  obtain ⟨hlines, hdirection, hcache⟩ := hs
  obtain ⟨_, hdirection', _⟩ := afterWrb_ready hlines hdirection hcache a d
  generalize s.afterWrb a d = x at *
  exact ⟨_, hexec, rfl, hdev, hdirection', hr', haddress, hbit, hbuild⟩

/-- Settles O20: the WAIT after the blocked write samples the old cell and nothing else. -/
theorem blockedWriteShowsOnlyInTheWait : Obligations.BlockedWriteShowsOnlyInTheWait := by
  unfold Obligations.BlockedWriteShowsOnlyInTheWait
  intro n s a d hs hr hbase hkind hidle hon
  obtain ⟨s1, hexec, hrsp, hdev, hd1, hr1, hlines, hbit, hbuild⟩ := exec_wrb_idle hs.atBoundary hr hidle a d
  obtain ⟨_, _, _, ⟨hatRest, _⟩, _⟩ := hs
  obtain ⟨hpending, _⟩ := hatRest hidle
  have hphase : s.dev.phase ≠ .programming := by rw [hidle]; exact Phase.noConfusion
  have hrun := waitFor_unbounded hd1 hr1 (by rw [State.Unbounded, hbuild, hbase]; exact ⟨rfl, rfl⟩)
  have hsees : ∀ {vs v t}, s1.HasSampled (vs ++ [v]) t → v = Memory.read s.dev.mem a.toNat := by
    intro vs v t hsampled
    obtain ⟨k, draw, hv⟩ := hsampled.samples v (by simp)
    rw [hv, hlines]
    exact read_after_blocked hkind hphase hpending hon hdev k draw
  refine ⟨s1, hexec, hrsp, by rw [hdev, writePulse_mem_of_latched hon], fun hdiffers => ?_, fun hsame => ?_⟩
  · obtain ⟨vs, v, t, hwait, hsampled, ⟨hmatch, _⟩ | ⟨_, hbusy, hpolls, _⟩⟩ := hrun n
    · rw [hsees hsampled, hbit] at hmatch
      exact absurd hmatch hdiffers
    · exact ⟨t, hwait, hbusy, hpolls⟩
  · obtain ⟨vs, v, t, hwait, hsampled, ⟨_, hbusy, hpolls, hrsp'⟩ | ⟨hmismatch, _⟩⟩ := hrun 0
    · exact ⟨t, (waitFor_zero _).symm.trans hwait, hbusy, Nat.le_zero.mp hpolls, hrsp'⟩
    · rw [hsees hsampled, hbit] at hmismatch
      exact absurd hsame hmismatch

end Sys2Proof.Machine
end

section
/-! SUPPORT. The family of 43_protectionsequencer.md, first part: SDPD and SDPE where no reset comes, their closed form, end state and
costs (rules R200 to R203, R205, R208). -/

namespace Sys2Proof.Machine

/-! ## The closed form (rules R200, R201, R208) -/

/-- Settles O22: where no reset comes, a sequence is its writes and the look (`perform_sequence`). -/
theorem sdpSequencesAreTheirWrites : Obligations.SdpSequencesAreTheirWrites := by
  unfold Obligations.SdpSequencesAreTheirWrites
  refine ⟨fun s hs hr => ?_, fun s hs hr => ?_⟩ <;> rw [writesCost_sq] at hr
  · exact perform_sequence hs.atBoundary sdpDisableWrites 0x06#8 hr
  · exact perform_sequence hs.atBoundary sdpEnableWrites 0x03#8 hr

/-! ## The block after the writes -/

/-- The block after `(a, d)` has been written on the full path: the whole address in both stages and in the cache, the host driving
the byte, no pulse open. -/
def State.HasWritten (t : State) (a : Addr) (d : Byte) : Prop :=
  t.addressLines = a ∧ t.ql = lowByte a ∧ t.sl = lowByte a ∧ t.qh = highByte a ∧ t.sh = highByte a ∧
  t.lastHigh = highByte a ∧ t.lastHighValid = true ∧ t.dir = .hostDrives ∧ t.ddir = .outputs ∧ t.oeN = true ∧
  t.dout = d ∧ t.pollBit = d.getLsbD 7 ∧ t.weN = true

/-- WRB on the full path (rules R144, R182). -/
theorem afterWrb_hasWritten {s : State} (hs : s.AtBoundary) {a : Addr} (hfull : skipsHigh s a = false) (d : Byte) :
    (s.afterWrb a d).HasWritten a d := by
  obtain ⟨haddress, hsl, hql⟩ := afterWrb_carries hs a d
  obtain ⟨_, _, hsh, hqh, hhigh, hvalid⟩ := afterWrb_chain s a d
  rw [hfull, if_neg Bool.false_ne_true] at hsh hqh
  obtain ⟨hdout, hbit, hdir, _⟩ := afterWrb_fields s a d
  obtain ⟨hlines, hdirection, hcache⟩ := hs
  obtain ⟨⟨_, _, _, hwe⟩, ⟨hhost, _⟩, _⟩ := afterWrb_ready hlines hdirection hcache a d
  obtain ⟨hddir, hoe⟩ := hhost.mp hdir
  exact ⟨haddress, hql, hsl, hqh, hsh, hhigh, hvalid, hdir, hddir, hoe, hdout, hbit, hwe⟩

theorem hasWritten_sq {s : State} {a : Addr} {d : Byte} (h : s.HasWritten a d) (n : Fin 7) :
    State.HasWritten { s with sq := n } a d := h

theorem hasWritten_respond {s : State} {a : Addr} {d : Byte} (h : s.HasWritten a d) (st : Status) (v : Byte) :
    (s.respond st v).HasWritten a d := h

theorem hasWritten_passTimes {s : State} {a : Addr} {d : Byte} (h : s.HasWritten a d) (n : Nat) :
    (s.passTimes n).HasWritten a d := by
  rw [passTimes_eq]
  exact h

/-- After a write to another high byte the last write takes the full path (rules R145, R202). -/
theorem afterWrites_hasWritten {v w : Addr × Byte} (hhigh : highByte v.1 ≠ highByte w.1) (ws : List (Addr × Byte)) :
    ∀ {s : State} (done : Fin 7), s.AtBoundary → (s.afterWrites done (ws ++ [v, w])).HasWritten w.1 w.2 := by
  induction ws with
  | nil =>
    intro s done hs
    obtain ⟨hlines, hdir, hcache⟩ := hs
    have hfull : skipsHigh (s.afterWrb v.1 v.2) w.1 = false := by
      obtain ⟨_, _, _, _, hlast, _⟩ := afterWrb_chain s v.1 v.2
      exact (skipsHigh_eq_false_iff _ _).mpr (.inr (by rwa [hlast]))
    have hready : (s.afterWrb v.1 v.2).AtBoundary := afterWrb_ready hlines hdir hcache v.1 v.2
    rw [List.nil_append, State.afterWrites, State.afterWrites, State.afterWrites]
    generalize s.afterWrb v.1 v.2 = x at *
    exact hasWritten_sq (afterWrb_hasWritten (s := { x with sq := done + 1 }) hready hfull w.2) _
  | cons x rest ih =>
    intro s done hs
    obtain ⟨hlines, hdir, hcache⟩ := hs
    exact ih _ (atBoundary_sq (afterWrb_ready hlines hdir hcache x.1 x.2) _)

/-- `sq` counts the writes (rule R201). -/
theorem afterWrites_sq (ws : List (Addr × Byte)) : ∀ {s : State} {done : Fin 7}, s.sq = done →
    (s.afterWrites done ws).sq = done + Fin.ofNat 7 ws.length := by
  induction ws with
  | nil => intro s done h; exact h.trans (Fin.add_zero done).symm
  | cons w rest ih =>
    intro s done _
    have hrest := ih (s := { s.afterWrb w.1 w.2 with sq := done + 1 }) rfl
    have hcount : done + 1 + Fin.ofNat 7 rest.length = done + Fin.ofNat 7 (rest.length + 1) := by
      apply Fin.ext
      simp only [Fin.val_add, Fin.val_ofNat]
      omega
    exact hrest.trans hcount

/-! ## The block after the look -/

/-- The response of a sequence (rules R208, R232). -/
theorem afterSequence_rspWord (s : State) (info : Byte) : (s.afterSequence info).rspWord =
    if s.build.deadlineEn && (s.afterSequence info).deadlineExpired then responseWord .timingViolation info
    else responseWord .ok 0x00#8 := by
  unfold State.afterSequence
  cases s.build.deadlineEn with
  | false => rfl
  | true => cases hexpired : s.passTime.deadlineExpired <;> simp [State.raise, State.respond, hexpired]

/-- The look moves nothing of the block but its response (rules R102, R232). -/
theorem afterSequence_fields (s : State) (info : Byte) :
    (s.afterSequence info).sq = s.sq ∧ (s.afterSequence info).trace = s.trace ∧ (s.afterSequence info).busy = false ∧
    (s.afterSequence info).rspValid = true := by
  obtain ⟨st, d, h⟩ := afterSequence_eq s info
  rw [h]
  exact ⟨passTimes_sq s _, passTimes_trace s _, rfl, rfl⟩

theorem afterSequence_hasWritten {s : State} {a : Addr} {d : Byte} (h : s.HasWritten a d) (info : Byte) :
    (s.afterSequence info).HasWritten a d := by
  obtain ⟨st, v, heq⟩ := afterSequence_eq s info
  rw [heq]
  exact hasWritten_respond (hasWritten_passTimes h _) st v

/-- The events of a sequence are those of its writes. -/
theorem newEvents_sequence {s : State} (hs : s.AtBoundary) (ws : List (Addr × Byte)) (info : Byte) :
    newEvents s ((State.afterWrites { s with sq := 0 } 0 ws).afterSequence info) = writesEvents s ws := by
  obtain ⟨hruns, _⟩ := sequence_runs hs ws
  obtain ⟨_, htrace, _⟩ := afterSequence_fields (State.afterWrites { s with sq := 0 } 0 ws) info
  rw [newEvents, htrace, hruns.trace, List.drop_left]

/-! ## Counting events -/

/-- SETA and SETD open no pulse. -/
theorem count_open_addressing (s : State) (a : Addr) (m : Direction) :
    (setaEvents s a).count (.we false) = 0 ∧ (setdEvents s m).count (.we false) = 0 := by
  refine ⟨List.count_eq_zero.mpr (fun h => setaEvents_quiet s a _ h), ?_⟩
  unfold setdEvents
  split
  · rfl
  · cases m <;> rfl

/-- Each write of a sequence opens one pulse (rules R182, R200). -/
theorem count_open_writesEvents (ws : List (Addr × Byte)) : ∀ s : State, (writesEvents s ws).count (.we false) = ws.length := by
  induction ws with
  | nil => intro s; rfl
  | cons w rest ih =>
    intro s
    obtain ⟨hseta, hsetd⟩ := count_open_addressing s w.1 .hostDrives
    have hpulse : ([.dout w.2, .we false, .we true] : List PinEvent).count (.we false) = 1 := by simp
    rw [writesEvents, wrbEvents, List.count_append, List.count_append, List.count_append, hseta, hsetd, hpulse, ih,
      List.length_cons]
    omega

/-- A shift has one rising clock edge (rule R141). -/
theorem count_rise_shiftEvents (bs : List Bool) : (bs.flatMap shiftEvents).count (.sck true) = bs.length := by
  induction bs with
  | nil => rfl
  | cons b bs ih =>
    have hone : (shiftEvents b).count (.sck true) = 1 := by simp [shiftEvents]
    rw [List.flatMap_cons, List.count_append, hone, ih, List.length_cons, Nat.add_comm]

/-- SETA emits 26 events for every eight shifts, on either path (rule R148). -/
theorem count_rise_setaEvents (s : State) (a : Addr) : 13 * (setaEvents s a).count (.sck true) = 4 * setaCost s a := by
  cases hskip : skipsHigh s a with
  | true =>
    obtain ⟨hcost, hevents, _⟩ := seta_of_skipsHigh hskip
    have hlatch : latchLowEvents.count (.sck true) = 0 := rfl
    rw [hcost, hevents, List.count_append, count_rise_shiftEvents, hlatch]
    simp [frame8]
  | false =>
    obtain ⟨hcost, hevents, _⟩ := seta_of_not_skipsHigh hskip
    have hlatch : latchLowEvents.count (.sck true) = 0 ∧ latchHighEvents.count (.sck true) = 0 := ⟨rfl, rfl⟩
    rw [hcost, hevents, List.count_append, List.count_append, count_rise_shiftEvents, hlatch.1, hlatch.2]
    simp [frame16]

/-- Of the events of WRB those of SETA alone shift (rule R182). -/
theorem count_rise_wrbEvents (s : State) (a : Addr) (d : Byte) :
    (wrbEvents s a d).count (.sck true) = (setaEvents s a).count (.sck true) := by
  have hsetd : (setdEvents s .hostDrives).count (.sck true) = 0 := by unfold setdEvents; split <;> rfl
  have hpulse : ([.dout d, .we false, .we true] : List PinEvent).count (.sck true) = 0 := by simp
  rw [wrbEvents, List.count_append, List.count_append, hsetd, hpulse]
  rfl

/-- The shifts of a sequence in terms of its events: a turn of the bus, if any, comes with the first write, and three events of each
write are no part of its SETA (rules R205, R285). -/
theorem count_rise_writesEvents (ws : List (Addr × Byte)) : ∀ (s : State) (w : Addr × Byte),
    13 * (writesEvents s (w :: ws)).count (.sck true) + 4 * setdCost s .hostDrives + 12 * (ws.length + 1) =
      4 * writesCost s (w :: ws) := by
  induction ws with
  | nil =>
    intro s w
    have hseta := count_rise_setaEvents s w.1
    simp only [writesEvents, writesCost, List.count_append, count_rise_wrbEvents, wrbCost, List.count_nil, List.length_nil]
    omega
  | cons v rest ih =>
    intro s w
    have hseta := count_rise_setaEvents s w.1
    have hrest := ih (s.afterWrb w.1 w.2) v
    have hturn : setdCost (s.afterWrb w.1 w.2) .hostDrives = 0 := by
      obtain ⟨_, _, hdir, _⟩ := afterWrb_fields s w.1 w.2
      exact if_pos hdir
    rw [writesEvents, writesCost, List.count_append, count_rise_wrbEvents, wrbCost, List.length_cons]
    omega

/-! ## The statements -/

/-- How a sequence ends, its last write being one that takes the full path (rules R202, R203, R208). -/
theorem exec_sequence_endState {s : State} (hs : s.AtBoundary) {ws : List (Addr × Byte)} {v w : Addr × Byte} {i : Instr} {info : Byte}
    (hi : operation i = endsPlain (inOrder [setSq 0, issueWrites 0 (ws ++ [v, w]), sequenceDeadline info]))
    (hhigh : highByte v.1 ≠ highByte w.1) (hr : s.NoResetFor (writesCost s (ws ++ [v, w]) + lookCost s)) :
    ∃ t, exec i s = .next t ∧ t.HasWritten w.1 w.2 ∧ t.sq = Fin.ofNat 7 (ws ++ [v, w]).length ∧ t.busy = false ∧
      (newEvents s t).count (.we false) = (ws ++ [v, w]).length ∧ t.rspValid = true ∧
      t.rspWord = (if s.build.deadlineEn && t.deadlineExpired then responseWord .timingViolation info
        else responseWord .ok 0x00#8) := by
  have hexec := perform_sequence hs (ws ++ [v, w]) info hr
  rw [← hi, ← exec_eq_perform] at hexec
  obtain ⟨hsq, _, hbusy, hvalid⟩ := afterSequence_fields (State.afterWrites { s with sq := 0 } 0 (ws ++ [v, w])) info
  have hrsp := afterSequence_rspWord (State.afterWrites { s with sq := 0 } 0 (ws ++ [v, w])) info
  rw [afterWrites_build] at hrsp
  refine ⟨_, hexec, afterSequence_hasWritten (afterWrites_hasWritten hhigh ws 0 (atBoundary_sq hs 0)) info, ?_, hbusy, ?_,
    hvalid, hrsp⟩
  · rw [hsq, afterWrites_sq _ rfl, Fin.zero_add]
  · rw [newEvents_sequence hs, count_open_writesEvents]

/-- Settles O23: the last write of SDPD is `(0x5555, 0x20)`, after one to 0x2AAA. -/
theorem sdpdEndState : Obligations.SdpdEndState := by
  unfold Obligations.SdpdEndState
  intro s hs hr
  obtain ⟨t, hexec, hwritten, hend⟩ := exec_sequence_endState (i := .sdpd) (ws := sdpDisableWrites.take 4)
    (v := (0x2AAA#15, 0x55#8)) (w := (0x5555#15, 0x20#8)) hs.atBoundary rfl (by decide) (noResetFor_mono hr (sdpd_cost_le s))
  obtain ⟨haddress, hql, hsl, hqh, hsh, hlast, hcached, hdir, hddir, hoe, hdout, hbit, hwe⟩ := hwritten
  exact ⟨t, hexec, haddress, hql, hsl, hqh, hsh, hlast, hcached, hdir, hddir, hoe, hdout, hbit, hwe, hend⟩

/-- Settles O24: the last write of SDPE is `(0x5555, 0xA0)`, after one to 0x2AAA. -/
theorem sdpeEndState : Obligations.SdpeEndState := by
  unfold Obligations.SdpeEndState
  intro s hs hr
  obtain ⟨t, hexec, hwritten, hend⟩ := exec_sequence_endState (i := .sdpe) (ws := sdpEnableWrites.take 1)
    (v := (0x2AAA#15, 0x55#8)) (w := (0x5555#15, 0xA0#8)) hs.atBoundary rfl (by decide) (noResetFor_mono hr (sdpe_cost_le s))
  obtain ⟨haddress, hql, hsl, hqh, hsh, hlast, hcached, hdir, hddir, hoe, hdout, hbit, hwe⟩ := hwritten
  exact ⟨t, hexec, haddress, hql, hsl, hqh, hsh, hlast, hcached, hdir, hddir, hoe, hdout, hbit, hwe, hend⟩

/-- The shifts and the events of a sequence by what its first SETA takes (rules R205, R285). -/
theorem exec_sequence_counts {s t : State} (hs : s.Ready) (hr : s.NeverReset) {a : Addr} {d : Byte} {ws : List (Addr × Byte)}
    {i : Instr} {info : Byte} (hi : operation i = endsPlain (inOrder [setSq 0, issueWrites 0 ((a, d) :: ws), sequenceDeadline info]))
    (h : exec i s = .next t) :
    13 * (newEvents s t).count (.sck true) + 12 * ws.length = 4 * (setaCost s a + nextWritesCost a ws) ∧
    (newEvents s t).length = setaCost s a + 3 + nextWritesCost a ws + setdCost s .hostDrives := by
  have hexec := perform_sequence hs.atBoundary ((a, d) :: ws) info (noResetFor_of_neverReset hr _)
  rw [← hi, ← exec_eq_perform, h] at hexec
  obtain rfl := Host.Outcome.next.inj hexec
  have hrise := count_rise_writesEvents ws s (a, d)
  have hcost : writesCost s ((a, d) :: ws) = setaCost s a + setdCost s .hostDrives + 3 + nextWritesCost a ws := by
    rw [writesCost, writesCost_afterWrb, wrbCost]
  rw [newEvents_sequence hs.atBoundary, writesEvents_length]
  constructor <;> omega

/-- The first SETA of a sequence, by the cached high byte (rules R144, R205). -/
theorem setaCost_first (s : State) :
    ((s.lastHighValid = false ∨ s.lastHigh ≠ 0x55#8) → setaCost s 0x5555#15 = 52) ∧
    (s.lastHighValid = true → s.lastHigh = 0x55#8 → setaCost s 0x5555#15 = 26) := by
  have hhigh : highByte 0x5555#15 = 0x55#8 := by decide
  rw [← hhigh]
  exact ⟨fun h => (seta_of_not_skipsHigh ((skipsHigh_eq_false_iff _ _).mpr h)).1,
    fun hvalid hlast => (seta_of_skipsHigh ((skipsHigh_iff _ _).mpr ⟨hvalid, hlast⟩)).1⟩

/-- Settles O28: the writes after the first take 249 events in SDPD and 110 in SDPE, whatever the state. -/
theorem sdpSequenceCosts : Obligations.SdpSequenceCosts := by
  unfold Obligations.SdpSequenceCosts
  refine ⟨fun s t hs hr h => ?disable, fun s t hs hr h => ?enable⟩ <;> obtain ⟨hfull, hskip⟩ := setaCost_first s
  case disable =>
    have hrest : nextWritesCost 0x5555#15 sdpDisableWrites.tail = 249 ∧ sdpDisableWrites.tail.length = 5 := by decide
    obtain ⟨hrise, hlength⟩ := exec_sequence_counts (i := .sdpd) (ws := sdpDisableWrites.tail) hs hr rfl h
    rw [hrest.1] at hrise hlength
    exact ⟨fun hcache => by have := hfull hcache; omega, fun hvalid hlast => by have := hskip hvalid hlast; omega⟩
  case enable =>
    have hrest : nextWritesCost 0x5555#15 sdpEnableWrites.tail = 110 ∧ sdpEnableWrites.tail.length = 2 := by decide
    obtain ⟨hrise, hlength⟩ := exec_sequence_counts (i := .sdpe) (ws := sdpEnableWrites.tail) hs hr rfl h
    rw [hrest.1] at hrise hlength
    exact ⟨fun hcache => by have := hfull hcache; omega, fun hvalid hlast => by have := hskip hvalid hlast; omega⟩

end Sys2Proof.Machine
end

section
/-! SUPPORT. The family of 43_protectionsequencer.md, second part: a run in which the window is missed (rules R204, R273). -/

namespace Sys2Proof.Machine

/-! ## Pulses that find the counter at 0 -/

/-- With the counter at 0 no pair moves the latch (rule R74). -/
theorem writePulse_sdp_of_cmd_zero {d : Device} (h : d.cmd = 0) (a : Addr) (v : Byte) : (d.writePulse a v).sdp = d.sdp := by
  by_cases hphase : d.phase = .programming
  · rw [writePulse_programming hphase]
  · have hrecognised := writePulse_recognised hphase a v
    rw [h] at hrecognised
    have hlatch : (recognisedBy recogniserTable 0 d.sdp a v).2 = d.sdp := by
      simp only [recogniserTable, recognisedBy_cons, recognisedBy_nil, Fin.reduceEq, false_and, if_false]
      split_ifs <;> rfl
    exact (congrArg Prod.snd hrecognised).trans hlatch

/-- Outside the window the counter is at 0 (rules R74, R84). -/
theorem Device.Coherent.cmd_zero {d : Device} (h : d.Coherent) (hphase : d.phase ≠ .loading) : d.cmd = 0 := by
  obtain ⟨hidle, hprogramming⟩ := h
  cases hp : d.phase with
  | idle => exact (hidle hp).2
  | loading => exact absurd hp hphase
  | programming => exact (hprogramming hp).2

/-- A WRB in whose slots the window elapses does not move the latch: the slot before the end of its pulse closes the window. -/
theorem afterWrb_sdp_of_elapse {s : State} (hs : s.dev.Coherent) {a : Addr} (d : Byte)
    (helapse : ∀ k, k < wrbCost s a → (s.slotAt k).windowElapse = true) : (s.afterWrb a d).dev.sdp = s.dev.sdp := by
  obtain ⟨n, hn⟩ : ∃ n, wrbCost s a = n + 1 := ⟨_, rfl⟩
  have hphase : (s.passTimes (n + 1)).dev.phase ≠ .loading := by
    rw [passTimes_succ_dev]
    exact environment_not_loading (.inr (helapse n (by omega)))
  rw [afterWrb_dev, hn, writePulse_sdp_of_cmd_zero ((passTimes_coherent hs _).cmd_zero hphase), passTimes_sdp]

/-- Writes in whose slots the window elapses do not move the latch, whatever they are. -/
theorem afterWrites_sdp_of_elapse (ws : List (Addr × Byte)) : ∀ {s : State} (done : Fin 7), s.dev.Coherent →
    (∀ k, k < writesCost s ws → (s.slotAt k).windowElapse = true) → (s.afterWrites done ws).dev.sdp = s.dev.sdp := by
  induction ws with
  | nil => intro s done _ _; rfl
  | cons w rest ih =>
    intro s done hs helapse
    rw [writesCost] at helapse
    have hlatch := afterWrb_sdp_of_elapse hs (a := w.1) w.2 (fun k hk => helapse k (by omega))
    have hcoherent : (s.afterWrb w.1 w.2).dev.Coherent := by
      rw [afterWrb_dev]; exact writePulse_coherent (passTimes_coherent hs _) _ _
    have hslot := afterWrb_slotAt s w.1 w.2
    rw [State.afterWrites]
    generalize s.afterWrb w.1 w.2 = x at *
    refine (ih (s := { x with sq := done + 1 }) (done + 1) hcoherent (fun k hk => ?_)).trans hlatch
    rw [writesCost_sq] at hk
    exact (congrArg EnvSlot.windowElapse (hslot k)).trans (helapse _ (by omega))

/-! ## The run -/

/-- A slot in which the window elapses and nothing else comes. -/
def elapseSlot : EnvSlot := { windowElapse := true, programDone := false, deadline := false, rst := false }

/-- The base design after reset, before a protected device whose window elapses in each of the next `n` slots. -/
def State.missingWindows (n : Nat) : State :=
  { State.powerOn Build.base (Device.powerOn true []) with env := List.replicate n elapseSlot }

theorem missingWindows_ready (n : Nat) : (State.missingWindows n).Ready :=
  (powerOn_inv Build.base (device_powerOn_coherent true []) rfl).1

theorem missingWindows_neverReset (n : Nat) : (State.missingWindows n).NeverReset :=
  fun x hx => by rw [List.eq_of_mem_replicate hx]; rfl

theorem missingWindows_slotAt {n k : Nat} (hk : k < n) : (State.missingWindows n).slotAt k = elapseSlot := by
  simp [State.slotAt, State.missingWindows, hk]

/-- Settles O26: the window elapses in every slot, so every pulse finds the counter at 0; SDPD takes at most 307 slots. -/
theorem missedWindowLeavesTheLatch : Obligations.MissedWindowLeavesTheLatch := by
  unfold Obligations.MissedWindowLeavesTheLatch
  have hready := missingWindows_ready 307
  have hreset := missingWindows_neverReset 307
  have hexec := perform_sequence hready.atBoundary sdpDisableWrites 0x06#8 (noResetFor_of_neverReset hreset _)
  have hlatch : (State.afterWrites { State.missingWindows 307 with sq := 0 } 0 sdpDisableWrites).dev.sdp = true := by
    refine afterWrites_sdp_of_elapse sdpDisableWrites 0 (device_powerOn_coherent true []) (fun k hk => ?_)
    rw [writesCost_sq] at hk
    have hbound := sdpd_cost_le (State.missingWindows 307)
    exact congrArg EnvSlot.windowElapse (missingWindows_slotAt (by omega))
  have hlook : ∀ s : State, s.build = Build.base → s.afterSequence 0x06#8 = s.respond .ok 0x00#8 := by
    intro s hs
    rw [State.afterSequence, hs]
    rfl
  rw [hlook _ (afterWrites_build _ _ _)] at hexec
  exact ⟨_, _, hready, hreset, rfl, rfl, rfl, rfl, hexec, rfl, hlatch⟩

end Sys2Proof.Machine
end

section
/-! SUPPORT. The family of 43_protectionsequencer.md, third part: a command that samples nothing does not see the device (rules R204, R209,
R241). -/

namespace Sys2Proof.Machine

/-! ## Another device behind the pins -/

/-- The block with another device behind its pins. -/
def State.facing (s : State) (d : Device) : State := { s with dev := d }

/-- The result with another device behind the pins. -/
def Res.facing {α : Type} (r : Res α) (d : Device) : Res α :=
  match r with
  | .ok a s => .ok a (s.facing d)
  | .raised st info s => .raised st info (s.facing d)
  | .abandoned s => .abandoned (s.facing d)
  | .fault f => .fault f
  | .refused r => .refused r

/-- The operation gives the same result, the device apart, whatever device it faces. -/
def Op.Blind {α : Type} (m : Op α) : Prop := ∀ s d, ∃ d', m (s.facing d) = (m s).facing d'

/-! ## Time, pin events and reset -/

theorem passTime_facing (s : State) (d : Device) : ∃ d', (s.facing d).passTime = s.passTime.facing d' := by
  refine ⟨(s.facing d).passTime.dev, ?_⟩
  have hdeadline : ((s.facing d).slotAt 0).deadline = (s.slotAt 0).deadline := by
    simp only [State.slotAt, State.facing]
    cases s.env[0]? <;> rfl
  simp only [State.passTime, hdeadline]
  rfl

/-- The end of a write pulse reaches the device, and nothing else does (rules R38, R67). -/
theorem effect_facing (s : State) (d : Device) (e : PinEvent) : ∃ d', (s.facing d).effect e = (s.effect e).facing d' := by
  cases e with
  | we b =>
    by_cases hrise : (!s.weN && b) = true
    · exact ⟨d.writePulse s.addressLines (s.facing d).dataLines, by simp only [State.effect, State.facing, hrise, if_true]; rfl⟩
    · exact ⟨d, by simp only [State.effect, State.facing, hrise, if_false, Bool.false_eq_true]⟩
  | _ => exact ⟨d, by simp only [State.effect, apply_ite (State.facing · d)]; rfl⟩

theorem pinEvent_facing (s : State) (d : Device) (e : PinEvent) : ∃ d', (s.facing d).pinEvent e = (s.pinEvent e).facing d' := by
  obtain ⟨d', h⟩ := effect_facing s d e
  exact ⟨d', by rw [State.pinEvent, h]; rfl⟩

theorem pinEvents_facing (es : List PinEvent) : ∀ (s : State) (d : Device),
    ∃ d', (s.facing d).pinEvents es = (s.pinEvents es).facing d' := by
  induction es with
  | nil => intro s d; exact ⟨d, rfl⟩
  | cons e es ih =>
    intro s d
    obtain ⟨d', h⟩ := pinEvent_facing s d e
    rw [pinEvents_cons, pinEvents_cons, h]
    exact ih _ d'

theorem resetBlock_facing (s : State) (d : Device) : ∃ d', (s.facing d).resetBlock = s.resetBlock.facing d' := by
  obtain ⟨d', h⟩ := pinEvents_facing resetEvents s d
  refine ⟨d', ?_⟩
  rw [State.resetBlock, h]
  rfl

/-! ## Pieces of an operation -/

theorem blind_done {α : Type} (a : α) : Op.Blind (Op.done a) := fun _ d => ⟨d, rfl⟩

theorem blind_update {f : State → State} (h : ∀ s d, f (s.facing d) = (f s).facing d) : Op.Blind (update f) :=
  fun s d => ⟨d, congrArg (Res.ok ()) (h s d)⟩

theorem blind_raiseFault {α : Type} (st : Status) (info : Byte) : Op.Blind (raiseFault (α := α) st info) := fun _ d => ⟨d, rfl⟩

theorem blind_andThen {α β : Type} {m : Op α} {k : α → Op β} (hm : m.Blind) (hk : ∀ a, (k a).Blind) : (Op.andThen m k).Blind := by
  intro s d
  obtain ⟨d', h⟩ := hm s d
  simp only [Op.andThen, h]
  cases m s with
  | ok a t => exact hk a t d'
  | _ => exact ⟨d', rfl⟩

theorem blind_inOrder {ms : List (Op Unit)} (h : ∀ m ∈ ms, m.Blind) : (inOrder ms).Blind := by
  induction ms with
  | nil => exact blind_done ()
  | cons m ms ih => exact blind_andThen (h m (by simp)) (fun _ => ih (fun x hx => h x (by simp [hx])))

/-- A test of what is not the device. -/
theorem blind_ite {α : Type} {c : State → Prop} [DecidablePred c] {m n : Op α} (hc : ∀ s d, c (s.facing d) ↔ c s)
    (hm : m.Blind) (hn : n.Blind) : Op.Blind (fun s => if c s then m s else n s) := by
  intro s d
  by_cases h : c s
  · simp only [hc, h, if_true]; exact hm s d
  · simp only [hc, h, if_false]; exact hn s d

theorem blind_afterSlot {α : Type} {k : Op α} (hk : k.Blind) : (afterSlot k).Blind := by
  refine blind_ite (c := fun s => (s.slotAt 0).rst = true) (fun s d => ?_) ?_ ?_
  · rw [slotAt_rst_congr (s := s) (t := s.facing d) rfl]
  · intro s d
    obtain ⟨d', htime⟩ := passTime_facing s d
    obtain ⟨d'', hreset⟩ := resetBlock_facing s.passTime d'
    exact ⟨d'', congrArg Res.abandoned ((congrArg State.resetBlock htime).trans hreset)⟩
  · intro s d
    obtain ⟨d', htime⟩ := passTime_facing s d
    obtain ⟨d'', hrest⟩ := hk s.passTime d'
    exact ⟨d'', (congrArg k htime).trans hrest⟩

theorem blind_emit (e : PinEvent) : (emit e).Blind := by
  refine blind_afterSlot (fun s d => ?_)
  obtain ⟨d', h⟩ := pinEvent_facing s d e
  exact ⟨d', congrArg (Res.ok ()) h⟩

theorem blind_emits (es : List PinEvent) : (emits es).Blind :=
  blind_inOrder (List.forall_mem_map.mpr (fun e _ => blind_emit e))

theorem blind_lookDeadline : lookDeadline.Blind :=
  blind_ite (c := fun s => s.build.deadlineEn = true) (fun _ _ => Iff.rfl) (blind_afterSlot (fun _ d => ⟨d, rfl⟩)) (blind_done false)

theorem blind_wrongDirection {α : Type} (r : Refusal) : Op.Blind (wrongDirection (α := α) r) :=
  blind_ite (c := fun s => s.build.safetyBuild = true) (fun _ _ => Iff.rfl) (fun _ d => ⟨d, rfl⟩) (fun _ d => ⟨d, rfl⟩)

/-! ## The operations that sample nothing -/

theorem blind_seta (a : Addr) : (seta a).Blind := by
  refine blind_ite (c := fun s => skipsHigh s a = true) (fun _ _ => Iff.rfl) ?_ ?_
  · rw [setaSkip_eq]
    exact blind_emits _
  · rw [setaFull_eq]
    exact blind_andThen (blind_emits _) (fun _ => blind_update (fun _ _ => rfl))

theorem blind_setd (m : Direction) : (setd m).Blind := by
  refine blind_ite (c := fun s => s.dir = m) (fun _ _ => Iff.rfl) (blind_done ()) ?_
  have hcache : (cacheDirection m).Blind := blind_update (fun _ _ => rfl)
  cases m <;> refine blind_inOrder ?_ <;> simp only [List.forall_mem_cons]
  · exact ⟨blind_emit _, blind_emit _, hcache, by simp⟩
  · exact ⟨blind_emit _, blind_emit _, hcache, by simp⟩

theorem blind_dwr (d : Byte) : (dwr d).Blind := by
  refine blind_ite (c := fun s => s.dir = .hostDrives) (fun _ _ => Iff.rfl) (blind_inOrder ?_) (blind_wrongDirection _)
  simp only [List.forall_mem_cons]
  exact ⟨blind_emit _, blind_update (fun _ _ => rfl), by simp⟩

theorem blind_pulse : writeEnablePulse.Blind := by
  refine blind_inOrder ?_
  simp only [List.forall_mem_cons]
  exact ⟨blind_emit _, blind_done (), blind_emit _, by simp⟩

theorem blind_wrb (a : Addr) (d : Byte) : (wrb a d).Blind := by
  refine blind_inOrder ?_
  simp only [List.forall_mem_cons]
  exact ⟨blind_seta a, blind_setd _, blind_dwr d, blind_pulse, by simp⟩

theorem blind_setSq (n : Fin 7) : (setSq n).Blind := blind_update (fun _ _ => rfl)

theorem blind_issueWrites (ws : List (Addr × Byte)) : ∀ done : Fin 7, (issueWrites done ws).Blind := by
  induction ws with
  | nil => intro done; exact blind_done ()
  | cons w rest ih =>
    intro done
    refine blind_inOrder ?_
    simp only [List.forall_mem_cons]
    exact ⟨blind_wrb w.1 w.2, blind_setSq _, ih _, by simp⟩

theorem blind_sequence (ws : List (Addr × Byte)) (info : Byte) :
    (inOrder [setSq 0, issueWrites 0 ws, sequenceDeadline info]).Blind := by
  have hdeadline : (sequenceDeadline info).Blind := by
    refine blind_andThen blind_lookDeadline (fun expired => ?_)
    cases expired with
    | true => exact blind_raiseFault .timingViolation info
    | false => exact blind_done ()
  refine blind_inOrder ?_
  simp only [List.forall_mem_cons]
  exact ⟨blind_setSq 0, blind_issueWrites ws 0, hdeadline, by simp⟩

theorem blind_operation {i : Instr} (hdrd : i ≠ .drd) (hrdb : ∀ a, i ≠ .rdb a) (hwait : i ≠ .wait) : (operation i).Blind := by
  have hplain : ∀ {m : Op Unit}, m.Blind → (endsPlain m).Blind := fun h => blind_andThen h (fun _ => blind_done _)
  cases i with
  | seta a => exact hplain (blind_seta a)
  | setd m => exact hplain (blind_setd m)
  | dwr d => exact hplain (blind_dwr d)
  | drd => exact absurd rfl hdrd
  | wrb a d => exact hplain (blind_wrb a d)
  | rdb a => exact absurd rfl (hrdb a)
  | wait => exact absurd rfl hwait
  | sdpd => exact hplain (blind_sequence sdpDisableWrites 0x06#8)
  | sdpe => exact hplain (blind_sequence sdpEnableWrites 0x03#8)

/-! ## The statement -/

theorem perform_facing {m : Op Progress} (hm : m.Blind) {s t : State} (h : perform m s = .next t) (d : Device) :
    ∃ d', perform m (s.facing d) = .next (t.facing d') := by
  obtain ⟨d', hms⟩ := hm s d
  refine ⟨d', ?_⟩
  rcases perform_cases h with ⟨v, u, hu, rfl⟩ | ⟨u, hu, rfl⟩ | ⟨st, info, u, hu, rfl⟩ | hu <;> rw [hu] at hms
  · exact perform_finished hms
  · exact perform_polling hms
  · exact perform_raised hms
  · exact perform_abandoned hms

/-- Settles O27: the operations that sample nothing are blind to the device. -/
theorem writingCommandsNeverSeeTheDevice : Obligations.WritingCommandsNeverSeeTheDevice := by
  unfold Obligations.WritingCommandsNeverSeeTheDevice
  intro i s t d hdrd hrdb hwait h
  rw [exec_eq_perform] at h
  obtain ⟨d', hfacing⟩ := perform_facing (blind_operation hdrd hrdb hwait) h d
  exact ⟨d', (exec_eq_perform i _).trans hfacing⟩

end Sys2Proof.Machine
end

section
/-! SUPPORT. The family of 44_host_commands_and_diagnostics.md: the expansion of DUMP (rule R219) and the rows of its bytes (rule R220). -/

namespace Sys2Proof.Machine

/-! ## The reads of a dump (rule R219) -/

/-- The assembler on `DUMP addr`, its operand fitting (rules R123, R219). -/
theorem assemble_dump {a : Nat} (h : a ≤ 0x7FFF) : assemble (.dump a) =
    some (((List.range Config.dumpLen).map (fun i => BitVec.ofNat 15 (a + i))).map (fun x => encode (.rdb x))) := by
  have hfits : (Source.dump a).wellFormed = true := decide_eq_true h
  rw [assemble_of_wellFormed hfits, expand, dumpReads_encoded]

/-- Settles O52: the `i`-th address is `addr + i` cut to the 15 bits of an address, which is the rule's residue. -/
theorem dumpReadsEveryByteOfTheWindow : Obligations.DumpReadsEveryByteOfTheWindow := by
  unfold Obligations.DumpReadsEveryByteOfTheWindow
  intro a ha
  refine ⟨_, assemble_dump ha, by rw [List.length_map, List.length_range, Config.dumpLen], fun i hi => ?_⟩
  have haddr : ((List.range Config.dumpLen).map (fun i => BitVec.ofNat 15 (a + i)))[i]? = some (BitVec.ofNat 15 (a + i)) := by
    rw [List.getElem?_map, List.getElem?_range (show i < Config.dumpLen from hi), Option.map_some]
  exact ⟨_, haddr, BitVec.toNat_ofNat (a + i) 15⟩

/-! ## The rows of a dump (rule R220) -/

/-- The bytes of `n` rows, joined, are the first `16 n` of the bytes, in order. -/
theorem dumpRows_flatMap (n : Nat) : ∀ (base : Nat) (bytes : List Byte),
    (dumpRows base bytes n).flatMap Prod.snd = bytes.take (16 * n) := by
  induction n with
  | zero => intro base bytes; rfl
  | succ n ih =>
    intro base bytes
    have hsize : 16 * (n + 1) = Config.dumpRow + 16 * n := by rw [Config.dumpRow]; omega
    rw [dumpRows, List.flatMap_cons, ih, hsize, List.take_add]

/-- A row of a dump has its place, and is full where the bytes fill all rows. -/
theorem dumpRows_row {n base r : Nat} {bytes : List Byte} {row : Nat × List Byte} (hbytes : bytes.length = 16 * n)
    (hrow : (dumpRows base bytes n)[r]? = some row) : row.1 = base + 16 * r ∧ row.2.length = 16 := by
  obtain ⟨hr, -⟩ := List.getElem?_eq_some_iff.mp hrow
  rw [dumpRows_length] at hr
  rw [dumpRows_getElem? n base bytes r hr] at hrow
  obtain rfl := Option.some.inj hrow
  refine ⟨rfl, ?_⟩
  rw [List.length_take, List.length_drop]
  omega

/-- Settles O53: the rows cut the bytes by sixteen, and sixteen rows of sixteen use up all 256. -/
theorem dumpRowsEnumerateEveryByte : Obligations.DumpRowsEnumerateEveryByte := by
  unfold Obligations.DumpRowsEnumerateEveryByte
  intro base bytes hbytes
  have hall : bytes.take (16 * 16) = bytes := List.take_of_length_le hbytes.le
  exact ⟨dumpRows_length 16 base bytes, (dumpRows_flatMap 16 base bytes).trans hall, fun r row hrow => dumpRows_row hbytes hrow⟩

end Sys2Proof.Machine
end

section
/-! SUPPORT. The family of 60_exceptions.md: how an operation can end, which faults it can raise in which build, and that the base
design raises none (rules R230, R231, R234). -/

namespace Sys2Proof.Machine

/-! ## How an operation can end -/

/-- What is unchanged while an operation goes on, from `s` to `t`: the build, the response not yet given, and that slots are only ever
taken from the front of the list (rules R31, R102). -/
structure State.GoesOn (s t : State) : Prop where
  build : t.build = s.build
  rspValid : t.rspValid = s.rspValid
  env : t.env <:+ s.env

theorem State.GoesOn.refl (s : State) : s.GoesOn s := ⟨rfl, rfl, List.suffix_refl _⟩

theorem State.GoesOn.trans {s t u : State} (h : s.GoesOn t) (h' : t.GoesOn u) : s.GoesOn u :=
  ⟨h'.build.trans h.build, h'.rspValid.trans h.rspValid, h'.env.trans h.env⟩

theorem State.GoesOn.neverReset {s t : State} (h : s.GoesOn t) (hs : s.NeverReset) : t.NeverReset :=
  fun x hx => hs x (h.env.subset hx)

theorem goesOn_passTime (s : State) : s.GoesOn s.passTime := ⟨rfl, rfl, List.tail_suffix _⟩

@[simp] theorem pinEvent_rspValid (s : State) (e : PinEvent) : (s.pinEvent e).rspValid = s.rspValid := by
  cases e <;> simp only [State.pinEvent, State.effect] <;> split <;> rfl

theorem goesOn_pinEvent (s : State) (e : PinEvent) : s.GoesOn (s.pinEvent e) :=
  ⟨pinEvent_build s e, pinEvent_rspValid s e, by rw [pinEvent_env]⟩

/-- The end of a piece run from `s`: it goes on, or it raises a fault of `Q`, or a listed reset withdraws the response, or the machine
halts. -/
def Res.EndsOnly {α : Type} (r : Res α) (s : State) (Q : Status → Prop) : Prop :=
  match r with
  | .ok _ t => s.GoesOn t
  | .raised st _ _ => Q st
  | .abandoned t => t.rspValid = false ∧ ¬ s.NeverReset
  | .fault _ => True
  | .refused _ => True

section Ends
variable {α β : Type} {s : State} {Q : Status → Prop}

/-- A later piece that ends so from where it starts ends so from where the operation started. -/
theorem Res.EndsOnly.of_goesOn {r : Res α} {t : State} (hr : r.EndsOnly t Q) (h : s.GoesOn t) : r.EndsOnly s Q := by
  cases r with
  | ok a u => exact h.trans hr
  | raised st info u => exact hr
  | abandoned u => exact ⟨hr.1, fun hs => hr.2 (h.neverReset hs)⟩
  | fault f => trivial
  | refused r => trivial

theorem endsOnly_andThen {m : Op α} {k : α → Op β} (hm : (m s).EndsOnly s Q)
    (hk : ∀ a t, m s = .ok a t → s.GoesOn t → (k a t).EndsOnly t Q) : (Op.andThen m k s).EndsOnly s Q := by
  unfold Op.andThen
  cases hr : m s with
  | ok a t =>
    rw [hr] at hm
    exact (hk a t hr hm).of_goesOn hm
  | raised st info t => rw [hr] at hm; exact hm
  | abandoned t => rw [hr] at hm; exact hm
  | fault f => trivial
  | refused r => trivial

theorem endsOnly_ok (a : α) : (Res.ok a s).EndsOnly s Q := .refl s

theorem endsOnly_update {f : State → State} (h : s.GoesOn (f s)) : (update f s).EndsOnly s Q := h

/-- The slot before a piece is where a reset can come. -/
theorem endsOnly_afterSlot {k : Op α} (h : (k s.passTime).EndsOnly s.passTime Q) : (afterSlot k s).EndsOnly s Q := by
  unfold afterSlot
  split_ifs with hrst
  · exact ⟨rfl, fun hs => Bool.false_ne_true ((neverReset_slotAt hs 0).symm.trans hrst)⟩
  · exact h.of_goesOn (goesOn_passTime s)

theorem endsOnly_emit (e : PinEvent) : (emit e s).EndsOnly s Q := endsOnly_afterSlot (goesOn_pinEvent _ e)

/-- Pieces that end so wherever they start, in order. -/
theorem endsOnly_inOrder {ms : List (Op Unit)} (h : ∀ m ∈ ms, ∀ s, (m s).EndsOnly s Q) : (inOrder ms s).EndsOnly s Q := by
  induction ms generalizing s with
  | nil => exact endsOnly_ok ()
  | cons m ms ih => exact endsOnly_andThen (h m (by simp) s) (fun _ _ _ _ => ih (fun n hn => h n (by simp [hn])))

theorem endsOnly_emits (es : List PinEvent) : (emits es s).EndsOnly s Q :=
  endsOnly_inOrder (by simp only [List.forall_mem_map]; exact fun e _ _ => endsOnly_emit e)

/-! ### The operations -/

theorem endsOnly_seta (a : Addr) : (seta a s).EndsOnly s Q := by
  unfold seta
  split_ifs
  · rw [setaSkip_eq]
    exact endsOnly_emits _
  · rw [setaFull_eq]
    exact endsOnly_andThen (endsOnly_emits _) (fun _ _ _ _ => endsOnly_update ⟨rfl, rfl, List.suffix_refl _⟩)

theorem endsOnly_cacheDirection (m : Direction) : (cacheDirection m s).EndsOnly s Q :=
  endsOnly_update ⟨rfl, rfl, List.suffix_refl _⟩

theorem endsOnly_setd (m : Direction) : (setd m s).EndsOnly s Q := by
  unfold setd
  split_ifs
  · exact .refl s
  · cases m <;> exact endsOnly_inOrder (by simp [endsOnly_emit, endsOnly_cacheDirection])

theorem endsOnly_recordPollBit (d : Byte) : (recordPollBit d s).EndsOnly s Q :=
  endsOnly_update ⟨rfl, rfl, List.suffix_refl _⟩

/-- An access in the wrong direction raises `BusContentionRisk` in a safety build only (rule R233). -/
theorem endsOnly_wrongDirection (r : Refusal) (hQ : s.build.safetyBuild = true → Q .busContentionRisk) :
    (wrongDirection (α := α) r s).EndsOnly s Q := by
  unfold wrongDirection
  split_ifs with hsafety
  · exact hQ hsafety
  · trivial

theorem endsOnly_dwr {d : Byte} (hQ : s.dir ≠ .hostDrives → s.build.safetyBuild = true → Q .busContentionRisk) :
    (dwr d s).EndsOnly s Q := by
  unfold dwr
  split_ifs with hdir
  · exact endsOnly_inOrder (by simp [endsOnly_emit, endsOnly_recordPollBit])
  · exact endsOnly_wrongDirection _ (hQ hdir)

theorem endsOnly_sampleLines : (sampleLines s).EndsOnly s Q := by
  refine endsOnly_afterSlot ?_
  split_ifs
  · trivial
  · exact goesOn_pinEvent _ _

theorem endsOnly_drd (hQ : s.dir ≠ .deviceDrives → s.build.safetyBuild = true → Q .busContentionRisk) :
    (drd s).EndsOnly s Q := by
  unfold drd
  split_ifs with hdir
  · exact endsOnly_sampleLines
  · exact endsOnly_wrongDirection _ (hQ hdir)

/-- WRB raises nothing: the DWR in it finds the direction that the SETD before it leaves. -/
theorem endsOnly_wrb (a : Addr) (d : Byte) : (wrb a d s).EndsOnly s Q := by
  refine endsOnly_andThen (endsOnly_seta a) (fun _ _ _ _ => ?_)
  refine endsOnly_andThen (endsOnly_setd _) (fun _ _ hsetd _ => ?_)
  refine endsOnly_andThen (endsOnly_dwr fun hdir _ => absurd (setd_ok_dir hsetd) hdir) (fun _ _ _ _ => ?_)
  rw [inOrder_single]
  exact endsOnly_inOrder (by simp [endsOnly_emit, endsOnly_ok])

/-- RDB raises nothing, for the same reason. -/
theorem endsOnly_rdb (a : Addr) : (rdb a s).EndsOnly s Q := by
  refine endsOnly_andThen (endsOnly_inOrder (by simp [endsOnly_seta, endsOnly_setd])) (fun _ _ hok _ => ?_)
  refine endsOnly_drd fun hdir _ => ?_
  obtain ⟨_, u, _, hsetd⟩ := andThen_eq_ok hok
  rw [inOrder_single] at hsetd
  exact absurd (setd_ok_dir hsetd) hdir

theorem endsOnly_lookDeadline : (lookDeadline s).EndsOnly s Q := by
  unfold lookDeadline
  split_ifs
  · exact endsOnly_afterSlot (.refl _)
  · exact .refl s

/-- The deadline is found expired only in a build that consults it (rule R232). -/
theorem lookDeadline_expired {t : State} (h : lookDeadline s = .ok true t) : s.build.deadlineEn = true := by
  unfold lookDeadline at h
  split_ifs at h with hen
  · exact hen
  · cases h

theorem pollLimit_ne_none {limit : Option Nat} {p : Nat} (h : pollLimitReached limit p = true) : limit ≠ none := by
  rintro rfl
  exact Bool.false_ne_true h

/-- Judging a sample raises `UnexpectedToggleBit` in a build with a poll limit only (rule R234). -/
theorem endsOnly_judgeSample (v : Byte) (hQ : s.build.pollLimit ≠ none → Q .unexpectedToggleBit) :
    (judgeSample v s).EndsOnly s Q := by
  unfold judgeSample
  split_ifs with _ hlimit
  · exact ⟨rfl, rfl, List.suffix_refl _⟩
  · exact hQ (pollLimit_ne_none hlimit)
  · exact ⟨rfl, rfl, List.suffix_refl _⟩

/-- The three faults of an iteration of WAIT, each behind its build switch (rules R232, R233, R234). -/
theorem endsOnly_pollOnce (hdeadline : s.build.deadlineEn = true → Q .timingViolation)
    (hdirection : s.dir ≠ .deviceDrives → s.build.safetyBuild = true → Q .busContentionRisk)
    (hlimit : s.build.pollLimit ≠ none → Q .unexpectedToggleBit) : (pollOnce s).EndsOnly s Q := by
  refine endsOnly_andThen endsOnly_lookDeadline (fun expired t hlook hgoes => ?_)
  cases expired with
  | true => exact hdeadline (lookDeadline_expired hlook)
  | false =>
    obtain ⟨_, hdir, hbuild⟩ := lookDeadline_ok hlook
    refine endsOnly_andThen (endsOnly_drd (by rwa [hdir, hbuild])) (fun v u _ hdrd => endsOnly_judgeSample v ?_)
    rwa [hdrd.build, hbuild]

theorem endsOnly_startPolling : (startPolling s).EndsOnly s Q := endsOnly_update ⟨rfl, rfl, List.suffix_refl _⟩

/-- WAIT polls in the direction that the SETD before the loop leaves. -/
theorem endsOnly_wait (hdeadline : s.build.deadlineEn = true → Q .timingViolation)
    (hlimit : s.build.pollLimit ≠ none → Q .unexpectedToggleBit) : (wait s).EndsOnly s Q := by
  refine endsOnly_andThen (endsOnly_inOrder (by simp [endsOnly_setd, endsOnly_startPolling])) (fun _ t hok hgoes => ?_)
  refine endsOnly_pollOnce (by rwa [hgoes.build]) (fun hdir _ => ?_) (by rwa [hgoes.build])
  obtain ⟨_, u, hsetd, hstart⟩ := andThen_eq_ok hok
  cases hstart
  exact absurd (setd_ok_dir hsetd) hdir

theorem endsOnly_setSq (n : Fin 7) : (setSq n s).EndsOnly s Q := endsOnly_update ⟨rfl, rfl, List.suffix_refl _⟩

theorem endsOnly_issueWrites (ws : List (Addr × Byte)) (done : Fin 7) : (issueWrites done ws s).EndsOnly s Q := by
  induction ws generalizing s done with
  | nil => exact endsOnly_ok ()
  | cons w rest ih => exact endsOnly_inOrder (by simp [endsOnly_wrb, endsOnly_setSq, ih])

theorem endsOnly_sequenceDeadline (info : Byte) (hdeadline : s.build.deadlineEn = true → Q .timingViolation) :
    (sequenceDeadline info s).EndsOnly s Q := by
  refine endsOnly_andThen endsOnly_lookDeadline (fun expired t hlook _ => ?_)
  cases expired with
  | true => exact hdeadline (lookDeadline_expired hlook)
  | false => exact endsOnly_ok ()

/-- A sequence raises only the fault of its one look at the deadline (rule R208). -/
theorem endsOnly_sequence (ws : List (Addr × Byte)) (info : Byte)
    (hdeadline : s.build.deadlineEn = true → Q .timingViolation) :
    (inOrder [setSq 0, issueWrites 0 ws, sequenceDeadline info] s).EndsOnly s Q := by
  refine endsOnly_andThen (endsOnly_setSq 0) (fun _ _ _ hsq => ?_)
  refine endsOnly_andThen (endsOnly_issueWrites ws 0) (fun _ _ _ hwrites => ?_)
  rw [inOrder_single]
  exact endsOnly_sequenceDeadline info (by rwa [hwrites.build, hsq.build])

theorem endsOnly_endsPlain {m : Op Unit} (h : (m s).EndsOnly s Q) : (endsPlain m s).EndsOnly s Q :=
  endsOnly_andThen h (fun _ _ _ _ => endsOnly_ok _)

theorem endsOnly_endsWith {m : Op Byte} (h : (m s).EndsOnly s Q) : (endsWith m s).EndsOnly s Q :=
  endsOnly_andThen h (fun _ _ _ _ => endsOnly_ok _)

end Ends

/-! ## The faults of each operation -/

/-- The table of rule R231: the faults that an operation may raise in a build. -/
def MayRaise (b : Build) (i : Instr) : Status → Prop
  | .ok => False
  | .timingViolation => b.deadlineEn = true ∧ (i = .wait ∨ i = .sdpd ∨ i = .sdpe)
  | .busContentionRisk => b.safetyBuild = true ∧ ((∃ d, i = .dwr d) ∨ i = .drd)
  | .unexpectedToggleBit => b.pollLimit ≠ none ∧ i = .wait
  | .illegalCommand => False

theorem not_mayRaise_base (i : Instr) (st : Status) : ¬ MayRaise Build.base i st := by
  cases st <;> simp [MayRaise, Build.base]

theorem endsOnly_operation (i : Instr) (s : State) : (operation i s).EndsOnly s (MayRaise s.build i) := by
  cases i with
  | seta a => exact endsOnly_endsPlain (endsOnly_seta a)
  | setd m => exact endsOnly_endsPlain (endsOnly_setd m)
  | dwr d => exact endsOnly_endsPlain (endsOnly_dwr fun _ hsafety => ⟨hsafety, .inl ⟨d, rfl⟩⟩)
  | drd => exact endsOnly_endsWith (endsOnly_drd fun _ hsafety => ⟨hsafety, .inr rfl⟩)
  | wrb a d => exact endsOnly_endsPlain (endsOnly_wrb a d)
  | rdb a => exact endsOnly_endsWith (endsOnly_rdb a)
  | wait => exact endsOnly_wait (fun hen => ⟨hen, .inl rfl⟩) (fun hlimit => ⟨hlimit, rfl⟩)
  | sdpd => exact endsOnly_endsPlain (endsOnly_sequence _ _ fun hen => ⟨hen, .inr (.inl rfl)⟩)
  | sdpe => exact endsOnly_endsPlain (endsOnly_sequence _ _ fun hen => ⟨hen, .inr (.inr rfl)⟩)

/-- A later poll raises what its WAIT may raise, where the direction is right or the build does not test it. -/
theorem endsOnly_laterPoll {s : State} (h : s.dir = .deviceDrives ∨ s.build.safetyBuild = false) :
    (pollOnce s).EndsOnly s (MayRaise s.build .wait) := by
  refine endsOnly_pollOnce (fun hen => ⟨hen, .inl rfl⟩) (fun hdir hsafety => ?_) (fun hlimit => ⟨hlimit, rfl⟩)
  rcases h with hright | hbase
  · exact absurd hright hdir
  · exact absurd (hbase.symm.trans hsafety) Bool.false_ne_true

/-! ## Responses -/

/-- A new response is OK, or a fault that the operation raised. -/
theorem Res.EndsOnly.new_response {m : Op Progress} {s t : State} {Q : Status → Prop} (hm : (m s).EndsOnly s Q)
    (hs : s.rspValid = false) (h : perform m s = .next t) (ht : t.rspValid = true) :
    t.rspWord.extractLsb' 8 4 = 0#4 ∨ ∃ st, Q st ∧ t.rspWord.extractLsb' 8 4 = statusCode st := by
  rcases perform_cases h with ⟨d, u, _, rfl⟩ | ⟨u, hu, rfl⟩ | ⟨st, info, u, hu, rfl⟩ | hu
  · exact .inl (responseWord_status .ok d)
  · rw [hu] at hm
    exact absurd (hs.symm.trans (hm.rspValid.symm.trans ht)) Bool.false_ne_true
  · rw [hu] at hm
    exact .inr ⟨st, hm, responseWord_status st info⟩
  · rw [hu] at hm
    exact absurd (hm.1.symm.trans ht) Bool.false_ne_true

/-- Settles O40: what an operation may raise, read in the status field of the response; a later poll is in the direction of its WAIT. -/
theorem faultsComeFromTheirOperations : Obligations.FaultsComeFromTheirOperations := by
  unfold Obligations.FaultsComeFromTheirOperations
  refine ⟨fun i s t hs h ht => ?command, fun s t hinv hbusy hs h ht => ?poll⟩
  case command =>
    rw [exec_eq_perform] at h
    rcases (endsOnly_operation i s).new_response hs h ht with hok | ⟨st, hraise, hcode⟩
    · exact .inl hok
    · cases st with
      | ok => exact hraise.elim
      | timingViolation => exact .inr (.inl ⟨hcode, hraise⟩)
      | busContentionRisk => exact .inr (.inr (.inl ⟨hcode, hraise⟩))
      | unexpectedToggleBit => exact .inr (.inr (.inr ⟨hcode, hraise⟩))
      | illegalCommand => exact hraise.elim
  case poll =>
    obtain ⟨_, hwait⟩ := hinv
    rw [step_of_busy hbusy] at h
    rcases (endsOnly_laterPoll (.inl (hwait hbusy))).new_response hs h ht with hok | ⟨st, hraise, hcode⟩
    · exact .inl hok
    · cases st with
      | ok => exact hraise.elim
      | timingViolation => exact .inr (.inl ⟨hcode, hraise.1⟩)
      | busContentionRisk => simp [MayRaise] at hraise
      | unexpectedToggleBit => exact .inr (.inr ⟨hcode, hraise.1⟩)
      | illegalCommand => exact hraise.elim

/-! ## The base design -/

/-- An operation that raises nothing, with no reset listed, is answered with OK or polls on. -/
theorem Res.EndsOnly.ok_or_polling {m : Op Progress} {s t : State} {Q : Status → Prop} (hm : (m s).EndsOnly s Q)
    (hQ : ∀ st, ¬ Q st) (hs : s.NeverReset) (h : perform m s = .next t) :
    (t.busy = false ∧ t.rspValid = true ∧ t.rspWord.extractLsb' 8 4 = 0#4) ∨
    (t.busy = true ∧ ∃ u, m s = .ok .polling u) := by
  rcases perform_cases h with ⟨d, u, _, rfl⟩ | ⟨u, hu, rfl⟩ | ⟨st, info, u, hu, rfl⟩ | hu
  · exact .inl ⟨rfl, rfl, responseWord_status .ok d⟩
  · exact .inr ⟨rfl, u, hu⟩
  · rw [hu] at hm
    exact absurd hm (hQ st)
  · rw [hu] at hm
    exact absurd hs hm.2

theorem andThen_finished_ne_polling {α : Type} (m : Op α) (f : α → Byte) (s u : State) :
    Op.andThen m (fun a => Op.done (Progress.finished (f a))) s ≠ .ok .polling u := by
  intro h
  obtain ⟨_, _, _, hdone⟩ := andThen_eq_ok h
  cases hdone

/-- The other operations end with a `return`, given or implied (rule R14). -/
theorem wait_of_operation_polling {i : Instr} {s u : State} (h : operation i s = .ok .polling u) : i = .wait := by
  cases i with
  | wait => rfl
  | drd => exact absurd h (andThen_finished_ne_polling _ id s u)
  | rdb a => exact absurd h (andThen_finished_ne_polling _ id s u)
  | _ => exact absurd h (andThen_finished_ne_polling _ (fun _ => 0x00#8) s u)

/-- Settles O41: in the base design no operation may raise a fault (`not_mayRaise_base`), and only WAIT polls. -/
theorem baseDesignReportsNoFault : Obligations.BaseDesignReportsNoFault := by
  unfold Obligations.BaseDesignReportsNoFault
  refine ⟨fun i s t hbuild hs h => ?command, fun s t hbuild hs hbusy h => ?poll⟩
  case command =>
    have hends := endsOnly_operation i s
    rw [hbuild] at hends
    rw [exec_eq_perform] at h
    rcases hends.ok_or_polling (not_mayRaise_base i) hs h with hok | ⟨hbusy, u, hpolling⟩
    · exact .inl hok
    · exact .inr ⟨hbusy, wait_of_operation_polling hpolling⟩
  case poll =>
    have hends := endsOnly_laterPoll (s := s) (.inr (by rw [hbuild]; rfl))
    rw [hbuild] at hends
    rw [step_of_busy hbusy] at h
    exact (hends.ok_or_polling (not_mayRaise_base .wait) hs h).imp_right And.left

end Sys2Proof.Machine
end

section
/-! SUPPORT. The family of 70_reset_and_hazards.md: a WRB whose reset falls inside its pulse (rule R264). -/

namespace Sys2Proof.Machine

/-- A reset in the last slot of WRB, as an outcome of the whole command (rules R260, R264). -/
theorem exec_wrb_reset_inside {s : State} (h : s.AtBoundary) (a : Addr) (d : Byte) {n : Nat} (hlast : n + 1 = wrbCost s a)
    (hr : s.NoResetFor n) (hrst : (s.slotAt n).rst = true) :
    ∃ u : State, exec (.wrb a d) s = .next u.resetBlock ∧
      u.resetBlock.dev = (s.passTimes (n + 1)).dev.writePulse a d := by
  obtain ⟨u, hu, _, _, hinside⟩ := wrb_reset h a d (by omega) hr hrst
  have habandoned : operation (.wrb a d) s = .abandoned u.resetBlock := andThen_abandoned hu
  exact ⟨u, (exec_eq_perform _ s).trans (perform_abandoned habandoned), hinside hlast⟩

/-- Settles O47: the device reacts to the pulse that the reset ends, and the block is in the state after a reset. -/
theorem resetInsideAWritePulseEndsIt : Obligations.ResetInsideAWritePulseEndsIt := by
  unfold Obligations.ResetInsideAWritePulseEndsIt
  intro s a d n hs hcost hr hrst
  obtain ⟨u, hexec, hdev⟩ := exec_wrb_reset_inside hs.atBoundary a d hcost.symm hr hrst
  obtain ⟨hvalid, hdir, hddir, hoe, hwe, _, _, _, _, hbusy, _, _, _, hrsp⟩ := resetBlock_atReset u
  exact ⟨u.resetBlock, hexec, hdev, hrsp, hbusy, hwe, hdir, hddir, hoe, hvalid⟩

end Sys2Proof.Machine
end
